-- ==== Sys2Proof/Word.lean ====
section
/-! DEFINITION. The word types of the core: what moves over its ports, its codes and its host registers.
R11 and R55 fix the widths: a port token carries 8 bits, a code is held in 12 bits, a host register access is 32
bits. Bit 0 is the least significant bit, and every value is unsigned. -/

namespace Sys2Proof

/-- One byte of a port, one palette index, one payload byte (R55, R8 `INDEX_BITS`). -/
abbrev Byte := BitVec 8

/-- One code of the code stream, zero-extended to 12 bits (R8 `CODE_BITS`, R75). -/
abbrev Code := BitVec 12

/-- One host register word (R9 `REG_BITS`, R55). -/
abbrev HostWord := BitVec 32

end Sys2Proof
end

