-- ==== Sys2Proof/Config.lean ====
section
/-! DEFINITION. What an implementation fixes, and the free values.
The fixed parameters of R8 stand as numbers where the rules use them: 8-bit indices, base widths 2 to 8, code width at
most 12, 12-bit codes, 4096 dictionary entries, chunks of at most 255 bytes, palette sizes 1 to 256. -/

namespace Sys2Proof.Config

/-- `FULL_TABLE_POLICY` (R9, R147, D7): what the decoder does with a data code that would need an entry while the
table is full. -/
inductive FullTablePolicy where
  /-- execute the code, add no entry -/
  | tolerate
  /-- raise `BAD_CODE` before any output -/
  | fault
deriving DecidableEq, Repr

/-- The parameters of R9 that a model may take as an argument. `State.cfg` holds them; no step changes them. -/
structure Params where
  /-- `LEADING_CLEAR` (R9, R167, D5): the encoder emits Clear as its first code. -/
  leadingClear : Bool
  /-- `FULL_TABLE_POLICY` (R9, R147, D7). -/
  fullTable : FullTablePolicy
deriving DecidableEq, Repr

/-- The values R9 gives the parameters in this spec. -/
def Params.ofSpec : Params := { leadingClear := true, fullTable := .tolerate }

/-- `REG_BASE` (R9, R58, D2): where the register block sits in the host's address space. OPEN in the spec; no rule
reads it, since host accesses are given by their byte offset (log 11). -/
opaque regBase : Nat

/-- FREE VALUE: what a read of `STATE` or `BASE` returns while `PHASE = RUN` (R36, R218), one draw per read, by the
offset read and the draw's number (log 9). -/
opaque busyRead : Nat → Nat → HostWord

/-- FREE VALUE: what `PREV` holds after an epoch reset, by the draw's number (R26, R142: "`PREV` becomes
unspecified"; log 6). -/
opaque unspecifiedPrev : Nat → Code

/-- FREE VALUE: what `CAND` holds after `OpInit`, while the candidate is empty, by the draw's number (R28; log 7). -/
opaque unspecifiedCand : Nat → Code

end Sys2Proof.Config
end

