-- ==== Sys2Proof/Syntax.lean ====
section
/-! DEFINITION. The instructions: one constructor per row of spec/opcode_table.json, in the table's order.
The words they stand for have four formats (R71 to R74): a command is a 32-bit word written to `CTRL`, the width byte
and a sub-block length are one byte, a code is a 12-bit zero-extended value. The same bits mean different things at
different places of the stream, so a word is read in a `Context`. -/

namespace Sys2Proof

/-- One word as it stands on the wire or in a host write (formats CMD, WIDTH and LEN, CODE of R71 to R74). -/
inductive WireWord where
  /-- a 32-bit value written to `CTRL` (R74) -/
  | cmd (v : HostWord)
  /-- one byte of a compressed block (R71, R72) -/
  | byte (v : Byte)
  /-- a code read with width `W`, zero-extended to 12 bits (R73, R75) -/
  | code (c : Code)
deriving DecidableEq, Repr

/-- Where a word stands, which decides what it means. For a code that is the decoder's `B`, `N` and `JR` at the
moment the code has been read (R76). -/
inductive Context where
  /-- a host write of `CTRL` (R31) -/
  | ctrl
  /-- the first byte of a compressed block (R70, R183) -/
  | width
  /-- a sub-block length byte (R70, R102, R105) -/
  | len
  /-- a code of the code stream (R76) -/
  | code (b : BitVec 4) (n : BitVec 13) (jr : Bool)
deriving DecidableEq, Repr

/-- The instructions (R83). A command keeps its ignored bits [31:2] as an operand, so that no bit of the word is lost
between decoding and encoding. -/
inductive Instr where
  /-- `CMD_ACK`: `CTRL.OP = 0b00` (R189) -/
  | cmdAck (ignored : BitVec 30)
  /-- `CMD_ENCODE`: `CTRL.OP = 0b01` (R180) -/
  | cmdEncode (ignored : BitVec 30)
  /-- `CMD_DECODE`: `CTRL.OP = 0b10` (R183) -/
  | cmdDecode (ignored : BitVec 30)
  /-- `CMD_RESERVED`: `CTRL.OP = 0b11` (R190) -/
  | cmdReserved (ignored : BitVec 30)
  /-- `WIDTH_BYTE`: the base code width (R71, R183) -/
  | widthByte (b : Byte)
  /-- `SUBBLOCK_TERM`: the zero length byte (R72, R102) -/
  | subblockTerm
  /-- `SUBBLOCK_LEN`: the length byte of a chunk (R72, R102) -/
  | subblockLen (len : Byte)
  /-- `CLEAR_2`: code 4 while `B = 2` (R142) -/
  | clear2
  /-- `EOI_2`: code 5 while `B = 2` (R143) -/
  | eoi2
  /-- `LITERAL_2`: a code below 4 while `B = 2` (R145) -/
  | literal2 (index : BitVec 2)
  /-- `CLEAR_3`: code 8 while `B = 3` (R142) -/
  | clear3
  /-- `EOI_3`: code 9 while `B = 3` (R143) -/
  | eoi3
  /-- `LITERAL_3`: a code below 8 while `B = 3` (R145) -/
  | literal3 (index : BitVec 3)
  /-- `CLEAR_4`: code 16 while `B = 4` (R142) -/
  | clear4
  /-- `EOI_4`: code 17 while `B = 4` (R143) -/
  | eoi4
  /-- `LITERAL_4`: a code below 16 while `B = 4` (R145) -/
  | literal4 (index : BitVec 4)
  /-- `CLEAR_5`: code 32 while `B = 5` (R142) -/
  | clear5
  /-- `EOI_5`: code 33 while `B = 5` (R143) -/
  | eoi5
  /-- `LITERAL_5`: a code below 32 while `B = 5` (R145) -/
  | literal5 (index : BitVec 5)
  /-- `CLEAR_6`: code 64 while `B = 6` (R142) -/
  | clear6
  /-- `EOI_6`: code 65 while `B = 6` (R143) -/
  | eoi6
  /-- `LITERAL_6`: a code below 64 while `B = 6` (R145) -/
  | literal6 (index : BitVec 6)
  /-- `CLEAR_7`: code 128 while `B = 7` (R142) -/
  | clear7
  /-- `EOI_7`: code 129 while `B = 7` (R143) -/
  | eoi7
  /-- `LITERAL_7`: a code below 128 while `B = 7` (R145) -/
  | literal7 (index : BitVec 7)
  /-- `CLEAR_8`: code 256 while `B = 8` (R142) -/
  | clear8
  /-- `EOI_8`: code 257 while `B = 8` (R143) -/
  | eoi8
  /-- `LITERAL_8`: a code below 256 while `B = 8` (R145) -/
  | literal8 (index : BitVec 8)
  /-- `LEARNED`: `S0 ≤ code < N` (R146) -/
  | learned (code : Code)
  /-- `KWKWK`: `code = N` and `JR = 0` (R148) -/
  | kwkwk (code : Code)
  /-- `KWKWK_AFTER_RESET`: `code = N` and `JR = 1` (R149) -/
  | kwkwkAfterReset (code : Code)
  /-- `INVALID`: `code > N` (R150) -/
  | invalid (code : Code)
deriving DecidableEq, Repr

end Sys2Proof
end

