-- ==== Sys2Proof/WellFormed.lean ====
section
/-! DEFINITION. What a well-formed instruction is, and the condition its row of spec/opcode_table.json puts on the
place where its word stands. -/

namespace Sys2Proof

/-- The check on the instruction's own fields. A length byte 0 is the terminator and not a chunk (R72). The four
dynamic classes stand above the literals and the two control codes of every base width, so their code is at least
`2^2 + 2 = 6` (R51, R76). -/
def Instr.wellFormed : Instr → Bool
  | .cmdAck _ => true
  | .cmdEncode _ => true
  | .cmdDecode _ => true
  | .cmdReserved _ => true
  | .widthByte _ => true
  | .subblockTerm => true
  | .subblockLen len => len != 0
  | .clear2 => true
  | .eoi2 => true
  | .literal2 _ => true
  | .clear3 => true
  | .eoi3 => true
  | .literal3 _ => true
  | .clear4 => true
  | .eoi4 => true
  | .literal4 _ => true
  | .clear5 => true
  | .eoi5 => true
  | .literal5 _ => true
  | .clear6 => true
  | .eoi6 => true
  | .literal6 _ => true
  | .clear7 => true
  | .eoi7 => true
  | .literal7 _ => true
  | .clear8 => true
  | .eoi8 => true
  | .literal8 _ => true
  | .learned c => 6 ≤ c.toNat
  | .kwkwk c => 6 ≤ c.toNat
  | .kwkwkAfterReset c => 6 ≤ c.toNat
  | .invalid c => 6 ≤ c.toNat

/-- A base width of the core (R8 `MIN_BASE`, `MAX_BASE`). -/
def baseWidthOk (b : BitVec 4) : Bool := 2 ≤ b.toNat && b.toNat ≤ 8

/-- `B = k` in a code context. -/
def Context.hasBase (k : Nat) : Context → Bool
  | .code b _ _ => b.toNat == k
  | _ => false

/-- The `condition` column of the table, together with the format column: whether the instruction's word, standing in
the context, is that instruction. A width byte outside 2 to 8 is still the width byte: it is executed, and raises
`BAD_WIDTH` (R201). -/
def Instr.condition (ctx : Context) : Instr → Bool
  | .cmdAck _ => ctx == .ctrl
  | .cmdEncode _ => ctx == .ctrl
  | .cmdDecode _ => ctx == .ctrl
  | .cmdReserved _ => ctx == .ctrl
  | .widthByte _ => ctx == .width
  | .subblockTerm => ctx == .len
  | .subblockLen _ => ctx == .len
  | .clear2 => ctx.hasBase 2
  | .eoi2 => ctx.hasBase 2
  | .literal2 _ => ctx.hasBase 2
  | .clear3 => ctx.hasBase 3
  | .eoi3 => ctx.hasBase 3
  | .literal3 _ => ctx.hasBase 3
  | .clear4 => ctx.hasBase 4
  | .eoi4 => ctx.hasBase 4
  | .literal4 _ => ctx.hasBase 4
  | .clear5 => ctx.hasBase 5
  | .eoi5 => ctx.hasBase 5
  | .literal5 _ => ctx.hasBase 5
  | .clear6 => ctx.hasBase 6
  | .eoi6 => ctx.hasBase 6
  | .literal6 _ => ctx.hasBase 6
  | .clear7 => ctx.hasBase 7
  | .eoi7 => ctx.hasBase 7
  | .literal7 _ => ctx.hasBase 7
  | .clear8 => ctx.hasBase 8
  | .eoi8 => ctx.hasBase 8
  | .literal8 _ => ctx.hasBase 8
  | .learned c =>
    match ctx with
    | .code b n _ => baseWidthOk b && decide (2 ^ b.toNat + 2 ≤ c.toNat) && decide (c.toNat < n.toNat)
    | _ => false
  | .kwkwk c =>
    match ctx with
    | .code b n jr => baseWidthOk b && decide (2 ^ b.toNat + 2 ≤ c.toNat) && decide (c.toNat = n.toNat) && !jr
    | _ => false
  | .kwkwkAfterReset c =>
    match ctx with
    | .code b n jr => baseWidthOk b && decide (2 ^ b.toNat + 2 ≤ c.toNat) && decide (c.toNat = n.toNat) && jr
    | _ => false
  | .invalid c =>
    match ctx with
    | .code b n _ => baseWidthOk b && decide (2 ^ b.toNat + 2 ≤ c.toNat) && decide (n.toNat < c.toNat)
    | _ => false

end Sys2Proof
end

