-- ==== Sys2Proof/Decode.lean ====
section
/-! DEFINITION. The decoder, total on every word in every context and rejecting by name; after it the encoder; and
the bit-field helpers both use. -/

namespace Sys2Proof

/-! ## Bits -/

/-- The low `w` bits of `v`, bit 0 first (R53, R110: "least-significant-bit first"). -/
def bitsOf (v : Nat) : Nat → List Bool
  | 0 => []
  | w + 1 => (v % 2 == 1) :: bitsOf (v / 2) w

/-- The unsigned value of a list of bits, bit 0 first (R75: the sum of bit `i` times `2^i`). -/
def ofBits : List Bool → Nat
  | [] => 0
  | b :: bs => b.toNat + 2 * ofBits bs

/-- `bitlen` with `fuel` bits at most. -/
def bitlenUpTo : Nat → Nat → Nat
  | 0, _ => 0
  | fuel + 1, x => if x = 0 then 0 else 1 + bitlenUpTo fuel (x / 2)

/-- `bitlen(x)`: the number of bits of `x` with no leading zeros (R11). -/
def bitlen (x : Nat) : Nat := bitlenUpTo x x

/-- `ceil_log2(p)` for `p ≥ 1`: the least `k` with `2^k ≥ p`, which equals `bitlen(p - 1)` (R11). -/
def ceilLog2 (p : Nat) : Nat := bitlen (p - 1)

/-! ## Decoding -/

/-- Why a word is no instruction in its context. -/
inductive Reject where
  /-- the word's format is not the one the context reads -/
  | wrongFormat
  /-- a code is read while `B` holds no base width 2 to 8 (no rule reads a code then) -/
  | noBaseWidth
deriving DecidableEq, Repr

/-- What the decoder answers. -/
inductive Decoded where
  /-- the word is this instruction -/
  | instr (i : Instr)
  /-- the word is no instruction there, and why -/
  | rejected (r : Reject)
deriving DecidableEq, Repr

/-- A command, by its field `OP = v[1:0]`; `v[31:2]` is ignored (R31, R74). -/
def decodeCommand (v : HostWord) : Instr :=
  let ignored : BitVec 30 := v.extractLsb' 2 30
  match (v.extractLsb' 0 2 : BitVec 2) with
  | 0#2 => .cmdAck ignored
  | 1#2 => .cmdEncode ignored
  | 2#2 => .cmdDecode ignored
  | _ => .cmdReserved ignored

/-- A sub-block length byte (R72): 0 is the terminator, every other value the length of a chunk. -/
def decodeLength (v : Byte) : Instr :=
  if v = 0 then .subblockTerm else .subblockLen v

/-- The row `CLEAR_b` (R142). -/
def clearRow : Nat → Option Instr
  | 2 => some .clear2
  | 3 => some .clear3
  | 4 => some .clear4
  | 5 => some .clear5
  | 6 => some .clear6
  | 7 => some .clear7
  | 8 => some .clear8
  | _ => none

/-- The row `EOI_b` (R143). -/
def eoiRow : Nat → Option Instr
  | 2 => some .eoi2
  | 3 => some .eoi3
  | 4 => some .eoi4
  | 5 => some .eoi5
  | 6 => some .eoi6
  | 7 => some .eoi7
  | 8 => some .eoi8
  | _ => none

/-- The row `LITERAL_b` (R145): the index is the code's low `b` bits. -/
def literalRow (c : Code) : Nat → Option Instr
  | 2 => some (.literal2 (c.extractLsb' 0 2))
  | 3 => some (.literal3 (c.extractLsb' 0 3))
  | 4 => some (.literal4 (c.extractLsb' 0 4))
  | 5 => some (.literal5 (c.extractLsb' 0 5))
  | 6 => some (.literal6 (c.extractLsb' 0 6))
  | 7 => some (.literal7 (c.extractLsb' 0 7))
  | 8 => some (.literal8 (c.extractLsb' 0 8))
  | _ => none

/-- A row of a base width, or the rejection of a width that has none. -/
def ofRow : Option Instr → Decoded
  | some i => .instr i
  | none => .rejected .noBaseWidth

/-- The classification of a code, test by test in the order of R76. -/
def decodeCode (b : BitVec 4) (n : BitVec 13) (jr : Bool) (c : Code) : Decoded :=
  if !baseWidthOk b then .rejected .noBaseWidth
  else if c.toNat = 2 ^ b.toNat then ofRow (clearRow b.toNat)
  else if c.toNat = 2 ^ b.toNat + 1 then ofRow (eoiRow b.toNat)
  else if c.toNat < 2 ^ b.toNat then ofRow (literalRow c b.toNat)
  else if c.toNat < n.toNat then .instr (.learned c)
  else if c.toNat = n.toNat then
    if jr then .instr (.kwkwkAfterReset c) else .instr (.kwkwk c)
  else .instr (.invalid c)

/-- The decoder (R71 to R76, R83). -/
def decode : Context → WireWord → Decoded
  | .ctrl, .cmd v => .instr (decodeCommand v)
  | .width, .byte v => .instr (.widthByte v)
  | .len, .byte v => .instr (decodeLength v)
  | .code b n jr, .code c => decodeCode b n jr c
  | _, _ => .rejected .wrongFormat

/-! ## Encoding -/

/-- A command word with its `OP` and its ignored bits (R31, R74). -/
def commandWord (ignored : BitVec 30) (op : BitVec 2) : WireWord := .cmd (ignored ++ op)

/-- The word of an instruction, from the encodings of R71 to R74 and R83. -/
def encode : Instr → WireWord
  | .cmdAck ignored => commandWord ignored 0
  | .cmdEncode ignored => commandWord ignored 1
  | .cmdDecode ignored => commandWord ignored 2
  | .cmdReserved ignored => commandWord ignored 3
  | .widthByte b => .byte b
  | .subblockTerm => .byte 0
  | .subblockLen len => .byte len
  | .clear2 => .code 4
  | .eoi2 => .code 5
  | .literal2 index => .code (index.setWidth 12)
  | .clear3 => .code 8
  | .eoi3 => .code 9
  | .literal3 index => .code (index.setWidth 12)
  | .clear4 => .code 16
  | .eoi4 => .code 17
  | .literal4 index => .code (index.setWidth 12)
  | .clear5 => .code 32
  | .eoi5 => .code 33
  | .literal5 index => .code (index.setWidth 12)
  | .clear6 => .code 64
  | .eoi6 => .code 65
  | .literal6 index => .code (index.setWidth 12)
  | .clear7 => .code 128
  | .eoi7 => .code 129
  | .literal7 index => .code (index.setWidth 12)
  | .clear8 => .code 256
  | .eoi8 => .code 257
  | .literal8 index => .code (index.setWidth 12)
  | .learned c => .code c
  | .kwkwk c => .code c
  | .kwkwkAfterReset c => .code c
  | .invalid c => .code c

/-! ## Words of the opcode table

The table numbers an instruction's bits without saying where the word stands, and the same bits are several rows'
words. `tableContext` fixes the place a bare table word is read at (log 4): a word of more than 16 bits is a command;
a word of 9 to 16 bits is a code, read as the first code of an epoch whose base width is the least one in which the
word is Clear, EOI or a literal (8 where none is); a byte 0 is the terminator, the bytes 1 to 3 are commands whose upper
bits are 0, the bytes 4 to 8 are width bytes and the others chunk lengths. -/

/-- The least base width in which the code `w` is Clear, EOI or a literal; 8 where none is. -/
def tableBase (w : Nat) : Nat :=
  if w ≤ 5 then 2 else if w ≤ 9 then 3 else if w ≤ 17 then 4 else if w ≤ 33 then 5
  else if w ≤ 65 then 6 else if w ≤ 129 then 7 else 8

/-- The place a bare table word is read at. -/
def tableContext (nbits w : Nat) : Context :=
  if 16 < nbits then .ctrl
  else if 8 < nbits then .code (BitVec.ofNat 4 (tableBase w)) (BitVec.ofNat 13 (2 ^ tableBase w + 2)) true
  else if w = 0 then .len
  else if w ≤ 3 then .ctrl
  else if w ≤ 8 then .width
  else .len

/-- The wire word of a bare table word, in its context's format; none where the word does not fit the format. -/
def tableWord (nbits w : Nat) : Option WireWord :=
  match tableContext nbits w with
  | .ctrl => if w < 2 ^ 32 then some (.cmd (BitVec.ofNat 32 w)) else none
  | .width => if w < 2 ^ 8 then some (.byte (BitVec.ofNat 8 w)) else none
  | .len => if w < 2 ^ 8 then some (.byte (BitVec.ofNat 8 w)) else none
  | .code _ _ _ => if w < 2 ^ 12 then some (.code (BitVec.ofNat 12 w)) else none

/-- What the decoder reads from a word numbered as spec/opcode_table.json numbers it. -/
def decodeTableWord (nbits w : Nat) : Option Instr :=
  match tableWord nbits w with
  | none => none
  | some word =>
    match decode (tableContext nbits w) word with
    | .instr i => some i
    | .rejected _ => none

end Sys2Proof
end

