-- ==== Sys2Proof/Machine/State.lean ====
section
/-! DEFINITION. The machine's state as plain data (10_state.md), the reasons a step can stop, and the state after
reset. -/

namespace Sys2Proof.Machine

/-- `PHASE` (R21). -/
inductive Phase where
  /-- waiting for a command -/
  | idle
  /-- an operation is running; `OPK` names its stage -/
  | run
  /-- the operation ended well -/
  | done
  /-- the operation ended in a fault -/
  | fault
deriving DecidableEq, Repr, Inhabited

/-- `OPK`: the running operation and its stage (R21). -/
inductive Opk where
  /-- ENCODE, taking index tokens -/
  | encIndex
  /-- ENCODE, finishing the code stream and the framing -/
  | encFinish
  /-- DECODE, taking the width byte -/
  | decWidth
  /-- DECODE, reading and executing codes -/
  | decCodes
  /-- DECODE, consuming the rest of the payload -/
  | decDrain
deriving DecidableEq, Repr, Inhabited

/-- The fault codes held in `ERR` (R200). The codes 8 to 15 are reserved and never raised (R208), so they have no
name here. -/
inductive ErrCode where
  /-- no fault -/
  | none
  /-- the width byte is outside 2 to 8 (R201) -/
  | badWidth
  /-- a code that is no code at its place (R202) -/
  | badCode
  /-- the payload ends before EOI (R203) -/
  | outOfData
  /-- the palette size is outside 1 to 256 (R204) -/
  | rangePalette
  /-- an index is `2^b` or more (R205) -/
  | rangeIndex
  /-- `End` where DECODE needs a byte (R206) -/
  | ioFail
  /-- the reserved command (R207) -/
  | illegalCmd
deriving DecidableEq, Repr, Inhabited

/-- A token of the input port (R41). -/
inductive Token where
  /-- `Byte(v)` -/
  | byte (v : Byte)
  /-- `End` -/
  | eof
deriving DecidableEq, Repr

/-- An item of the output port (R41): a byte, or the end marker. -/
inductive OutItem where
  /-- a byte that `OutPut` appended -/
  | byte (v : Byte)
  /-- the end marker that `OutEnd` appended -/
  | endMark
deriving DecidableEq, Repr

/-- A learned entry `Seq(prefix, suffix, first)` (R37). -/
structure Entry where
  /-- `prefix`, the code of the sequence without its last index -/
  pfx : Code
  /-- `suffix`, the last index -/
  sfx : Byte
  /-- `first`, the first index -/
  fst : Byte
deriving DecidableEq, Repr

/-- The dictionary RAM (R37): the slots that have been written, by their code, in one canonical form
(`Memory.wf` of Machine/Ops.lean: codes strictly rising, all below 4096). An unlisted slot holds no value (R44, R125;
log 8). -/
abbrev Memory := List (Nat × Entry)

/-- One step of the host (R192), and the platform's power-on reset (R230). -/
inductive HostStep where
  /-- `MemWrite(off, size, v)`: a register write of `size` bytes -/
  | memWrite (off size : Nat) (v : HostWord)
  /-- `MemRead(off, size)`: a register read of `size` bytes -/
  | memRead (off size : Nat)
  /-- `Push(t)` -/
  | push (t : Token)
  /-- `Pop()` -/
  | pop
  /-- `Discard()` -/
  | discard
  /-- the platform asserts the core's reset -/
  | powerOn
deriving DecidableEq, Repr

/-- Whose step is next (R20, R192, R193; log 1). -/
inductive Turn where
  /-- the engine's candidate step, or nothing where it has none or it is not enabled -/
  | engine
  /-- this step of the host -/
  | host (h : HostStep)
deriving DecidableEq, Repr

/-- The state of the core (10_state.md), with the parameters of R9 and the model's own fields. -/
structure State where
  /-- the parameters of R9; no step changes them -/
  cfg : Config.Params
  /-- `PHASE` (R21) -/
  phase : Phase
  /-- `OPK` (R21), read only while `PHASE = RUN` -/
  opk : Opk
  /-- `LAST_OP` (R21, R33) -/
  lastOp : BitVec 2
  /-- `B`, the base code width (R22) -/
  b : BitVec 4
  /-- `N`, the dictionary size (R23) -/
  n : BitVec 13
  /-- `W`, the active code width (R24) -/
  w : BitVec 4
  /-- `JR`, the justReset flag (R25) -/
  jr : Bool
  /-- `PREV`, the decoder's previous code (R26) -/
  prev : Code
  /-- `RCUR`, payload bits consumed (R27) -/
  rcur : Nat
  /-- `WCUR`, code-stream bits written (R27) -/
  wcur : Nat
  /-- `CAND`, the encoder's candidate (R28) -/
  cand : Code
  /-- `CAND_V` (R28) -/
  candV : Bool
  /-- `CHUNK`, the encoder-side sub-block buffer (R29); its length is `CLEN` (log 14) -/
  chunk : List Byte
  /-- `WACC`, the pending code-stream bits, first written first (R29) -/
  wacc : List Bool
  /-- `REM`, bytes left in the current sub-block (R29) -/
  rem : BitVec 8
  /-- `PEND`, the terminator has been consumed (R29) -/
  pend : Bool
  /-- `RACC`, payload bits taken and not yet consumed, first payload bit first (R29) -/
  racc : List Bool
  /-- `ERR` (R38, R200) -/
  err : ErrCode
  /-- `EINFO` (R38) -/
  einfo : BitVec 16
  /-- `PFAULT`, the fault held during a drain (R38, R186) -/
  pfault : Option (ErrCode × BitVec 16)
  /-- `P_LAT`, the latched palette size (R43) -/
  pLat : BitVec 9
  /-- `PALETTE.SIZE` (R32) -/
  palette : BitVec 9
  /-- the dictionary RAM (R37) -/
  mem : Memory
  /-- `INQ`, head first (R41) -/
  inq : List Token
  /-- `OUTQ`, head first (R41) -/
  outq : List OutItem
  /-- MODEL: the turns to come; when there is none, every turn is the engine's (log 1) -/
  agenda : List Turn
  /-- MODEL: what the host's last register read returned (log 13) -/
  readData : Option HostWord
  /-- MODEL: what the host's last `Pop` returned (log 13) -/
  popData : Option OutItem
  /-- MODEL: how many free values have been drawn (log 10) -/
  draws : Nat
deriving DecidableEq, Repr

/-- Why the model stops where the core has no behaviour. The core's own faults are next states (R209), not these. -/
inductive Fault where
  /-- A rule reads the sequence, the first index or the RAM slot of a code that has no valid entry (93 item 4: "fault
  if read: they hold no value"). Raised by the data codes and by the encoder's miss, only in states that break the
  invariant of R151. Safe. -/
  | dictUndefined
  /-- An entry is added while `N ≥ 4096` (R126: "require N < 4096"). Raised by `KWKWK`, only in states that break the
  invariant of R151. Safe. -/
  | dictFull
deriving DecidableEq, Repr

/-- What the model does not admit. -/
inductive Refusal where
  /-- an instruction that has no meaning yet, by its mnemonic; raised by no arm of exec -/
  | notModelled (mnemonic : String)
  /-- a host access that is not 32 bits wide, not at a multiple of 4, or above 0xFC (R42, R56, R192). Safe. -/
  | hostAccess
  /-- `Pop` while `OUTQ` is empty: the host step's precondition fails (R192). Safe. -/
  | popEmpty
  /-- `Discard` while `PHASE = RUN`: the host step's precondition fails (R192). Safe. -/
  | discardWhileRunning
  /-- a word that the decoder rejects; only a code read while `B` is no base width, which breaks the invariant of
  R151. Safe. -/
  | noInstruction (r : Reject)
deriving DecidableEq, Repr

/-- What a step of this machine answers. -/
abbrev Result := Host.Outcome State Fault Refusal

/-- The state right after power-on reset (R44, R230). R44 leaves `OPK`, `PREV` and `CAND` unspecified; the values here
are named in logs 5, 6 and 7, and the model's own fields in logs 1, 10 and 13. -/
def State.reset : State where
  cfg := Config.Params.ofSpec
  phase := .idle
  opk := .encIndex
  lastOp := 0
  b := 0
  n := 0
  w := 0
  jr := false
  prev := 0
  rcur := 0
  wcur := 0
  cand := 0
  candV := false
  chunk := []
  wacc := []
  rem := 0
  pend := false
  racc := []
  err := .none
  einfo := 0
  pfault := none
  pLat := 0
  palette := 0
  mem := []
  inq := []
  outq := []
  agenda := []
  readData := none
  popData := none
  draws := 0

end Sys2Proof.Machine
end

