-- ==== Sys2Proof/Machine/Ops.lean ====
section
/-! DEFINITION. The shared operations over the state: the constants of a base width, the dictionary RAM, the ports, taking a
fault and returning from one, and the initialisations. -/

namespace Sys2Proof.Machine

/-! ## Constants of the operation (R22) -/

/-- `CL = 2^b`, the Clear code (R22). -/
def State.clearCode (s : State) : Nat := 2 ^ s.b.toNat

/-- `EOI = 2^b + 1` (R22). -/
def State.eoiCode (s : State) : Nat := 2 ^ s.b.toNat + 1

/-- `S0 = 2^b + 2`, the first learned code (R22). -/
def State.firstLearned (s : State) : Nat := 2 ^ s.b.toNat + 2

/-- `CLEN`, the length of the sub-block buffer (R29; log 14). -/
def State.clen (s : State) : Nat := s.chunk.length

/-! ## The dictionary RAM (R37) -/

/-- The entry a slot holds; none where the slot has never been written (log 8). -/
def Memory.read : Memory → Nat → Option Entry
  | [], _ => none
  | (a, e) :: m, c => if a = c then some e else Memory.read m c

/-- Write a slot, keeping the canonical form. -/
def Memory.write : Memory → Nat → Entry → Memory
  | [], c, e => [(c, e)]
  | (a, x) :: m, c, e =>
    if c < a then (c, e) :: (a, x) :: m
    else if c = a then (c, e) :: m
    else (a, x) :: Memory.write m c e

/-- The canonical form: codes strictly rising, all below 4096 (R8 `DICT_ENTRIES`). -/
def Memory.wf : Memory → Bool
  | [] => true
  | (a, _) :: m => decide (a < 4096) && m.all (fun x => decide (a < x.1)) && Memory.wf m

/-- `DICT[c]` for a learned code: the slot of a valid learned entry `S0 ≤ c < N` (R125), none elsewhere. -/
def dictRead (s : State) (c : Nat) : Option Entry :=
  if s.firstLearned ≤ c ∧ c < s.n.toNat then s.mem.read c else none

/-- `seq(c)` (R120), with at most `fuel` entries followed; none where it is not defined. -/
def seqUpTo (s : State) : Nat → Nat → Option (List Byte)
  | 0, _ => none
  | fuel + 1, c =>
    if c < s.clearCode then some [BitVec.ofNat 8 c]
    else
      match dictRead s c with
      | none => none
      | some e =>
        match seqUpTo s fuel e.pfx.toNat with
        | none => none
        | some q => some (q ++ [e.sfx])

/-- `seq(c)`, the index sequence of a valid code (R120). A learned entry's prefix is a smaller code, so a chain has at most
`c + 1` entries. -/
def seqOf (s : State) (c : Nat) : Option (List Byte) := seqUpTo s (c + 1) c

/-- `first(c)`, the first index of `seq(c)` (R121). -/
def firstOf (s : State) (c : Nat) : Option Byte :=
  if c < s.clearCode then some (BitVec.ofNat 8 c)
  else
    match dictRead s c with
    | none => none
    | some e => some e.fst

/-- `DictAdd(p, s, f)` (R126): write slot `N`, then raise `N`. Its callers check `N < 4096` first (R129). -/
def dictAdd (p : Code) (sfx fst : Byte) (s : State) : State :=
  { s with mem := s.mem.write s.n.toNat { pfx := p, sfx := sfx, fst := fst }, n := s.n + 1 }

/-- The valid learned codes of a RAM whose entry is `(p, i)`, the least first. -/
def findEntry (lo hi : Nat) (p : Code) (i : Byte) : Memory → Option Nat
  | [] => none
  | (a, e) :: m => if lo ≤ a ∧ a < hi ∧ e.pfx = p ∧ e.sfx = i then some a else findEntry lo hi p i m

/-- `DictFind(p, s)` (R130): `some c` is `Hit(c)`, `none` is `Miss`. At most one code matches (R131; log 18). -/
def dictFind (s : State) (p : Code) (i : Byte) : Option Nat :=
  findEntry s.firstLearned s.n.toNat p i s.mem

/-- `DictReset()` (R124): `N <- S0`, `W <- b + 1`, `JR <- 1`. No RAM slot is written. With `JR = 1`, `PREV` holds no
specified value (R26, R142): it takes a free value (log 6). -/
def dictReset (s : State) : State :=
  { s with
    n := BitVec.ofNat 13 s.firstLearned
    w := s.b + 1
    jr := true
    prev := Config.unspecifiedPrev s.draws
    draws := s.draws + 1 }

/-! ## The ports (R41, R181) -/

/-- `OutPut(v)` (R13, R181). -/
def outPut (v : Byte) (s : State) : State := { s with outq := s.outq ++ [.byte v] }

/-- `OutPut` of each byte of a list, in order; for an index sequence it is `Emit` (R141). -/
def outPutAll (vs : List Byte) (s : State) : State := { s with outq := s.outq ++ vs.map .byte }

/-- `OutEnd()` (R13, R181). -/
def outEnd (s : State) : State := { s with outq := s.outq ++ [.endMark] }

/-! ## Taking a fault, and returning from one (R209, R189) -/

/-- The code's 4 bits (R200). -/
def ErrCode.bits : ErrCode → BitVec 4
  | .none => 0
  | .badWidth => 1
  | .badCode => 2
  | .outOfData => 3
  | .rangePalette => 4
  | .rangeIndex => 5
  | .ioFail => 6
  | .illegalCmd => 7

/-- `raise Fault(code, info)` (R209). `BAD_CODE` and `OUT_OF_DATA` in the code loop are held while the payload is
drained (R186); every other fault is taken at once. -/
def raise (code : ErrCode) (info : BitVec 16) (s : State) : State :=
  if s.phase = .run ∧ s.opk = .decCodes ∧ (code = .badCode ∨ code = .outOfData) then
    { s with pfault := some (code, info), opk := .decDrain }
  else
    { s with err := code, einfo := info, pfault := none, phase := .fault }

/-- `FinishFault()` (R209): take the held fault at the end of a drain. -/
def finishFault (s : State) : State :=
  match s.pfault with
  | none => s
  | some (code, info) => { s with err := code, einfo := info, pfault := none, phase := .fault }

/-- `Ack()` (R189): leave `DONE` or `FAULT`. -/
def acknowledge (s : State) : State :=
  if s.phase = .done ∨ s.phase = .fault then { s with phase := .idle, err := .none, einfo := 0 } else s

/-! ## Per-operation initialisation (R232) -/

/-- `OpInit()` (R232). With `CAND_V = 0`, `CAND` holds no specified value (R28): it takes a free value (log 7). -/
def opInit (s : State) : State :=
  { s with
    err := .none
    einfo := 0
    pfault := none
    b := 0
    n := 0
    w := 0
    jr := false
    rcur := 0
    wcur := 0
    candV := false
    cand := Config.unspecifiedCand s.draws
    draws := s.draws + 1
    chunk := []
    wacc := []
    rem := 0
    pend := false
    racc := [] }

/-! ## Base width (R134) -/

/-- `BaseWidth(P)` for a legal palette size: `max(2, ceil_log2(P))` (R134, C1); none for `P < 1` and `P > 256`, where
the caller raises `RANGE_PALETTE`. -/
def baseWidth (p : Nat) : Option Nat :=
  if p < 1 ∨ 256 < p then none else some (max 2 (ceilLog2 p))

end Sys2Proof.Machine
end

