-- ==== Sys2Proof/Machine/Flags.lean ====
section
/-! DEFINITION. The flag `JR` (the only one, R25), the two width tests, and the read-only register views (R30 to R36). -/

namespace Sys2Proof.Machine

/-- What a data code leaves (R144, R148): `PREV <- c`, `JR <- 0`. -/
def endDataCode (c : Code) (s : State) : State := { s with prev := c, jr := false }

/-- `EncoderGrowth()` (R127): after an encoder's add, `W` rises when `N > 2^W`. -/
def encoderGrowth (s : State) : State :=
  if 2 ^ s.w.toNat < s.n.toNat ∧ s.w.toNat < 12 then { s with w := s.w + 1 } else s

/-- `DecoderGrowth()` (R128, C3): after a decoder's add, `W` rises when `N ≥ 2^W`. -/
def decoderGrowth (s : State) : State :=
  if 2 ^ s.w.toNat ≤ s.n.toNat ∧ s.w.toNat < 12 then { s with w := s.w + 1 } else s

/-- The width of `EOI` (R166, C4): the encoder's mirror of the decoder's last growth test. -/
def finalGrowth (s : State) : State :=
  if s.n.toNat = 2 ^ s.w.toNat ∧ s.w.toNat < 12 then { s with w := s.w + 1 } else s

/-- `STATUS` (R33): bits [31:12] 0, `ERR`, [7:6] 0, `LAST_OP`, [3] 0, `FAULT`, `DONE`, `BUSY`. -/
def statusWord (s : State) : HostWord :=
  0#20 ++ (if s.phase = .fault then s.err.bits else 0#4) ++ 0#2 ++ s.lastOp ++ 0#1
    ++ BitVec.ofBool (s.phase == .fault) ++ BitVec.ofBool (s.phase == .done) ++ BitVec.ofBool (s.phase == .run)

/-- `ERR_INFO` (R34): `INFO` while `FAULT = 1`, 0 otherwise. -/
def errInfoWord (s : State) : HostWord := 0#16 ++ (if s.phase = .fault then s.einfo else 0#16)

/-- `PALETTE` (R32). -/
def paletteWord (s : State) : HostWord := 0#23 ++ s.palette

/-- `BASE` (R35), while not running. -/
def baseWord (s : State) : HostWord := 0#28 ++ s.b

/-- `STATE` (R36), while not running: `JUST_RESET` at 24, `CODE_WIDTH` at [19:16], `DICT_SIZE` at [12:0]. -/
def stateWord (s : State) : HostWord :=
  0#7 ++ BitVec.ofBool s.jr ++ 0#4 ++ s.w ++ 0#3 ++ s.n

end Sys2Proof.Machine
end

