-- ==== Sys2Proof/Machine/Operands.lean ====
section
/-! DEFINITION. Taking operands from the input port: tokens, the decoder-side framer and the bit unpacker (40_framer.md,
41_bit_packer.md). -/

namespace Sys2Proof.Machine

/-- What an operation that takes tokens ends in. -/
inductive Flow (α : Type) where
  /-- the value, and the state after it -/
  | ok (a : α) (s : State)
  /-- a token is missing: the step is not enabled (R181) -/
  | stall
  /-- a fault was raised; the state after its entry (R209) -/
  | raised (s : State)

/-- `SUBBLOCK_TERM` read by the framer: `PEND <- 1` (R105). -/
def takeTerminator (s : State) : State := { s with pend := true }

/-- `SUBBLOCK_LEN` read by the framer: `REM <- len` (R105). -/
def takeLength (len : Byte) (s : State) : State := { s with rem := len }

/-- The chunk byte of `FrameGet` (R105): one token, `REM <- REM - 1`; `End` raises `IO_FAIL` (R103). -/
def takeChunkByte (s : State) : Flow (Option Byte) :=
  match s.inq with
  | [] => .stall
  | .eof :: q => .raised (raise .ioFail 0 { s with inq := q })
  | .byte v :: q => .ok (some v) { s with inq := q, rem := s.rem - 1 }

/-- `FrameGet()` (R105): the next payload byte, or `none` for `EOP`. A length byte above 0 leaves `REM > 0`, so the rule's
loop over length bytes runs at most once. -/
def frameGet (s : State) : Flow (Option Byte) :=
  if s.pend then .ok none s
  else if s.rem = 0 then
    match s.inq with
    | [] => .stall
    | .eof :: q => .raised (raise .ioFail 0 { s with inq := q })
    | .byte v :: q =>
      if v = 0 then .ok none (takeTerminator { s with inq := q })
      else takeChunkByte (takeLength v { s with inq := q })
  else takeChunkByte s

/-- The loop of `ReadBits(w)` (R113): take payload bytes, bit 0 first, until `RACC` holds `w` bits; `EOP` raises
`OUT_OF_DATA` (R114). Each byte brings 8 bits, so `fuel = w` rounds are enough. -/
def fillBits (w : Nat) : Nat → State → Flow Unit
  | 0, s => .ok () s
  | fuel + 1, s =>
    if w ≤ s.racc.length then .ok () s
    else
      match frameGet s with
      | .stall => .stall
      | .raised s' => .raised s'
      | .ok none s' => .raised (raise .outOfData 0 s')
      | .ok (some v) s' => fillBits w fuel { s' with racc := s'.racc ++ bitsOf v.toNat 8 }

/-- `ReadBits(w)` (R113, R75): the next `w` bits of the payload as an unsigned value. -/
def readBits (w : Nat) (s : State) : Flow Nat :=
  match fillBits w w s with
  | .stall => .stall
  | .raised s' => .raised s'
  | .ok _ s' =>
    .ok (ofBits (s'.racc.take w)) { s' with racc := s'.racc.drop w, rcur := s'.rcur + w }

/-- `Deframe` as a function of the tokens after the width byte (R102): the payload and the tokens left, or `none` where
`End` or the end of the tokens comes first. `n` chunk bytes of the current sub-block are still to come. -/
def deframe : Nat → List Token → Option (List Byte × List Token)
  | _, [] => none
  | _, .eof :: _ => none
  | 0, .byte v :: q => if v = 0 then some ([], q) else deframe v.toNat q
  | n + 1, .byte v :: q =>
    match deframe n q with
    | none => none
    | some (p, r) => some (v :: p, r)

end Sys2Proof.Machine
end

