-- ==== Sys2Proof/Machine/Framer.lean ====
section
/-! DEFINITION. The encoder side of the framer and of the bit packer (40_framer.md, 41_bit_packer.md). -/

namespace Sys2Proof.Machine

/-- `FramePut(v)` (R101): the 255th byte emits the chunk at once. -/
def framePut (v : Byte) (s : State) : State :=
  if (s.chunk ++ [v]).length = 255 then
    { outPutAll (255#8 :: (s.chunk ++ [v])) s with chunk := [] }
  else { s with chunk := s.chunk ++ [v] }

/-- `FrameEnd()` (R104): the last short chunk if there is one, then the terminator. -/
def frameEnd (s : State) : State :=
  if 0 < s.clen then
    outPut 0 { outPutAll (BitVec.ofNat 8 s.clen :: s.chunk) s with chunk := [] }
  else outPut 0 s

/-- `Frame(P)` (R100, D11) as a function of the payload, with at most `fuel` chunks: full chunks of 255 bytes, the rest
if any, the terminator. -/
def frameUpTo : Nat → List Byte → List Byte
  | 0, _ => [0]
  | fuel + 1, p =>
    if 255 ≤ p.length then 255#8 :: (p.take 255 ++ frameUpTo fuel (p.drop 255))
    else if 0 < p.length then BitVec.ofNat 8 p.length :: (p ++ [0])
    else [0]

/-- `Frame(P)` (R100). -/
def frame (p : List Byte) : List Byte := frameUpTo (p.length + 1) p

/-- One bit of `WriteBits` (R110): into `WACC`; eight bits go to the framer as one byte. -/
def writeBit (bit : Bool) (s : State) : State :=
  if (s.wacc ++ [bit]).length = 8 then
    framePut (BitVec.ofNat 8 (ofBits (s.wacc ++ [bit]))) { s with wacc := [], wcur := s.wcur + 1 }
  else { s with wacc := s.wacc ++ [bit], wcur := s.wcur + 1 }

/-- Bits into the code stream, in order. -/
def writeBitList : List Bool → State → State
  | [], s => s
  | bit :: bits, s => writeBitList bits (writeBit bit s)

/-- `WriteBits(v, w)` (R110): the low `w` bits of `v`, bit 0 first. -/
def writeBits (v w : Nat) (s : State) : State := writeBitList (bitsOf v w) s

/-- `Flush()` (R111): pad the code stream to a byte boundary with zero bits; nothing where it is there already. -/
def flush (s : State) : State :=
  if 0 < s.wacc.length then writeBitList (List.replicate (8 - s.wacc.length) false) s else s

end Sys2Proof.Machine
end

