-- ==== Sys2Proof/Machine/Commands.lean ====
section
/-! DEFINITION. The family CMD: the host's commands, written to `CTRL` (45_orchestrator.md). A command written while
`PHASE = RUN` is ignored entirely (R191). The bits `[31:2]` of the word are ignored (R31). -/

namespace Sys2Proof.Machine

/-- A command's effect, ignored while an operation runs (R191). -/
def command (effect : State → State) (s : State) : Result :=
  if s.phase = .run then .next s else .next (effect s)

/-- The part of `StartEncode` before the palette check (R180): `LAST_OP`, `OpInit()`, the latched palette size (R43),
`PHASE <- RUN`. -/
def encodePrologue (s : State) : State :=
  { opInit { s with lastOp := 1 } with pLat := s.palette, phase := .run }

/-- The leading Clear (R167, D5): written where `LEADING_CLEAR = 1`. -/
def leadingClear (s : State) : State :=
  if s.cfg.leadingClear then writeBits s.clearCode s.w.toNat s else s

/-- The part of `StartEncode` after it (R180): the base width, the width byte, the dictionary, the leading Clear. -/
def startEncoding (b : Nat) (s : State) : State :=
  { leadingClear (dictReset (outPut (BitVec.ofNat 8 b) { s with b := BitVec.ofNat 4 b })) with opk := .encIndex }

/-- `StartEncode()` (R180): an illegal palette size raises `RANGE_PALETTE` (R204) with nothing consumed or output. -/
def startEncode (s : State) : State :=
  match baseWidth (encodePrologue s).pLat.toNat with
  | none => raise .rangePalette ((encodePrologue s).pLat.setWidth 16) (encodePrologue s)
  | some b => startEncoding b (encodePrologue s)

/-- The command half of a DECODE (R183). -/
def startDecode (s : State) : State :=
  { opInit { s with lastOp := 2 } with phase := .run, opk := .decWidth }

/-- The reserved command (R190): the fault entry, with nothing else changed but `LAST_OP`. -/
def reservedCommand (s : State) : State := raise .illegalCmd 0 { s with lastOp := 3 }

/-- `CMD_ACK` (R189). -/
def execCmdAck (_ignored : BitVec 30) (s : State) : Result := command acknowledge s

/-- `CMD_ENCODE` (R180). -/
def execCmdEncode (_ignored : BitVec 30) (s : State) : Result := command startEncode s

/-- `CMD_DECODE` (R183). -/
def execCmdDecode (_ignored : BitVec 30) (s : State) : Result := command startDecode s

/-- `CMD_RESERVED` (R190). -/
def execCmdReserved (_ignored : BitVec 30) (s : State) : Result := command reservedCommand s

end Sys2Proof.Machine
end

