-- ==== Sys2Proof/Machine/Wire.lean ====
section
/-! DEFINITION. The families WIDTH and LEN: the width byte and the sub-block length bytes, after `InTake()` has taken
their token (45_orchestrator.md R183, 40_framer.md R105). -/

namespace Sys2Proof.Machine

/-- `WIDTH_BYTE` (R183): outside 2 to 8 it raises `BAD_WIDTH` (R201); else `B <- v`, `DictReset()`, and the code loop
begins. -/
def execWidthByte (v : Byte) (s : State) : Result :=
  if v.toNat < 2 ∨ 8 < v.toNat then .next (raise .badWidth (v.setWidth 16) s)
  else .next { dictReset { s with b := v.setWidth 4 } with opk := .decCodes }

/-- `SUBBLOCK_TERM` (R102, R105): the payload has ended. -/
def execSubblockTerm (s : State) : Result := .next (takeTerminator s)

/-- `SUBBLOCK_LEN` (R102, R105): a chunk of `len` payload bytes follows. -/
def execSubblockLen (len : Byte) (s : State) : Result := .next (takeLength len s)

end Sys2Proof.Machine
end

