-- ==== Sys2Proof/Machine/Codes.lean ====
section
/-! DEFINITION. The family CODE: the decoder's execution of one code, after `ReadBits(W)` has read it
(43_decode_step.md). Its faults are `BAD_CODE`, held while the payload is drained (R186). -/

namespace Sys2Proof.Machine

/-- `ExecClear()` (R142): the dictionary is reset; nothing is added and nothing is output. -/
def clearCodeTable (s : State) : Result := .next (dictReset s)

/-- `ExecEoi()` (R143): the code loop ends and the drain begins. -/
def endOfInformation (s : State) : Result := .next { s with opk := .decDrain }

/-- `BAD_CODE` with the code as information (R149, R150, R147). -/
def badCode (c : Code) (s : State) : Result := .next (raise .badCode (c.setWidth 16) s)

/-- The add of a data code (R144): `DictAdd(PREV, first(c), first(PREV))`, then `DecoderGrowth()`. -/
def addAfterPrevious (f : Byte) (s : State) : Option State :=
  match firstOf s s.prev.toNat with
  | none => none
  | some g => some (decoderGrowth (dictAdd s.prev f g s))

/-- `KnownEntry(c)` (R144): the full-table policy (R147), then emit `seq(c)`, then add unless `JR` or a full table
forbids it, then `PREV <- c`, `JR <- 0`. -/
def knownEntry (c : Code) (s : State) : Result :=
  if s.jr = false ∧ s.n.toNat = 4096 ∧ s.cfg.fullTable = .fault then badCode c s
  else
    match seqOf s c.toNat, firstOf s c.toNat with
    | some q, some f =>
      if s.jr = false ∧ s.n.toNat < 4096 then
        match addAfterPrevious f (outPutAll q s) with
        | none => .fault .dictUndefined
        | some s' => .next (endDataCode c s')
      else .next (endDataCode c (outPutAll q s))
    | _, _ => .fault .dictUndefined

/-- `ExecKwKwK()` (R148): the new entry is `seq(PREV) ++ [first(PREV)]`, and it is what is emitted. -/
def notYetMaterialised (c : Code) (s : State) : Result :=
  if 4096 ≤ s.n.toNat then .fault .dictFull
  else
    match seqOf s s.prev.toNat, firstOf s s.prev.toNat with
    | some q, some f =>
      .next (endDataCode c (outPutAll (q ++ [f]) (decoderGrowth (dictAdd s.prev f f s))))
    | _, _ => .fault .dictUndefined

/-- `CLEAR_2` (R142). -/
def execClear2 (s : State) : Result := clearCodeTable s

/-- `EOI_2` (R143). -/
def execEoi2 (s : State) : Result := endOfInformation s

/-- `LITERAL_2` (R145): the code is the index itself. -/
def execLiteral2 (index : BitVec 2) (s : State) : Result := knownEntry (index.setWidth 12) s

/-- `CLEAR_3` (R142). -/
def execClear3 (s : State) : Result := clearCodeTable s

/-- `EOI_3` (R143). -/
def execEoi3 (s : State) : Result := endOfInformation s

/-- `LITERAL_3` (R145): the code is the index itself. -/
def execLiteral3 (index : BitVec 3) (s : State) : Result := knownEntry (index.setWidth 12) s

/-- `CLEAR_4` (R142). -/
def execClear4 (s : State) : Result := clearCodeTable s

/-- `EOI_4` (R143). -/
def execEoi4 (s : State) : Result := endOfInformation s

/-- `LITERAL_4` (R145): the code is the index itself. -/
def execLiteral4 (index : BitVec 4) (s : State) : Result := knownEntry (index.setWidth 12) s

/-- `CLEAR_5` (R142). -/
def execClear5 (s : State) : Result := clearCodeTable s

/-- `EOI_5` (R143). -/
def execEoi5 (s : State) : Result := endOfInformation s

/-- `LITERAL_5` (R145): the code is the index itself. -/
def execLiteral5 (index : BitVec 5) (s : State) : Result := knownEntry (index.setWidth 12) s

/-- `CLEAR_6` (R142). -/
def execClear6 (s : State) : Result := clearCodeTable s

/-- `EOI_6` (R143). -/
def execEoi6 (s : State) : Result := endOfInformation s

/-- `LITERAL_6` (R145): the code is the index itself. -/
def execLiteral6 (index : BitVec 6) (s : State) : Result := knownEntry (index.setWidth 12) s

/-- `CLEAR_7` (R142). -/
def execClear7 (s : State) : Result := clearCodeTable s

/-- `EOI_7` (R143). -/
def execEoi7 (s : State) : Result := endOfInformation s

/-- `LITERAL_7` (R145): the code is the index itself. -/
def execLiteral7 (index : BitVec 7) (s : State) : Result := knownEntry (index.setWidth 12) s

/-- `CLEAR_8` (R142). -/
def execClear8 (s : State) : Result := clearCodeTable s

/-- `EOI_8` (R143). -/
def execEoi8 (s : State) : Result := endOfInformation s

/-- `LITERAL_8` (R145): the code is the index itself. -/
def execLiteral8 (index : BitVec 8) (s : State) : Result := knownEntry (index.setWidth 12) s

/-- `LEARNED` (R146). -/
def execLearned (c : Code) (s : State) : Result := knownEntry c s

/-- `KWKWK` (R148). -/
def execKwkwk (c : Code) (s : State) : Result := notYetMaterialised c s

/-- `KWKWK_AFTER_RESET` (R149, D8). -/
def execKwkwkAfterReset (c : Code) (s : State) : Result := badCode c s

/-- `INVALID` (R150). -/
def execInvalid (c : Code) (s : State) : Result := badCode c s

end Sys2Proof.Machine
end

