-- ==== Sys2Proof/Machine/Dispatch.lean ====
section
/-! DEFINITION. Which meaning each instruction has. -/

namespace Sys2Proof.Machine

def exec (i : Instr) (s : State) : Host.Outcome State Fault Refusal :=
  match i with
  | .cmdAck ignored => Sys2Proof.Machine.execCmdAck ignored s
  | .cmdEncode ignored => Sys2Proof.Machine.execCmdEncode ignored s
  | .cmdDecode ignored => Sys2Proof.Machine.execCmdDecode ignored s
  | .cmdReserved ignored => Sys2Proof.Machine.execCmdReserved ignored s
  | .widthByte b => Sys2Proof.Machine.execWidthByte b s
  | .subblockTerm => Sys2Proof.Machine.execSubblockTerm s
  | .subblockLen len => Sys2Proof.Machine.execSubblockLen len s
  | .clear2 => Sys2Proof.Machine.execClear2 s
  | .eoi2 => Sys2Proof.Machine.execEoi2 s
  | .literal2 index => Sys2Proof.Machine.execLiteral2 index s
  | .clear3 => Sys2Proof.Machine.execClear3 s
  | .eoi3 => Sys2Proof.Machine.execEoi3 s
  | .literal3 index => Sys2Proof.Machine.execLiteral3 index s
  | .clear4 => Sys2Proof.Machine.execClear4 s
  | .eoi4 => Sys2Proof.Machine.execEoi4 s
  | .literal4 index => Sys2Proof.Machine.execLiteral4 index s
  | .clear5 => Sys2Proof.Machine.execClear5 s
  | .eoi5 => Sys2Proof.Machine.execEoi5 s
  | .literal5 index => Sys2Proof.Machine.execLiteral5 index s
  | .clear6 => Sys2Proof.Machine.execClear6 s
  | .eoi6 => Sys2Proof.Machine.execEoi6 s
  | .literal6 index => Sys2Proof.Machine.execLiteral6 index s
  | .clear7 => Sys2Proof.Machine.execClear7 s
  | .eoi7 => Sys2Proof.Machine.execEoi7 s
  | .literal7 index => Sys2Proof.Machine.execLiteral7 index s
  | .clear8 => Sys2Proof.Machine.execClear8 s
  | .eoi8 => Sys2Proof.Machine.execEoi8 s
  | .literal8 index => Sys2Proof.Machine.execLiteral8 index s
  | .learned code => Sys2Proof.Machine.execLearned code s
  | .kwkwk code => Sys2Proof.Machine.execKwkwk code s
  | .kwkwkAfterReset code => Sys2Proof.Machine.execKwkwkAfterReset code s
  | .invalid code => Sys2Proof.Machine.execInvalid code s

end Sys2Proof.Machine
end

