-- ==== Sys2Proof/Machine/Encoder.lean ====
section
/-! DEFINITION. The encoder's engine steps (44_encode_step.md, 45_orchestrator.md R182). They have no encoding of their
own: their operands are the index tokens. -/

namespace Sys2Proof.Machine

/-- `EncMiss(i)` (R164): emit the candidate, learn the extended candidate, restart from the newest index. -/
def encMiss (i : Byte) (s : State) : Result :=
  match firstOf s s.cand.toNat with
  | none => .fault .dictUndefined
  | some f =>
    .next { encoderGrowth (dictAdd s.cand i f (writeBits s.cand.toNat s.w.toNat s)) with cand := i.setWidth 12 }

/-- `EncMissFull(i)` (R165): emit the candidate, then Clear at the same width, reset, restart from the newest index. -/
def encMissFull (i : Byte) (s : State) : Result :=
  .next { dictReset (writeBits s.clearCode s.w.toNat (writeBits s.cand.toNat s.w.toNat s)) with cand := i.setWidth 12 }

/-- `EncodeIndex(i)` (R160 to R165). -/
def encodeIndex (i : Byte) (s : State) : Result :=
  if s.clearCode ≤ i.toNat then .next (raise .rangeIndex (i.setWidth 16) s)
  else if s.candV = false then .next { s with cand := i.setWidth 12, candV := true }
  else
    match dictFind s s.cand i with
    | some c => .next { s with cand := BitVec.ofNat 12 c }
    | none => if s.n.toNat < 4096 then encMiss i s else encMissFull i s

/-- The remaining candidate's code, where there is a candidate (R166). -/
def finalCandidate (s : State) : State := if s.candV then writeBits s.cand.toNat s.w.toNat s else s

/-- `WriteBits(EOI, W)` (R166). -/
def writeEoi (s : State) : State := writeBits s.eoiCode s.w.toNat s

/-- `EncodeFinish()` (R166): the remaining candidate, then `EOI` at its width, then `Flush()`. -/
def encodeFinish (s : State) : State := flush (writeEoi (finalGrowth (finalCandidate s)))

/-- The step at `OPK = ENC_INDEX` (R182); with no token it is not enabled (R181). -/
def encIndexStep (s : State) : Result :=
  match s.inq with
  | [] => .next s
  | .eof :: q => .next { s with inq := q, opk := .encFinish }
  | .byte i :: q => encodeIndex i { s with inq := q }

/-- The step at `OPK = ENC_FINISH` (R182): `DONE` only after `OutEnd()`. -/
def encFinishStep (s : State) : Result :=
  .next { outEnd (frameEnd (encodeFinish s)) with phase := .done }

end Sys2Proof.Machine
end

