-- ==== Sys2Proof/Machine/Engine.lean ====
section
/-! DEFINITION. What the next step does, up to the instruction it runs: the engine's scheduling (R193), the fetch of its
wire symbols and codes, the host's steps (R192), and placing a word where the next step fetches it. -/

namespace Sys2Proof.Machine

/-- What a step turns out to be. -/
inductive Fetched where
  /-- the step is complete without an instruction of the table -/
  | settled (r : Result)
  /-- the step runs this instruction in this state (the one after the fetch) -/
  | instr (i : Instr) (s : State)

/-- The instruction of a decoded word, or the refusal of a word that is none. -/
def Fetched.ofDecoded (d : Decoded) (s : State) : Fetched :=
  match d with
  | .instr i => .instr i s
  | .rejected r => .settled (.refused (.noInstruction r))

/-- The context a code is read in: `B`, `N` and `JR` when it has been read (R76). -/
def State.codeContext (s : State) : Context := .code s.b s.n s.jr

/-! ## The engine (R193) -/

/-- The step at `OPK = DEC_WIDTH` (R183): `InTake()`, then the width byte; `End` raises `IO_FAIL` (R206). -/
def fetchWidth (s : State) : Fetched :=
  match s.inq with
  | [] => .settled (.next s)
  | .eof :: q => .settled (.next (raise .ioFail 0 { s with inq := q }))
  | .byte v :: q => Fetched.ofDecoded (decode .width (.byte v)) { s with inq := q }

/-- The step at `OPK = DEC_CODES` (R140, R184): `ReadBits(W)`, then the code's class (R76). -/
def fetchCode (s : State) : Fetched :=
  match readBits s.w.toNat s with
  | .stall => .settled (.next s)
  | .raised s' => .settled (.next s')
  | .ok c s' => Fetched.ofDecoded (decode s'.codeContext (.code (BitVec.ofNat 12 c))) s'

/-- `EOP` in a drain (R185): the operation ends, well or in the held fault. -/
def endDrain (s : State) : State :=
  match s.pfault with
  | none => { outEnd s with phase := .done }
  | some _ => finishFault s

/-- `DrainStep()` (R185); with a token missing it is not enabled (R181). -/
def drainStep (s : State) : State :=
  match frameGet s with
  | .stall => s
  | .raised s' => s'
  | .ok none s' => endDrain s'
  | .ok (some _) s' => s'

/-- The engine's turn (R193): one candidate step while `PHASE = RUN`, none otherwise. -/
def fetchEngine (s : State) : Fetched :=
  match s.phase with
  | .idle => .settled (.next s)
  | .done => .settled (.next s)
  | .fault => .settled (.next s)
  | .run =>
    match s.opk with
    | .encIndex => .settled (encIndexStep s)
    | .encFinish => .settled (encFinishStep s)
    | .decWidth => fetchWidth s
    | .decCodes => fetchCode s
    | .decDrain => .settled (.next (drainStep s))

/-! ## The host (R192) -/

/-- An access the register block admits: 32 bits, at a multiple of 4, offset at most 0xFC (R42, R56, R192). -/
def accessOk (off size : Nat) : Bool := size == 4 && off % 4 == 0 && decide (off ≤ 0xFC)

/-- What a register read returns (R30 to R36, R42). `BASE` and `STATE` return a free value while `PHASE = RUN` (R36,
R218; log 9). -/
def readRegister (off : Nat) (s : State) : HostWord :=
  match off with
  | 0x04 => paletteWord s
  | 0x08 => statusWord s
  | 0x0C => errInfoWord s
  | 0x10 => if s.phase = .run then Config.busyRead off s.draws else baseWord s
  | 0x14 => if s.phase = .run then Config.busyRead off s.draws else stateWord s
  | _ => 0

/-- `MemRead(off, 4)` (R57): no side effect on the core; the value goes to the host (log 13), and the draw counter of the
free values advances (log 10). -/
def hostRead (off : Nat) (s : State) : State :=
  { s with readData := some (readRegister off s), draws := s.draws + 1 }

/-- `MemWrite(off, 4, v)` anywhere but `CTRL` (R32, R42, R57): `PALETTE` takes its low 9 bits, the rest are ignored. -/
def writeRegister (off : Nat) (v : HostWord) (s : State) : State :=
  match off with
  | 0x04 => { s with palette := v.extractLsb' 0 9 }
  | _ => s

/-- Power-on reset during operation (R230): every piece of state takes its reset value, but the dictionary RAM is not
cleared; the parameters, the host's own fields and the draw counter are no state of the core (log 19). -/
def powerOnReset (s : State) : State :=
  { State.reset with
    cfg := s.cfg
    mem := s.mem
    agenda := s.agenda
    readData := s.readData
    popData := s.popData
    draws := s.draws }

/-- One host step (R192, R230). A write of `CTRL` is a command, an instruction of the table. -/
def fetchHost (h : HostStep) (s : State) : Fetched :=
  match h with
  | .memWrite off size v =>
    if !accessOk off size then .settled (.refused .hostAccess)
    else if off = 0 then Fetched.ofDecoded (decode .ctrl (.cmd v)) s
    else .settled (.next (writeRegister off v s))
  | .memRead off size =>
    if !accessOk off size then .settled (.refused .hostAccess) else .settled (.next (hostRead off s))
  | .push t => .settled (.next { s with inq := s.inq ++ [t] })
  | .pop =>
    match s.outq with
    | [] => .settled (.refused .popEmpty)
    | x :: q => .settled (.next { s with outq := q, popData := some x })
  | .discard => if s.phase = .run then .settled (.refused .discardWhileRunning) else .settled (.next { s with inq := [] })
  | .powerOn => .settled (.next (powerOnReset s))

/-- What the next step does: the first turn of the agenda, or the engine's where none is listed (log 1). -/
def fetch (s : State) : Fetched :=
  match s.agenda with
  | [] => fetchEngine s
  | .engine :: rest => fetchEngine { s with agenda := rest }
  | .host h :: rest => fetchHost h { s with agenda := rest }

/-! ## Placing a word where the next step fetches it (logs 3 and 4) -/

/-- A running DECODE, its next turn the engine's, at the given stage. -/
def decodingAt (k : Opk) (s : State) : State :=
  { s with phase := .run, opk := k, agenda := .engine :: s.agenda }

/-- A width at which a placed code is read: the epoch's first width, or more where the code needs it. -/
def placedWidth (b : BitVec 4) (c : Nat) : Nat := max (b.toNat + 1) (bitlen c)

/-- A code as the next `W` bits of the unpacker, in the epoch the context names. -/
def placeCode (b : BitVec 4) (n : BitVec 13) (jr : Bool) (c : Nat) (s : State) : State :=
  { decodingAt .decCodes s with
    b := b
    n := n
    jr := jr
    w := BitVec.ofNat 4 (placedWidth b c)
    racc := bitsOf c (placedWidth b c) }

/-- The state in which the next step fetches the table word: a command as the host's next turn, a width byte and a length
byte as the next input token (a chunk's length followed by one chunk byte 0), a code as the next bits. -/
def placeTableWord (nbits w : Nat) (s : State) : State :=
  match tableContext nbits w with
  | .ctrl => { s with agenda := .host (.memWrite 0 4 (BitVec.ofNat 32 w)) :: s.agenda }
  | .width => { decodingAt .decWidth s with inq := .byte (BitVec.ofNat 8 w) :: s.inq }
  | .len =>
    { decodingAt .decDrain s with
      rem := 0
      pend := false
      inq := if w = 0 then .byte 0 :: s.inq else .byte (BitVec.ofNat 8 w) :: .byte 0 :: s.inq }
  | .code b n jr => placeCode b n jr w s

end Sys2Proof.Machine
end

