-- ==== Sys2Proof/Machine/Step.lean ====
section
/-! DEFINITION. One step of the machine: the next turn's step, run through exec where it is an instruction of the table. -/

namespace Sys2Proof.Machine

/-- One step: one rule application of the engine or one step of the host (R20, R192, R193). -/
def step (s : State) : Host.Outcome State Fault Refusal :=
  match fetch s with
  | .settled r => r
  | .instr i s' => exec i s'

/-- `s` with a table word stored where `step` fetches its next instruction (logs 3 and 4). -/
def State.withFetchWord (s : State) (nbits w : Nat) : State := placeTableWord nbits w s

end Sys2Proof.Machine
end

