-- ==== Sys2Proof/Safety.lean ====
section
/-! DEFINITION. What counts as a sound state, in the terms the claims use: the invariant of the decoder (R151), its mirror
for the encoder, and the relations and measures the whole-machine claims are about. -/

namespace Sys2Proof.Machine

/-- A valid data code: below `N`, and neither Clear nor EOI (R120, R151). -/
def State.dataCode (s : State) (c : Nat) : Prop := c < s.n.toNat ∧ c ≠ s.clearCode ∧ c ≠ s.eoiCode

/-- The dictionary of a running epoch (R22 to R24, R151): the ranges of `B`, `N` and `W`, and every learned entry of the
epoch held in the RAM, with a smaller data code as its prefix and the prefix's first index as its own. -/
structure DictOk (s : State) : Prop where
  /-- `2 ≤ b ≤ 8` (R22) -/
  base : 2 ≤ s.b.toNat ∧ s.b.toNat ≤ 8
  /-- `S0 ≤ N ≤ 4096` (R23, R129) -/
  size : s.firstLearned ≤ s.n.toNat ∧ s.n.toNat ≤ 4096
  /-- `b + 1 ≤ W ≤ 12` (R24) -/
  width : s.b.toNat + 1 ≤ s.w.toNat ∧ s.w.toNat ≤ 12
  /-- every learned entry (R37, R126) -/
  entries : ∀ c, s.firstLearned ≤ c → c < s.n.toNat →
    ∃ e, s.mem.read c = some e ∧ e.pfx.toNat < c ∧ s.dataCode e.pfx.toNat ∧ firstOf s e.pfx.toNat = some e.fst

/-- The registers before an operation has established `b` (R35, R232). -/
def NoBase (s : State) : Prop := s.b = 0 ∧ s.n = 0 ∧ s.w = 0 ∧ s.jr = false

/-- The decoder between two codes (R151), its width in the closed form of R78. -/
structure DecoderOk (s : State) : Prop where
  /-- the dictionary -/
  dict : DictOk s
  /-- `W = min(12, bitlen(N))`: R78 at the decoder's count -/
  closedWidth : s.w.toNat = min 12 (bitlen s.n.toNat)
  /-- `JR = 0`: `PREV` is a valid data code (R26, R151) -/
  prevValid : s.jr = false → s.dataCode s.prev.toNat
  /-- `JR = 1`: nothing has been learned in the epoch (R25) -/
  freshEpoch : s.jr = true → s.n.toNat = s.firstLearned

/-- The encoder between two indices: its width in the closed form of R78, its candidate a dictionary entry (R28), no two
entries with the same pair (R131). -/
structure EncoderOk (s : State) : Prop where
  /-- the dictionary -/
  dict : DictOk s
  /-- the base width is that of the latched palette size (R43, R180) -/
  basePalette : baseWidth s.pLat.toNat = some s.b.toNat
  /-- `W = min(12, bitlen(N - 1))`: R78 at the encoder's count -/
  closedWidth : s.w.toNat = min 12 (bitlen (s.n.toNat - 1))
  /-- the candidate is a valid data code (R28) -/
  candValid : s.candV = true → s.dataCode s.cand.toNat
  /-- no two learned entries have the same (prefix, suffix) pair (R131) -/
  unique : ∀ c d e f, s.firstLearned ≤ c → c < s.n.toNat → s.firstLearned ≤ d → d < s.n.toNat →
    s.mem.read c = some e → s.mem.read d = some f → e.pfx = f.pfx → e.sfx = f.sfx → c = d

/-- What holds at each stage of a running operation (R21). -/
def StageOk (s : State) : Prop :=
  match s.opk with
  | .encIndex => s.lastOp = 1 ∧ EncoderOk s
  | .encFinish => s.lastOp = 1 ∧ EncoderOk s
  | .decWidth => s.lastOp = 2 ∧ NoBase s ∧ s.rem = 0 ∧ s.pend = false ∧ s.racc = []
  | .decCodes => s.lastOp = 2 ∧ DecoderOk s
  | .decDrain => s.lastOp = 2 ∧ DictOk s

/-- The framer and packer registers between steps (R27, R29): at most 254 bytes in `CHUNK`, at most 7 bits in `WACC`, as
many as `WCUR mod 8`; fewer bits in `RACC` than the widest code; nothing left of a sub-block after the terminator. -/
structure BufferOk (s : State) : Prop where
  /-- `CLEN` never reaches 255 between steps (R101) -/
  chunk : s.chunk.length < 255
  /-- `WACC` never reaches 8 between steps (R110) -/
  wacc : s.wacc.length < 8
  /-- `WACC` holds the `WCUR mod 8` pending bits (R29) -/
  wcur : s.wcur % 8 = s.wacc.length
  /-- fewer than 12 bits wait in `RACC` (R27, R113) -/
  racc : s.racc.length < 12
  /-- `PEND = 1` only at a sub-block boundary (R105) -/
  pend : s.pend = true → s.rem = 0

/-- The fault latch (R38, R209, R186): a fault code exactly in `FAULT`, and a held fault only in a drain. -/
structure LatchOk (s : State) : Prop where
  /-- `ERR` is a fault code exactly while `PHASE = FAULT` (R33, R209) -/
  err : s.err ≠ .none ↔ s.phase = .fault
  /-- `EINFO` is 0 outside `FAULT` (R34) -/
  einfo : s.phase ≠ .fault → s.einfo = 0
  /-- a held fault is `BAD_CODE` or `OUT_OF_DATA`, in a drain (R186) -/
  held : ∀ c i, s.pfault = some (c, i) → s.phase = .run ∧ s.opk = .decDrain ∧ (c = .badCode ∨ c = .outOfData)

/-- The invariant of the machine: it holds after reset, every step keeps it, and no step of a state that has it stops at a
fault of the model. -/
structure Inv (s : State) : Prop where
  /-- the RAM has its canonical form -/
  ram : s.mem.wf = true
  /-- the dictionary registers are those of an epoch, or zero -/
  dict : NoBase s ∨ DictOk s
  /-- the stage of a running operation -/
  stage : s.phase = .run → StageOk s
  /-- the framer and packer registers -/
  buffers : BufferOk s
  /-- the fault latch -/
  latch : LatchOk s

/-- Two states alike but for the RAM slots that no rule may read: those outside `S0 ≤ c < N` (R125). -/
def SameButStale (s t : State) : Prop :=
  t = { s with mem := t.mem } ∧ ∀ c, s.firstLearned ≤ c → c < s.n.toNat → s.mem.read c = t.mem.read c

/-- A bound on the engine steps a running operation has left on the input it holds (R242): every input token is at most 8
bits, a code takes at least one. -/
def workLeft (s : State) : Nat :=
  match s.phase with
  | .idle => 0
  | .done => 0
  | .fault => 0
  | .run =>
    match s.opk with
    | .encIndex => s.inq.length + 2
    | .encFinish => 1
    | .decWidth => 8 * s.inq.length + 3
    | .decCodes => 8 * s.inq.length + s.racc.length + 2
    | .decDrain => 8 * s.inq.length + 1

/-- The payload bits of a list of bytes, bit 0 of the first byte first (R52). -/
def payloadBits (bs : List Byte) : List Bool := bs.flatMap (fun v => bitsOf v.toNat 8)

/-- The code-stream bits written and not yet output (R29): those of `CHUNK`, then `WACC`. -/
def pendingBits (s : State) : List Bool := payloadBits s.chunk ++ s.wacc

/-- The next turn is the engine's: the agenda is empty or begins with an engine turn. -/
def State.engineTurn (s : State) : Prop := ∀ h rest, s.agenda ≠ .host h :: rest

/-- The state once the turn has been taken from the agenda. -/
def State.afterTurn (s : State) : State := { s with agenda := s.agenda.tail }

/-- The classes of a code (R76). -/
inductive CodeClass where
  /-- `CLEAR` -/
  | clear
  /-- `EOI` -/
  | eoi
  /-- `LITERAL` -/
  | literal
  /-- `LEARNED` -/
  | learned
  /-- `KWKWK` -/
  | kwkwk
  /-- `KWKWK_AFTER_RESET` -/
  | kwkwkAfterReset
  /-- `INVALID` -/
  | invalid
deriving DecidableEq, Repr

/-- The class of a code by the tests of R76, in their order. -/
def codeClassAt (b n : Nat) (jr : Bool) (c : Nat) : CodeClass :=
  if c = 2 ^ b then .clear
  else if c = 2 ^ b + 1 then .eoi
  else if c < 2 ^ b then .literal
  else if c < n then .learned
  else if c = n then (if jr then .kwkwkAfterReset else .kwkwk)
  else .invalid

/-- What a known data code with first index `f` does to the dictionary (R144): nothing where `JR = 1` or the table is
full; else slot `N` takes `(PREV, f, first(PREV))`, `N` rises by one, and `W` by one where the new `N` reaches `2^W`. -/
def DecoderAdds (f : Byte) (s t : State) : Prop :=
  if s.jr = true ∨ s.n.toNat = 4096 then t.n = s.n ∧ t.w = s.w ∧ ∀ c, t.mem.read c = s.mem.read c
  else
    t.n.toNat = s.n.toNat + 1 ∧
    t.w.toNat = (if 2 ^ s.w.toNat ≤ s.n.toNat + 1 ∧ s.w.toNat < 12 then s.w.toNat + 1 else s.w.toNat) ∧
    (∃ g, firstOf s s.prev.toNat = some g ∧ t.mem.read s.n.toNat = some { pfx := s.prev, sfx := f, fst := g }) ∧
    ∀ c, c ≠ s.n.toNat → t.mem.read c = s.mem.read c

/-- Write codes with their widths, in order (R116). -/
def writeCodes : List (Nat × Nat) → State → State
  | [], s => s
  | (v, w) :: cs, s => writeCodes cs (writeBits v w s)

/-- Read codes with the given widths, in order (R116). -/
def readCodes : List Nat → State → Flow (List Nat)
  | [], s => .ok [] s
  | w :: ws, s =>
    match readBits w s with
    | .stall => .stall
    | .raised s' => .raised s'
    | .ok v s' =>
      match readCodes ws s' with
      | .stall => .stall
      | .raised s'' => .raised s''
      | .ok vs s'' => .ok (v :: vs) s''

/-- `t` is `s` after `bits` have been appended to the code stream (R27, R101, R110): whole chunks of 255 bytes went out, each
after its length byte, and what went out and what is still pending are what was pending and the new bits. -/
def StreamGains (bits : List Bool) (s t : State) : Prop :=
  ∃ cs : List (List Byte), (∀ c ∈ cs, c.length = 255) ∧
    t.outq = s.outq ++ (cs.flatMap (fun c => 255#8 :: c)).map OutItem.byte ∧
    payloadBits cs.flatten ++ pendingBits t = pendingBits s ++ bits ∧
    t.wcur = s.wcur + bits.length ∧ t.chunk.length < 255 ∧ t.wacc.length < 8

/-- What ends the payload bytes that are at hand. -/
inductive Cutoff where
  /-- the terminator (R102); the tokens behind it -/
  | terminator (rest : List Token)
  /-- an `End` before the terminator (R103); the tokens behind it -/
  | endToken (rest : List Token)
  /-- the tokens run out (R181) -/
  | waiting
deriving DecidableEq, Repr

/-- The payload bytes among the tokens at hand, up to the terminator, an `End` or the last token, and which of them ends
them (R102, R103, R181). `n` chunk bytes of the current sub-block are still to come. -/
def arriving : Nat → List Token → List Byte × Cutoff
  | _, [] => ([], .waiting)
  | _, .eof :: q => ([], .endToken q)
  | 0, .byte v :: q => if v = 0 then ([], .terminator q) else arriving v.toNat q
  | n + 1, .byte v :: q => (v :: (arriving n q).1, (arriving n q).2)

/-- What the decoder-side framer will find: the bytes at hand and what ends them (R105). -/
def State.arriving (s : State) : List Byte × Cutoff := Sys2Proof.Machine.arriving s.rem.toNat s.inq

/-- The payload bits the decoder has still to read (R52, R102): those of `RACC`, then those of the chunk bytes to come; none
where the tokens at hand do not reach the terminator. -/
def payloadAhead (s : State) : Option (List Bool) :=
  if s.pend then some s.racc
  else
    match deframe s.rem.toNat s.inq with
    | none => none
    | some (p, _) => some (s.racc ++ payloadBits p)

/-- `k` steps, ending at the first stop. -/
def runSteps : Nat → State → Result
  | 0, s => .next s
  | k + 1, s =>
    match step s with
    | .next t => runSteps k t
    | .fault f => .fault f
    | .refused r => .refused r

/-- A data code that would need an entry while the table is full (R147). -/
def State.tableFull (s : State) : Prop := s.jr = false ∧ s.n.toNat = 4096

/-- The engine's next turn takes the index `i` (R182). -/
def State.takesIndex (s : State) (i : Byte) (q : List Token) : Prop :=
  s.engineTurn ∧ s.phase = .run ∧ s.opk = .encIndex ∧ s.inq = .byte i :: q

/-- The host keeps the precondition of its step (R56, R192). -/
def HostStep.admitted (s : State) : HostStep → Prop
  | .memWrite off size _ => size = 4 ∧ off % 4 = 0 ∧ off ≤ 0xFC
  | .memRead off size => size = 4 ∧ off % 4 = 0 ∧ off ≤ 0xFC
  | .push _ => True
  | .pop => s.outq ≠ []
  | .discard => s.phase ≠ .run
  | .powerOn => True

end Sys2Proof.Machine

namespace Sys2Proof

/-- The class and the base width of a code instruction's row: the base width where the row has one. -/
def Instr.codeClass : Instr → Option (Machine.CodeClass × Option Nat)
  | .clear2 => some (.clear, some 2)
  | .clear3 => some (.clear, some 3)
  | .clear4 => some (.clear, some 4)
  | .clear5 => some (.clear, some 5)
  | .clear6 => some (.clear, some 6)
  | .clear7 => some (.clear, some 7)
  | .clear8 => some (.clear, some 8)
  | .eoi2 => some (.eoi, some 2)
  | .eoi3 => some (.eoi, some 3)
  | .eoi4 => some (.eoi, some 4)
  | .eoi5 => some (.eoi, some 5)
  | .eoi6 => some (.eoi, some 6)
  | .eoi7 => some (.eoi, some 7)
  | .eoi8 => some (.eoi, some 8)
  | .literal2 _ => some (.literal, some 2)
  | .literal3 _ => some (.literal, some 3)
  | .literal4 _ => some (.literal, some 4)
  | .literal5 _ => some (.literal, some 5)
  | .literal6 _ => some (.literal, some 6)
  | .literal7 _ => some (.literal, some 7)
  | .literal8 _ => some (.literal, some 8)
  | .learned _ => some (.learned, none)
  | .kwkwk _ => some (.kwkwk, none)
  | .kwkwkAfterReset _ => some (.kwkwkAfterReset, none)
  | .invalid _ => some (.invalid, none)
  | .cmdAck _ => none
  | .cmdEncode _ => none
  | .cmdDecode _ => none
  | .cmdReserved _ => none
  | .widthByte _ => none
  | .subblockTerm => none
  | .subblockLen _ => none

/-- The base width of a literal's row and its index (R145). -/
def Instr.literal : Instr → Option (Nat × Byte)
  | .literal2 x => some (2, x.setWidth 8)
  | .literal3 x => some (3, x.setWidth 8)
  | .literal4 x => some (4, x.setWidth 8)
  | .literal5 x => some (5, x.setWidth 8)
  | .literal6 x => some (6, x.setWidth 8)
  | .literal7 x => some (7, x.setWidth 8)
  | .literal8 x => some (8, x)
  | .cmdAck _ => none
  | .cmdEncode _ => none
  | .cmdDecode _ => none
  | .cmdReserved _ => none
  | .widthByte _ => none
  | .subblockTerm => none
  | .subblockLen _ => none
  | .clear2 => none
  | .eoi2 => none
  | .clear3 => none
  | .eoi3 => none
  | .clear4 => none
  | .eoi4 => none
  | .clear5 => none
  | .eoi5 => none
  | .clear6 => none
  | .eoi6 => none
  | .clear7 => none
  | .eoi7 => none
  | .clear8 => none
  | .eoi8 => none
  | .learned _ => none
  | .kwkwk _ => none
  | .kwkwkAfterReset _ => none
  | .invalid _ => none

/-- The data code of a literal or learned code at the state's base width (R144). -/
def Instr.knownCode (s : Machine.State) (i : Instr) (c : Code) : Prop :=
  (∃ x, i.literal = some (s.b.toNat, x) ∧ c = x.setWidth 12) ∨
    (i = .learned c ∧ s.firstLearned ≤ c.toNat ∧ c.toNat < s.n.toNat)

end Sys2Proof
end

