-- ==== Sys2Proof/Certificates/Slice0/Obligations.lean ====
section
/-! DEFINITION. The statements for the provers. Each docstring names the rule of spec/ it formalises; the free values of the
model (logs 6, 7 and 9) are left open in all of them. -/

open Sys2Proof Sys2Proof.Machine

/-! ## Encoding -/

/-- Words written out bit by bit from the encodings of R71 to R74 and R83 decode to the instruction they stand for. -/
def Obligations.WrittenOutWordsDecode : Prop :=
  decode .ctrl (.cmd 0b00000000000000000000000000000010#32) = .instr (.cmdDecode 0) ∧
  decode .ctrl (.cmd 0b11111111111111111111111111111101#32) = .instr (.cmdEncode 0x3FFFFFFF) ∧
  decode .width (.byte 0b00001000#8) = .instr (.widthByte 8) ∧
  decode .len (.byte 0b00000000#8) = .instr .subblockTerm ∧
  decode .len (.byte 0b11111111#8) = .instr (.subblockLen 255) ∧
  decode (.code 2 6 true) (.code 0b000000000100#12) = .instr .clear2 ∧
  decode (.code 8 258 true) (.code 0b000100000001#12) = .instr .eoi8 ∧
  decode (.code 2 6 false) (.code 0b000000000011#12) = .instr (.literal2 3) ∧
  decode (.code 2 9 false) (.code 0b000000001000#12) = .instr (.learned 8) ∧
  decode (.code 2 9 false) (.code 0b000000001001#12) = .instr (.kwkwk 9) ∧
  decode (.code 2 6 true) (.code 0b000000000110#12) = .instr (.kwkwkAfterReset 6) ∧
  decode (.code 2 6 false) (.code 0b000000000111#12) = .instr (.invalid 7)

/-- R71 to R76, R83: every well-formed instruction, standing where its row says, is what its own word decodes to, with every
operand at every value the encoding admits. -/
def Obligations.DecodeEncodeAgree : Prop :=
  ∀ (ctx : Context) (i : Instr), i.wellFormed = true → i.condition ctx = true → decode ctx (encode i) = .instr i

/-- The other direction: what a word decodes to is well formed, stands where its row says, and its own word is that word, so
that no bit of it is dropped. -/
def Obligations.EncodeDecodeAgree : Prop :=
  ∀ (ctx : Context) (w : WireWord) (i : Instr), decode ctx w = .instr i →
    i.wellFormed = true ∧ i.condition ctx = true ∧ encode i = w

/-- R76: every code is classified by the seven tests in their order, at the base width of the state. -/
def Obligations.CodeClassesInOrder : Prop :=
  ∀ (b : BitVec 4) (n : BitVec 13) (jr : Bool) (c : Code), 2 ≤ b.toNat → b.toNat ≤ 8 →
    ∃ i, decode (.code b n jr) (.code c) = .instr i ∧
      (i.codeClass = some (codeClassAt b.toNat n.toNat jr c.toNat, some b.toNat) ∨
        i.codeClass = some (codeClassAt b.toNat n.toNat jr c.toNat, none))

/-- R83 and the table: a code is in `CLEAR_b`, `EOI_b` or `LITERAL_b` exactly when `(code & mask) = match`, with the masks
`0xFFF`, `0xFFF` and the bits from `b` up. -/
def Obligations.TableMasksMatch : Prop :=
  ∀ (b : BitVec 4) (n : BitVec 13) (jr : Bool) (c : Code), 2 ≤ b.toNat → b.toNat ≤ 8 →
    ((∃ i, decode (.code b n jr) (.code c) = .instr i ∧ i.codeClass = some (.clear, some b.toNat)) ↔
      c &&& 0xFFF#12 = BitVec.ofNat 12 (2 ^ b.toNat)) ∧
    ((∃ i, decode (.code b n jr) (.code c) = .instr i ∧ i.codeClass = some (.eoi, some b.toNat)) ↔
      c &&& 0xFFF#12 = BitVec.ofNat 12 (2 ^ b.toNat + 1)) ∧
    ((∃ i, decode (.code b n jr) (.code c) = .instr i ∧ i.codeClass = some (.literal, some b.toNat)) ↔
      c &&& BitVec.ofNat 12 (4096 - 2 ^ b.toNat) = 0#12)

/-! ## The step -/

/-- A step runs the decoded instruction: a command of the host's turn, the width byte, a code read with `ReadBits(W)`, and a
length byte, whose step goes on with the drain (R140, R183, R184, R185, R192, R193). Where `ReadBits(W)` raises a fault, the
step ends with its entry and no code runs (R114, R203). That the order of the turns stands in the agenda is the model's choice
(log 1). -/
def Obligations.StepRunsDecodedInstruction : Prop :=
  (∀ (s : State) (v : HostWord) (rest : List Turn) (i : Instr),
    s.agenda = .host (.memWrite 0 4 v) :: rest → decode .ctrl (.cmd v) = .instr i → step s = exec i s.afterTurn) ∧
  (∀ (s : State) (v : Byte) (q : List Token) (i : Instr), s.engineTurn → s.phase = .run → s.opk = .decWidth →
    s.inq = .byte v :: q → decode .width (.byte v) = .instr i → step s = exec i { s.afterTurn with inq := q }) ∧
  (∀ (s s' : State) (c : Nat) (i : Instr), s.engineTurn → s.phase = .run → s.opk = .decCodes →
    readBits s.w.toNat s.afterTurn = .ok c s' → decode (.code s'.b s'.n s'.jr) (.code (BitVec.ofNat 12 c)) = .instr i →
    step s = exec i s') ∧
  (∀ s s' : State, s.engineTurn → s.phase = .run → s.opk = .decCodes →
    readBits s.w.toNat s.afterTurn = .raised s' → step s = .next s') ∧
  (∀ (s : State) (v : Byte) (q : List Token) (i : Instr), s.engineTurn → s.phase = .run → s.opk = .decDrain →
    s.pend = false → s.rem = 0 → s.inq = .byte v :: q → decode .len (.byte v) = .instr i →
    ∃ t, exec i { s.afterTurn with inq := q } = .next t ∧
      (v = 0 → step s = .next (endDrain t)) ∧
      (∀ u q', v ≠ 0 → q = .byte u :: q' → step s = .next { t with inq := q', rem := t.rem - 1 }))

/-- R193, R219: while `PHASE ≠ RUN` the engine has no step. That an engine turn then answers the same state but for the turn it
uses up is the model's choice (log 1). -/
def Obligations.EngineIdleOutsideRun : Prop :=
  ∀ s : State, s.engineTurn → s.phase ≠ .run → step s = .next s.afterTurn

/-- R181: an engine step that needs more tokens than `INQ` holds leaves the state as it was and takes none of them: no token
for an index or a width byte, none or a length byte alone in a drain, fewer payload bits than the code needs. The last two
clauses say the same by what `FrameGet` and `ReadBits(W)` answer. That a step which is not enabled changes nothing but the turn
is the model's reading (logs 1 and 2). -/
def Obligations.MissingTokenStalls : Prop :=
  ∀ s : State, s.engineTurn → s.phase = .run →
    (s.opk = .encIndex ∨ s.opk = .decWidth → s.inq = [] → step s = .next s.afterTurn) ∧
    (s.opk = .decDrain → s.pend = false → s.arriving = ([], .waiting) → step s = .next s.afterTurn) ∧
    (∀ p, s.opk = .decCodes → s.pend = false → s.arriving = (p, .waiting) →
      s.racc.length + 8 * p.length < s.w.toNat → step s = .next s.afterTurn) ∧
    (s.opk = .decDrain → frameGet s.afterTurn = .stall → step s = .next s.afterTurn) ∧
    (s.opk = .decCodes → readBits s.w.toNat s.afterTurn = .stall → step s = .next s.afterTurn)

/-! ## Commands -/

/-- R191: a command written while an operation runs changes nothing, and no host step but power-on reset ends the run. -/
def Obligations.CommandIgnoredWhileRunning : Prop :=
  (∀ (s : State) (w : BitVec 30), s.phase = .run →
    exec (.cmdAck w) s = .next s ∧ exec (.cmdEncode w) s = .next s ∧ exec (.cmdDecode w) s = .next s ∧
      exec (.cmdReserved w) s = .next s) ∧
  (∀ (s t : State) (h : HostStep) (rest : List Turn), s.phase = .run → s.agenda = .host h :: rest → h ≠ .powerOn →
    step s = .next t → t.phase = .run ∧ t.opk = s.opk)

/-- R189: `ACK` leaves `DONE` and `FAULT`, clears `ERR` and `EINFO`, and changes nothing else; in `IDLE` it has no effect. -/
def Obligations.AckReturnsToIdle : Prop :=
  ∀ (s : State) (w : BitVec 30), s.phase ≠ .run →
    (s.phase = .idle → exec (.cmdAck w) s = .next s) ∧
    (s.phase ≠ .idle → exec (.cmdAck w) s = .next { s with phase := .idle, err := .none, einfo := 0 })

/-- R180, R134, R167, R204: what `ENCODE` does in its one step, with a legal palette size and with an illegal one. The base
width is the least one of 2 to 8 that holds the palette. -/
def Obligations.EncodeCommandStarts : Prop :=
  ∀ (s : State) (w : BitVec 30), s.phase ≠ .run →
    ∃ t, exec (.cmdEncode w) s = .next t ∧
      t.lastOp = 1 ∧ t.pLat = s.palette ∧ t.pfault = none ∧ t.rcur = 0 ∧ t.candV = false ∧ t.rem = 0 ∧ t.pend = false ∧
      t.racc = [] ∧ t.cfg = s.cfg ∧ t.palette = s.palette ∧ t.mem = s.mem ∧ t.inq = s.inq ∧ t.agenda = s.agenda ∧
      t.readData = s.readData ∧ t.popData = s.popData ∧
      (1 ≤ s.palette.toNat → s.palette.toNat ≤ 256 →
        ∃ b, 2 ≤ b ∧ b ≤ 8 ∧ s.palette.toNat ≤ 2 ^ b ∧ (b = 2 ∨ 2 ^ (b - 1) < s.palette.toNat) ∧
          t.phase = .run ∧ t.opk = .encIndex ∧ t.err = .none ∧ t.einfo = 0 ∧
          t.b.toNat = b ∧ t.n.toNat = 2 ^ b + 2 ∧ t.w.toNat = b + 1 ∧ t.jr = true ∧
          t.outq = s.outq ++ [.byte (BitVec.ofNat 8 b)] ∧
          pendingBits t = (if s.cfg.leadingClear then bitsOf (2 ^ b) (b + 1) else []) ∧
          t.wcur = (pendingBits t).length) ∧
      (s.palette.toNat = 0 ∨ 256 < s.palette.toNat →
        t.phase = .fault ∧ t.err = .rangePalette ∧ t.einfo = s.palette.setWidth 16 ∧
          t.b = 0 ∧ t.n = 0 ∧ t.w = 0 ∧ t.jr = false ∧ t.prev = s.prev ∧ t.outq = s.outq ∧ t.chunk = [] ∧ t.wacc = [] ∧
          t.wcur = 0)

/-- R183, R232: the command half of `DECODE`. Only `CAND`, which then holds no specified value, is left open. -/
def Obligations.DecodeCommandStarts : Prop :=
  ∀ (s : State) (w : BitVec 30), s.phase ≠ .run →
    ∃ t, exec (.cmdDecode w) s = .next t ∧
      t = { s with
        phase := .run, opk := .decWidth, lastOp := 2, err := .none, einfo := 0, pfault := none
        b := 0, n := 0, w := 0, jr := false, rcur := 0, wcur := 0, candV := false, chunk := [], wacc := []
        rem := 0, pend := false, racc := [], cand := t.cand, draws := t.draws }

/-- R190, R207: the reserved command is the fault entry of `ILLEGAL_CMD`, in one step and with nothing else changed. -/
def Obligations.ReservedCommandFaults : Prop :=
  ∀ (s : State) (w : BitVec 30), s.phase ≠ .run →
    exec (.cmdReserved w) s =
      .next { s with lastOp := 3, err := .illegalCmd, einfo := 0, pfault := none, phase := .fault }

/-- R232, R196, R31: no state passes from one operation to the next, and the ignored bits of the command are ignored. Two
states with the same palette and parameters start an operation alike, whatever else they hold; what the new operation
outputs at once is the same. -/
def Obligations.OperationForgetsThePast : Prop :=
  ∀ (s₁ s₂ : State) (w₁ w₂ : BitVec 30), s₁.phase ≠ .run → s₂.phase ≠ .run → s₁.palette = s₂.palette →
    s₁.cfg = s₂.cfg → s₁.draws = s₂.draws →
    (∃ t₁ t₂, exec (.cmdDecode w₁) s₁ = .next t₁ ∧ exec (.cmdDecode w₂) s₂ = .next t₂ ∧
      t₁.outq = s₁.outq ∧ t₂ = { t₁ with
        prev := s₂.prev, pLat := s₂.pLat, mem := s₂.mem, inq := s₂.inq, outq := s₂.outq, agenda := s₂.agenda
        readData := s₂.readData, popData := s₂.popData }) ∧
    (∃ t₁ t₂ out, exec (.cmdEncode w₁) s₁ = .next t₁ ∧ exec (.cmdEncode w₂) s₂ = .next t₂ ∧
      t₁.outq = s₁.outq ++ out ∧ t₂ = { t₁ with
        opk := t₂.opk, prev := t₂.prev, mem := s₂.mem, inq := s₂.inq, outq := s₂.outq ++ out, agenda := s₂.agenda
        readData := s₂.readData, popData := s₂.popData } ∧
      (t₁.phase = .run → t₂.opk = t₁.opk ∧ t₂.prev = t₁.prev))

/-! ## The wire: width byte and sub-blocks -/

/-- R183, R124: a width byte of 2 to 8 sets `B`, resets the dictionary and starts the code loop; nothing else changes. -/
def Obligations.WidthByteAccepted : Prop :=
  ∀ (s : State) (v : Byte), 2 ≤ v.toNat → v.toNat ≤ 8 →
    ∃ t, exec (.widthByte v) s = .next t ∧
      t.b.toNat = v.toNat ∧ t.n.toNat = 2 ^ v.toNat + 2 ∧ t.w.toNat = v.toNat + 1 ∧ t.jr = true ∧ t.opk = .decCodes ∧
      t = { s with
        b := t.b, n := t.n, w := t.w, jr := t.jr, opk := t.opk, prev := t.prev, draws := t.draws }

/-- R201: a width byte outside 2 to 8 raises `BAD_WIDTH` with the byte as information; its step consumes that byte only and
outputs nothing. -/
def Obligations.WidthByteRejected : Prop :=
  ∀ (s : State) (v : Byte) (q : List Token), s.engineTurn → s.phase = .run → s.opk = .decWidth →
    s.inq = .byte v :: q → (v.toNat < 2 ∨ 8 < v.toNat) →
    step s = .next { s.afterTurn with
      inq := q, err := .badWidth, einfo := v.setWidth 16, pfault := none, phase := .fault }

/-- R72, R102, R105: what the two rows of a length byte do. -/
def Obligations.LengthBytesExecute : Prop :=
  ∀ (s : State) (v : Byte),
    exec .subblockTerm s = .next { s with pend := true } ∧ exec (.subblockLen v) s = .next { s with rem := v }

/-- R105, R103: every case of `FrameGet()`. -/
def Obligations.FrameGetCases : Prop :=
  ∀ (s : State) (u v : Byte) (q : List Token),
    (s.pend = true → frameGet s = .ok none s) ∧
    (s.pend = false → s.rem = 0 → s.inq = .byte 0 :: q → frameGet s = .ok none { s with inq := q, pend := true }) ∧
    (s.pend = false → s.rem = 0 → v ≠ 0 → s.inq = .byte v :: .byte u :: q →
      frameGet s = .ok (some u) { s with inq := q, rem := v - 1 }) ∧
    (s.pend = false → s.rem ≠ 0 → s.inq = .byte u :: q →
      frameGet s = .ok (some u) { s with inq := q, rem := s.rem - 1 }) ∧
    (s.pend = false → s.inq = .eof :: q → frameGet s = .raised (raise .ioFail 0 { s with inq := q })) ∧
    (s.pend = false → s.rem = 0 → v ≠ 0 → s.inq = .byte v :: .eof :: q →
      frameGet s = .raised (raise .ioFail 0 { s with inq := q, rem := v }))

/-- R107: deframing the tokens of `Frame(P)` gives `P` and consumes all of them. -/
def Obligations.FrameRoundTrip : Prop :=
  ∀ (p : List Byte) (rest : List Token), deframe 0 ((frame p).map Token.byte ++ rest) = some (p, rest)

/-- R100, R101, R104: framing a payload byte by byte from an empty buffer outputs `Frame(P)`, and nothing else changes. -/
def Obligations.StreamedFramingIsFrame : Prop :=
  ∀ (s : State) (p : List Byte), s.chunk = [] →
    frameEnd (p.foldl (fun t v => framePut v t) s) = { s with outq := s.outq ++ (frame p).map OutItem.byte }

/-! ## The bit packer -/

/-- R113, R75, R114, R103, R181: `ReadBits(w)` takes the next `w` payload bits as an unsigned value, least significant bit
first, across bytes and sub-blocks, as soon as they are at hand. With fewer before the terminator it raises `OUT_OF_DATA`, and
no bit is consumed; with fewer before an `End` it raises `IO_FAIL` behind it; with fewer before the tokens run out it waits. -/
def Obligations.ReadBitsTakesNextBits : Prop :=
  ∀ (s : State) (w : Nat),
    (∀ bs : List Bool, payloadAhead s = some bs →
      (w ≤ bs.length → ∃ t, readBits w s = .ok (ofBits (bs.take w)) t ∧ payloadAhead t = some (bs.drop w) ∧
        t.rcur = s.rcur + w ∧ t = { s with inq := t.inq, rem := t.rem, pend := t.pend, racc := t.racc, rcur := t.rcur }) ∧
      (bs.length < w → ∃ t, readBits w s = .raised (raise .outOfData 0 t) ∧ t.pend = true ∧ payloadAhead t = some bs ∧
        t = { s with inq := t.inq, rem := t.rem, pend := t.pend, racc := t.racc })) ∧
    (∀ p c, s.pend = false → s.arriving = (p, c) →
      (w ≤ s.racc.length + 8 * p.length → ∃ t p', readBits w s = .ok (ofBits ((s.racc ++ payloadBits p).take w)) t ∧
        t.arriving = (p', c) ∧ t.racc ++ payloadBits p' = (s.racc ++ payloadBits p).drop w ∧ t.rcur = s.rcur + w ∧
        t = { s with inq := t.inq, rem := t.rem, racc := t.racc, rcur := t.rcur }) ∧
      (s.racc.length + 8 * p.length < w →
        (∀ q, c = .endToken q →
          ∃ r a, readBits w s = .raised (raise .ioFail 0 { s with inq := q, rem := r, racc := a })) ∧
        (c = .waiting → readBits w s = .stall)))

/-- R116, R110, R111, R113: codes written with their widths, flushed, framed, and read back with the same widths are the
codes written; the payload holds their bits and at most 7 padding bits, all zero. -/
def Obligations.PackerRoundTrip : Prop :=
  ∀ (s r : State) (cs : List (Nat × Nat)) (rest : List Token),
    s.chunk = [] → s.wacc = [] → s.wcur = 0 → (∀ c ∈ cs, c.1 < 2 ^ c.2) →
    ∃ p pad, (frameEnd (flush (writeCodes cs s))).outq = s.outq ++ (frame p).map OutItem.byte ∧
      payloadBits p = cs.flatMap (fun c => bitsOf c.1 c.2) ++ List.replicate pad false ∧ pad < 8 ∧
      (r.pend = false → r.rem = 0 → r.racc = [] → r.inq = (frame p).map Token.byte ++ rest →
        ∃ r', readCodes (cs.map Prod.snd) r = .ok (cs.map Prod.fst) r')

/-! ## Codes -/

/-- R142: every `CLEAR_b` sets `N` to `2^b + 2`, `W` to `b + 1` and `JR`, and changes nothing else; `PREV` then holds no
specified value and is left open. -/
def Obligations.ClearResetsTheDictionary : Prop :=
  ∀ (i : Instr) (k : Nat), (i, k) ∈ [(Instr.clear2, 2), (Instr.clear3, 3), (Instr.clear4, 4), (Instr.clear5, 5),
      (Instr.clear6, 6), (Instr.clear7, 7), (Instr.clear8, 8)] →
    ∀ s : State, s.b.toNat = k →
      ∃ t, exec i s = .next t ∧ t.n.toNat = 2 ^ k + 2 ∧ t.w.toNat = k + 1 ∧ t.jr = true ∧
        t = { s with n := t.n, w := t.w, jr := t.jr, prev := t.prev, draws := t.draws }

/-- R143: every `EOI_b` starts the drain and changes nothing else. -/
def Obligations.EoiStartsTheDrain : Prop :=
  ∀ i : Instr, i ∈ [Instr.eoi2, Instr.eoi3, Instr.eoi4, Instr.eoi5, Instr.eoi6, Instr.eoi7, Instr.eoi8] →
    ∀ s : State, exec i s = .next { s with opk := .decDrain }

/-- R145, R144: every `LITERAL_b` outputs its index, adds the entry that R144 gives, and becomes `PREV`; nothing else
changes. -/
def Obligations.LiteralExecutes : Prop :=
  ∀ (s : State) (i : Instr) (x : Byte), DecoderOk s → i.literal = some (s.b.toNat, x) →
    ¬ (s.tableFull ∧ s.cfg.fullTable = .fault) →
    ∃ t, exec i s = .next t ∧ t.outq = s.outq ++ [.byte x] ∧ DecoderAdds x s t ∧
      t.prev = x.setWidth 12 ∧ t.jr = false ∧
      t = { s with n := t.n, w := t.w, jr := t.jr, prev := t.prev, mem := t.mem, outq := t.outq }

/-- R146, R144: `LEARNED` outputs the sequence of its code, adds the entry that R144 gives, and becomes `PREV`; nothing else
changes. -/
def Obligations.LearnedExecutes : Prop :=
  ∀ (s : State) (c : Code), DecoderOk s → s.firstLearned ≤ c.toNat → c.toNat < s.n.toNat →
    ¬ (s.tableFull ∧ s.cfg.fullTable = .fault) →
    ∃ f q t, seqOf s c.toNat = some (f :: q) ∧ exec (.learned c) s = .next t ∧
      t.outq = s.outq ++ (f :: q).map OutItem.byte ∧ DecoderAdds f s t ∧ t.prev = c ∧ t.jr = false ∧
      t = { s with n := t.n, w := t.w, jr := t.jr, prev := t.prev, mem := t.mem, outq := t.outq }

/-- R148: `KWKWK` adds `seq(PREV) ++ [first(PREV)]` as its own code and outputs it; nothing else changes. -/
def Obligations.KwkwkExecutes : Prop :=
  ∀ (s : State) (c : Code), DecoderOk s → s.jr = false → c.toNat = s.n.toNat →
    ∃ f q t, seqOf s s.prev.toNat = some (f :: q) ∧ exec (.kwkwk c) s = .next t ∧
      t.outq = s.outq ++ ((f :: q) ++ [f]).map OutItem.byte ∧ DecoderAdds f s t ∧
      t.mem.read c.toNat = some { pfx := s.prev, sfx := f, fst := f } ∧ seqOf t c.toNat = some ((f :: q) ++ [f]) ∧
      t.prev = c ∧ t.jr = false ∧
      t = { s with n := t.n, w := t.w, jr := t.jr, prev := t.prev, mem := t.mem, outq := t.outq }

/-- R147: a known data code at a full table. Under `TOLERATE` it is executed with no entry and no growth, `W` being 12; under
`FAULT` it raises `BAD_CODE` with the code as information, before any output. -/
def Obligations.FullTablePolicy : Prop :=
  ∀ (s : State) (i : Instr) (c : Code), DecoderOk s → s.tableFull → i.knownCode s c →
    s.w.toNat = 12 ∧
    (s.cfg.fullTable = .tolerate → ∃ q, seqOf s c.toNat = some q ∧
      exec i s = .next { s with outq := s.outq ++ q.map OutItem.byte, prev := c }) ∧
    (s.cfg.fullTable = .fault → s.phase = .run → s.opk = .decCodes →
      exec i s = .next { s with pfault := some (.badCode, c.setWidth 16), opk := .decDrain })

/-- R149, R150, R186: the two illegal classes raise `BAD_CODE` with the code as information, held for the drain. -/
def Obligations.IllegalCodesAreHeld : Prop :=
  ∀ (s : State) (c : Code), s.phase = .run → s.opk = .decCodes →
    exec (.kwkwkAfterReset c) s = .next { s with pfault := some (.badCode, c.setWidth 16), opk := .decDrain } ∧
    exec (.invalid c) s = .next { s with pfault := some (.badCode, c.setWidth 16), opk := .decDrain }

/-- R126, R65: an add writes the slot of the old `N` and no other, keeps the RAM's canonical form, and raises `N` by one. -/
def Obligations.AddWritesOneSlot : Prop :=
  ∀ (s : State) (p : Code) (x f : Byte), s.n.toNat < 4096 → s.mem.wf = true →
    (dictAdd p x f s).n.toNat = s.n.toNat + 1 ∧ (dictAdd p x f s).mem.wf = true ∧
    (dictAdd p x f s).mem.read s.n.toNat = some { pfx := p, sfx := x, fst := f } ∧
    (∀ c, c ≠ s.n.toNat → (dictAdd p x f s).mem.read c = s.mem.read c) ∧
    dictAdd p x f s = { s with n := (dictAdd p x f s).n, mem := (dictAdd p x f s).mem }

/-! ## Faults -/

/-- R209, R186: the fault entry. `BAD_CODE` and `OUT_OF_DATA` of the code loop are held; every other fault sets `ERR`,
`EINFO`, `PFAULT` and `PHASE` and nothing else, and so does the end of a drain with a held fault. -/
def Obligations.FaultEntry : Prop :=
  ∀ (s : State) (c : ErrCode) (i : BitVec 16),
    (s.phase = .run → s.opk = .decCodes → c = .badCode ∨ c = .outOfData →
      raise c i s = { s with pfault := some (c, i), opk := .decDrain }) ∧
    (¬ (s.phase = .run ∧ s.opk = .decCodes ∧ (c = .badCode ∨ c = .outOfData)) →
      raise c i s = { s with err := c, einfo := i, pfault := none, phase := .fault }) ∧
    (s.pfault = some (c, i) → finishFault s = { s with err := c, einfo := i, pfault := none, phase := .fault })

/-- R185, R186: a drain consumes the rest of the block through its terminator and nothing after it, one byte a step; then the
operation ends well, or in the held fault, with the end marker exactly in the first case. Where the terminator has been consumed
already (`PEND = 1`, after `OUT_OF_DATA`), the drain ends at its first step and takes no token. -/
def Obligations.DrainConsumesThroughTerminator : Prop :=
  ∀ (s : State) (p : List Byte) (rest : List Token), s.agenda = [] → s.phase = .run → s.opk = .decDrain →
    (s.pend = true ∧ p = [] ∧ rest = s.inq) ∨ (s.pend = false ∧ deframe s.rem.toNat s.inq = some (p, rest)) →
    ∃ t, runSteps (p.length + 1) s = .next t ∧ t.inq = rest ∧
      (s.pfault = none → t.phase = .done ∧ t.outq = s.outq ++ [.endMark] ∧ t.err = s.err ∧ t.einfo = s.einfo) ∧
      (∀ c i, s.pfault = some (c, i) →
        t.phase = .fault ∧ t.outq = s.outq ∧ t.err = c ∧ t.einfo = i ∧ t.pfault = none) ∧
      t.b = s.b ∧ t.n = s.n ∧ t.w = s.w ∧ t.jr = s.jr ∧ t.mem = s.mem

/-- R206: `End` where DECODE needs a byte raises `IO_FAIL` at once, consuming the `End` and dropping a held fault; for ENCODE it
is the normal end of the index stream. The last clause is the `End` met within a step, behind the length byte of a drain's step
or behind bytes of the code that is being read: the step takes everything through that `End`. -/
def Obligations.EndTokenRaisesIoFail : Prop :=
  ∀ (s : State) (q : List Token), s.engineTurn → s.phase = .run →
   (s.inq = .eof :: q →
    (s.opk = .decWidth ∨ (s.opk = .decDrain ∧ s.pend = false) ∨
        (s.opk = .decCodes ∧ s.pend = false ∧ s.racc.length < s.w.toNat) →
      step s = .next { s.afterTurn with inq := q, err := .ioFail, einfo := 0, pfault := none, phase := .fault }) ∧
    (s.opk = .encIndex → step s = .next { s.afterTurn with inq := q, opk := .encFinish })) ∧
   (∀ p, s.pend = false → s.arriving = (p, .endToken q) →
    (s.opk = .decDrain ∧ p = []) ∨ (s.opk = .decCodes ∧ s.racc.length + 8 * p.length < s.w.toNat) →
      ∃ r a, step s = .next { s.afterTurn with
        inq := q, rem := r, racc := a, err := .ioFail, einfo := 0, pfault := none, phase := .fault })

/-- R60, R185, R209, R213: an engine step that ends a run well appends the end marker last; one that ends it in a fault, or
does not end it, appends bytes only. -/
def Obligations.EndMarkOnlyOnDone : Prop :=
  ∀ s t : State, s.engineTurn → s.phase = .run → step s = .next t →
    ∃ out : List Byte,
      (t.phase = .done → t.outq = s.outq ++ out.map OutItem.byte ++ [.endMark]) ∧
      (t.phase ≠ .done → t.outq = s.outq ++ out.map OutItem.byte)

/-! ## Registers and the host -/

/-- R33, R200, R208: every field of `STATUS`, and the codes that `ERR` can show, in the order of the table; 8 to 15 never
appear. -/
def Obligations.StatusFields : Prop :=
  (ErrCode.none.bits, ErrCode.badWidth.bits, ErrCode.badCode.bits, ErrCode.outOfData.bits, ErrCode.rangePalette.bits,
      ErrCode.rangeIndex.bits, ErrCode.ioFail.bits, ErrCode.illegalCmd.bits) =
    (0#4, 1#4, 2#4, 3#4, 4#4, 5#4, 6#4, 7#4) ∧
  ∀ s : State,
    ((readRegister 0x08 s).extractLsb' 8 4).toNat < 8 ∧
    ((readRegister 0x08 s).getLsbD 0 = true ↔ s.phase = .run) ∧
    ((readRegister 0x08 s).getLsbD 1 = true ↔ s.phase = .done) ∧
    ((readRegister 0x08 s).getLsbD 2 = true ↔ s.phase = .fault) ∧
    (readRegister 0x08 s).getLsbD 3 = false ∧
    (readRegister 0x08 s).extractLsb' 4 2 = s.lastOp ∧
    (readRegister 0x08 s).extractLsb' 6 2 = 0#2 ∧
    (s.phase = .fault → (readRegister 0x08 s).extractLsb' 8 4 = s.err.bits) ∧
    (s.phase ≠ .fault → (readRegister 0x08 s).extractLsb' 8 4 = 0#4) ∧
    (readRegister 0x08 s).extractLsb' 12 20 = 0#20

/-- R34, R35, R36: the fields of `ERR_INFO`, and those of `BASE` and `STATE` while no operation runs; the two hold any value
while one does (R218), so nothing is stated then. -/
def Obligations.RegisterViews : Prop :=
  ∀ s : State,
    (s.phase = .fault → (readRegister 0x0C s).toNat = s.einfo.toNat) ∧
    (s.phase ≠ .fault → (readRegister 0x0C s).toNat = 0) ∧
    (s.phase ≠ .run → (readRegister 0x10 s).toNat = s.b.toNat) ∧
    (s.phase ≠ .run → (readRegister 0x14 s).extractLsb' 0 13 = s.n) ∧
    (s.phase ≠ .run → (readRegister 0x14 s).extractLsb' 13 3 = 0#3) ∧
    (s.phase ≠ .run → (readRegister 0x14 s).extractLsb' 16 4 = s.w) ∧
    (s.phase ≠ .run → (readRegister 0x14 s).extractLsb' 20 4 = 0#4) ∧
    (s.phase ≠ .run → (readRegister 0x14 s).getLsbD 24 = s.jr) ∧
    (s.phase ≠ .run → (readRegister 0x14 s).extractLsb' 25 7 = 0#7)

/-- R32, R43, R57: a write of `PALETTE` sets `SIZE` from the low 9 bits and changes nothing else, `P_LAT` least of all; a read
returns `SIZE` with the bits above it 0. -/
def Obligations.PaletteRegister : Prop :=
  (∀ (s : State) (v : HostWord) (rest : List Turn), s.agenda = .host (.memWrite 0x04 4 v) :: rest →
    ∃ t, step s = .next t ∧ t.palette.toNat = v.toNat % 512 ∧ t = { s with agenda := rest, palette := t.palette }) ∧
  (∀ s : State, (readRegister 0x04 s).toNat = s.palette.toNat)

/-- R42, R57, R31: a write at any other offset of the block than `CTRL` and `PALETTE` is ignored, and `CTRL` and the unmapped
offsets read 0. -/
def Obligations.OtherOffsetsInert : Prop :=
  ∀ (s : State) (off : Nat) (v : HostWord) (rest : List Turn), off % 4 = 0 → off ≤ 0xFC →
    (off ≠ 0x00 → off ≠ 0x04 → s.agenda = .host (.memWrite off 4 v) :: rest → step s = .next { s with agenda := rest }) ∧
    (off = 0 ∨ 0x18 ≤ off → readRegister off s = 0)

/-- R56: a host access that is not 32 bits wide, or whose offset is not a multiple of 4, is refused. -/
def Obligations.BadAccessRefused : Prop :=
  ∀ (s : State) (off size : Nat) (v : HostWord) (rest : List Turn), size ≠ 4 ∨ off % 4 ≠ 0 →
    (s.agenda = .host (.memWrite off size v) :: rest → step s = .refused .hostAccess) ∧
    (s.agenda = .host (.memRead off size) :: rest → step s = .refused .hostAccess)

/-- R192, R57: the host's other steps. A read returns the register's value and changes nothing of the core. Where the returned
value goes, and that a read counts a draw, is the model's choice (logs 10 and 13). -/
def Obligations.HostSteps : Prop :=
  ∀ (s : State) (rest : List Turn),
    (∀ tok, s.agenda = .host (.push tok) :: rest → step s = .next { s with agenda := rest, inq := s.inq ++ [tok] }) ∧
    (∀ x q, s.agenda = .host .pop :: rest → s.outq = x :: q →
      step s = .next { s with agenda := rest, outq := q, popData := some x }) ∧
    (s.agenda = .host .discard :: rest → s.phase ≠ .run → step s = .next { s with agenda := rest, inq := [] }) ∧
    (∀ off, off % 4 = 0 → off ≤ 0xFC → s.agenda = .host (.memRead off 4) :: rest →
      step s = .next { s with agenda := rest, readData := some (readRegister off s), draws := s.draws + 1 })

/-- R44: the state after power-on reset, and what the registers read. -/
def Obligations.ResetState : Prop :=
  State.reset.phase = .idle ∧ State.reset.lastOp = 0 ∧ State.reset.b = 0 ∧ State.reset.n = 0 ∧ State.reset.w = 0 ∧
  State.reset.jr = false ∧ State.reset.rcur = 0 ∧ State.reset.wcur = 0 ∧ State.reset.candV = false ∧
  State.reset.chunk = [] ∧ State.reset.clen = 0 ∧ State.reset.wacc = [] ∧ State.reset.racc = [] ∧
  State.reset.rem = 0 ∧ State.reset.pend = false ∧ State.reset.err = .none ∧ State.reset.einfo = 0 ∧
  State.reset.pfault = none ∧ State.reset.pLat = 0 ∧ State.reset.palette = 0 ∧
  readRegister 0x08 State.reset = 0 ∧ readRegister 0x0C State.reset = 0 ∧ readRegister 0x10 State.reset = 0 ∧
  readRegister 0x14 State.reset = 0 ∧ State.reset.inq = [] ∧ State.reset.outq = []

/-- R230: power-on reset in any phase gives every piece of state its reset value and empties both ports; the dictionary RAM
is not cleared. R44 leaves `OPK`, `PREV` and `CAND` unspecified, and the statement leaves them open (logs 5, 6 and 7). Reading
"not cleared" as slots that keep what they hold, and keeping the parameters and the model's own fields, is the model's choice
(log 19). -/
def Obligations.PowerOnResets : Prop :=
  ∀ (s : State) (rest : List Turn), s.agenda = .host .powerOn :: rest →
    ∃ t, step s = .next t ∧ t.mem = s.mem ∧ t = { State.reset with
      opk := t.opk, prev := t.prev, cand := t.cand, cfg := s.cfg, mem := s.mem, agenda := rest, readData := s.readData,
      popData := s.popData, draws := s.draws }

/-! ## The encoder -/

/-- R161, R205: an index of `2^b` or more raises `RANGE_INDEX` with the index as information and changes nothing else. -/
def Obligations.IndexOutOfRange : Prop :=
  ∀ (s : State) (x : Byte) (q : List Token), s.takesIndex x q → 2 ^ s.b.toNat ≤ x.toNat →
    step s = .next { s.afterTurn with
      inq := q, err := .rangeIndex, einfo := x.setWidth 16, pfault := none, phase := .fault }

/-- R162, R163: the first index becomes the candidate, and an index that extends the candidate to a dictionary entry makes that
entry the candidate; nothing is written and nothing added. -/
def Obligations.CandidateGrows : Prop :=
  ∀ (s : State) (x : Byte) (q : List Token), s.takesIndex x q → x.toNat < 2 ^ s.b.toNat →
    (s.candV = false → step s = .next { s.afterTurn with inq := q, cand := x.setWidth 12, candV := true }) ∧
    (∀ c e, s.mem.wf = true → s.candV = true → EncoderOk s → s.firstLearned ≤ c → c < s.n.toNat →
      s.mem.read c = some e → e.pfx = s.cand → e.sfx = x →
      step s = .next { s.afterTurn with inq := q, cand := BitVec.ofNat 12 c })

/-- R164, R126, R127: a miss with room in the table. The candidate's code goes out at the width before the add, slot `N` takes
the extended candidate and no other slot changes, `W` grows when the new `N` exceeds `2^W`, and the candidate restarts. -/
def Obligations.EncoderMiss : Prop :=
  ∀ (s : State) (x : Byte) (q : List Token), s.takesIndex x q → x.toNat < 2 ^ s.b.toNat → BufferOk s → EncoderOk s →
    s.candV = true → dictFind s s.cand x = none → s.n.toNat < 4096 →
    ∃ f t, firstOf s s.cand.toNat = some f ∧ step s = .next t ∧
      StreamGains (bitsOf s.cand.toNat s.w.toNat) s t ∧
      t.n.toNat = s.n.toNat + 1 ∧ t.mem.read s.n.toNat = some { pfx := s.cand, sfx := x, fst := f } ∧
      (∀ c, c ≠ s.n.toNat → t.mem.read c = s.mem.read c) ∧
      t.w.toNat = (if 2 ^ s.w.toNat < s.n.toNat + 1 ∧ s.w.toNat < 12 then s.w.toNat + 1 else s.w.toNat) ∧
      t.cand = x.setWidth 12 ∧
      t = { s.afterTurn with
        inq := q, n := t.n, w := t.w, cand := t.cand, mem := t.mem
        chunk := t.chunk, wacc := t.wacc, wcur := t.wcur, outq := t.outq }

/-- R165, R124: a miss with a full table. The candidate's code and Clear go out at width 12, the dictionary is reset with no
slot written, and the candidate restarts. -/
def Obligations.EncoderMissFull : Prop :=
  ∀ (s : State) (x : Byte) (q : List Token), s.takesIndex x q → x.toNat < 2 ^ s.b.toNat → BufferOk s → EncoderOk s →
    s.candV = true → dictFind s s.cand x = none → s.n.toNat = 4096 →
    ∃ t, step s = .next t ∧
      StreamGains (bitsOf s.cand.toNat 12 ++ bitsOf (2 ^ s.b.toNat) 12) s t ∧
      t.n.toNat = 2 ^ s.b.toNat + 2 ∧ t.w.toNat = s.b.toNat + 1 ∧ t.jr = true ∧ t.cand = x.setWidth 12 ∧
      t = { s.afterTurn with
        inq := q, n := t.n, w := t.w, jr := t.jr, cand := t.cand, prev := t.prev, draws := t.draws
        chunk := t.chunk, wacc := t.wacc, wcur := t.wcur, outq := t.outq }

/-- R166, R182, R111, R112: the end of an ENCODE. The remaining candidate goes out, then EOI at the width the decoder will read
it with, then padding to a byte, the last sub-block, the terminator and the end marker; `PHASE` becomes `DONE`. -/
def Obligations.EncoderFinish : Prop :=
  ∀ s : State, s.engineTurn → s.phase = .run → s.opk = .encFinish → BufferOk s →
    ∃ t p pad, step s = .next t ∧ t.phase = .done ∧
      t.w.toNat = (if s.n.toNat = 2 ^ s.w.toNat ∧ s.w.toNat < 12 then s.w.toNat + 1 else s.w.toNat) ∧
      payloadBits p = pendingBits s ++ (if s.candV then bitsOf s.cand.toNat s.w.toNat else []) ++
        bitsOf (2 ^ s.b.toNat + 1) t.w.toNat ++ List.replicate pad false ∧ pad < 8 ∧
      t.outq = s.outq ++ (frame p).map OutItem.byte ++ [.endMark] ∧ t.chunk = [] ∧ t.wacc = [] ∧
      t = { s.afterTurn with
        phase := t.phase, w := t.w, chunk := t.chunk, wacc := t.wacc, wcur := t.wcur, outq := t.outq }

/-- R130, R131: `DictFind(p, s)` hits `c` exactly when the slot of the learned code `c` holds the pair, and exactly when
`seq(c) = seq(p) ++ [s]`. -/
def Obligations.LookupIsExact : Prop :=
  ∀ (s : State) (p : Code) (x : Byte) (c : Nat), s.mem.wf = true → EncoderOk s → s.dataCode p.toNat →
    (dictFind s p x = some c ↔
      s.firstLearned ≤ c ∧ c < s.n.toNat ∧ ∃ e, s.mem.read c = some e ∧ e.pfx = p ∧ e.sfx = x) ∧
    (dictFind s p x = some c ↔
      s.firstLearned ≤ c ∧ c < s.n.toNat ∧ ∃ q, seqOf s p.toNat = some q ∧ seqOf s c = some (q ++ [x]))

/-- R132, R77: every code the encoder can write, its candidate, Clear and EOI, is below `2^W`. -/
def Obligations.EncoderCodesFit : Prop :=
  ∀ s : State, EncoderOk s →
    (s.candV = true → s.cand.toNat < 2 ^ s.w.toNat) ∧ s.clearCode < 2 ^ s.w.toNat ∧ s.eoiCode < 2 ^ s.w.toNat

/-! ## The whole machine -/

/-- The invariant holds after reset. -/
def Obligations.ResetMeetsInvariant : Prop := Inv State.reset

/-- Every step, of the engine or the host, keeps the invariant: the canonical form of the RAM, the ranges of R22 to R24, the
decoder's invariant of R151 and the encoder's, the closed form of the width, the packer's and framer's bounds, the fault
latch. -/
def Obligations.StepKeepsInvariant : Prop := ∀ s t : State, Inv s → step s = .next t → Inv t

/-- R125, R129, R151, R192: from a state of the invariant a step always answers a next state, unless the next turn is the
host's and breaks the precondition of its step. No engine step ever stops. -/
def Obligations.InvariantNeverStops : Prop :=
  ∀ s : State, Inv s →
    ((∃ t, step s = .next t) ↔ ∀ h rest, s.agenda = .host h :: rest → h.admitted s)

/-- R125, R66: no step reads a RAM slot outside `S0 ≤ c < N`. Two states alike but for those slots step alike. -/
def Obligations.StaleSlotsNeverRead : Prop :=
  ∀ s t : State, s.mem.wf = true → t.mem.wf = true → SameButStale s t →
    (∃ s' t', step s = .next s' ∧ step t = .next t' ∧ SameButStale s' t') ∨
    (∃ f, step s = .fault f ∧ step t = .fault f) ∨ (∃ r, step s = .refused r ∧ step t = .refused r)

/-- R151: the decoder's invariants between two codes, of every state of the model's invariant. -/
def Obligations.DecoderInvariants : Prop :=
  ∀ s : State, Inv s → s.phase = .run → s.opk = .decCodes →
    s.firstLearned ≤ s.n.toNat ∧ s.n.toNat ≤ 4096 ∧ s.b.toNat + 1 ≤ s.w.toNat ∧ s.w.toNat ≤ 12 ∧
    (s.n.toNat < 2 ^ s.w.toNat ∨ s.w.toNat = 12) ∧
    (s.jr = false → s.prev.toNat < s.n.toNat ∧ s.prev.toNat ≠ s.clearCode ∧ s.prev.toNat ≠ s.eoiCode) ∧
    (∀ c, s.firstLearned ≤ c → c < s.n.toNat → ∃ e q, s.mem.read c = some e ∧ e.pfx.toNat < c ∧
      e.pfx.toNat ≠ s.clearCode ∧ e.pfx.toNat ≠ s.eoiCode ∧ seqOf s c = some (e.fst :: q)) ∧
    (s.jr = false → ∃ q, seqOf s s.prev.toNat = some q) ∧
    ∀ c, c < s.clearCode ∨ (s.firstLearned ≤ c ∧ c < s.n.toNat) → ∃ q, seqOf s c = some q

/-- R122: the length of an index sequence. -/
def Obligations.SequenceLengths : Prop :=
  ∀ (s : State) (c : Nat), DictOk s → s.dataCode c →
    ∃ q, seqOf s c = some q ∧ q.length ≤ 4091 ∧ (c < s.clearCode → q.length = 1) ∧
      (s.firstLearned ≤ c → q.length ≤ c - s.firstLearned + 2 ∧
        ∃ e q', s.mem.read c = some e ∧ seqOf s e.pfx.toNat = some q' ∧ q.length = q'.length + 1)

/-- R135, R127, R128, R166: while an operation runs an engine step changes `W` only by one, when `N` has reached what `W` can
address and `W < 12`, or back to `b + 1` with the dictionary. -/
def Obligations.WidthLaws : Prop :=
  ∀ s t : State, Inv s → s.engineTurn → s.phase = .run → s.opk ≠ .decWidth → step s = .next t →
    t.b = s.b ∧ t.w.toNat ≤ 12 ∧
    (t.w = s.w ∨
      (t.w.toNat = s.w.toNat + 1 ∧ s.w.toNat < 12 ∧ 2 ^ s.w.toNat ≤ t.n.toNat ∧ s.n.toNat ≤ t.n.toNat) ∨
      (t.w.toNat = s.b.toNat + 1 ∧ t.n.toNat = s.firstLearned ∧ t.jr = true))

/-- R242: every engine step of a running operation that is enabled uses up work; the measure counts the input tokens and the
bits taken from them. -/
def Obligations.EngineStepsTerminate : Prop :=
  ∀ s t : State, Inv s → s.engineTurn → s.phase = .run → step s = .next t →
    t = s.afterTurn ∨ workLeft t < workLeft s

/-- R185, R187, R196, R206, R210: a DECODE whose input holds a block with a legal width byte ends, well or in `BAD_CODE` or
`OUT_OF_DATA`, and consumes exactly that block; where an `End` comes before the terminator it ends in `IO_FAIL`, whatever the
codes before it were and with no fault held, and consumes exactly the tokens through that `End`. -/
def Obligations.DecodeConsumesItsBlock : Prop :=
  ∀ (s : State) (w : BitVec 30) (v : Byte) (block rest : List Token) (p : List Byte),
    Inv s → s.phase ≠ .run → s.agenda = [] → s.inq = .byte v :: block → 2 ≤ v.toNat → v.toNat ≤ 8 →
    ∃ t, exec (.cmdDecode w) s = .next t ∧
      (deframe 0 block = some (p, rest) →
        ∃ k u, runSteps k t = .next u ∧ u.inq = rest ∧
          (u.phase = .done ∨ (u.phase = .fault ∧ (u.err = .badCode ∨ (u.err = .outOfData ∧ u.einfo = 0))))) ∧
      (arriving 0 block = (p, .endToken rest) →
        ∃ k u, runSteps k t = .next u ∧ u.inq = rest ∧ u.phase = .fault ∧ u.err = .ioFail ∧ u.einfo = 0 ∧
          u.pfault = none)

/-- R188, R182, R70: an ENCODE whose indices are all below `2^b` takes one step per token and one more, ends well, consumes the
indices and the `End`, and outputs one compressed block and the end marker; the first index out of range ends it in
`RANGE_INDEX` with the later tokens left. -/
def Obligations.EncodeEndsOnItsInput : Prop :=
  ∀ (s : State) (w : BitVec 30) (xs : List Byte) (rest : List Token),
    Inv s → s.phase ≠ .run → s.agenda = [] → 1 ≤ s.palette.toNat → s.palette.toNat ≤ 256 →
    ∃ t, exec (.cmdEncode w) s = .next t ∧ ((∀ x ∈ xs, x.toNat < 2 ^ t.b.toNat) →
      (s.inq = xs.map Token.byte ++ .eof :: rest →
        ∃ u p, runSteps (xs.length + 2) t = .next u ∧ u.phase = .done ∧ u.inq = rest ∧
          u.outq = s.outq ++ .byte (t.b.setWidth 8) :: (frame p).map OutItem.byte ++ [.endMark]) ∧
      (∀ y, 2 ^ t.b.toNat ≤ y.toNat → s.inq = xs.map Token.byte ++ .byte y :: rest →
        ∃ u out, runSteps (xs.length + 1) t = .next u ∧ u.phase = .fault ∧ u.err = .rangeIndex ∧
          u.einfo = y.setWidth 16 ∧ u.inq = rest ∧ u.outq = s.outq ++ List.map OutItem.byte out))

/-- R195, R152, R133: what ENCODE writes, DECODE reads back. For every palette size 1 to 256 and every index sequence of the
base width, of any length, DECODE of the block that ENCODE outputs ends well with the index sequence and the end marker as
its output, and consumes exactly the block. -/
def Obligations.PortRoundTrip : Prop :=
  ∀ (s : State) (w : BitVec 30) (xs : List Byte) (left : List Token),
    s.phase ≠ .run → s.agenda = [] → s.mem.wf = true → 1 ≤ s.palette.toNat → s.palette.toNat ≤ 256 →
    s.inq = xs.map Token.byte ++ .eof :: left →
    ∃ t, exec (.cmdEncode w) s = .next t ∧
      ((∀ x ∈ xs, x.toNat < 2 ^ t.b.toNat) →
        ∃ k u block, runSteps k t = .next u ∧ u.phase = .done ∧ u.inq = left ∧
          u.outq = s.outq ++ List.map OutItem.byte block ++ [.endMark] ∧
          ∀ (r : State) (w' : BitVec 30) (rest : List Token), r.phase ≠ .run → r.agenda = [] → r.mem.wf = true →
            r.inq = block.map Token.byte ++ rest →
            ∃ r' k' v, exec (.cmdDecode w') r = .next r' ∧ runSteps k' r' = .next v ∧ v.phase = .done ∧
              v.inq = rest ∧ v.outq = r.outq ++ xs.map OutItem.byte ++ [.endMark])
end

