-- ==== Sys2Proof/Laws/Bits.lean ====
section
/-! SUPPORT. The bit helpers: lengths, values, and `bitlen` as the least sufficient width. -/

namespace Sys2Proof

@[simp] theorem bitsOf_length (v w : Nat) : (bitsOf v w).length = w := by
  induction w generalizing v with
  | zero => rfl
  | succ w ih => simp [bitsOf, ih]

@[simp] theorem ofBits_nil : ofBits [] = 0 := rfl

@[simp] theorem ofBits_cons (b : Bool) (bs : List Bool) : ofBits (b :: bs) = b.toNat + 2 * ofBits bs := rfl

theorem ofBits_lt (bs : List Bool) : ofBits bs < 2 ^ bs.length := by
  induction bs with
  | nil => simp
  | cons b bs ih =>
    have hb : b.toNat ≤ 1 := Bool.toNat_le b
    simp only [ofBits_cons, List.length_cons, Nat.pow_succ]
    omega

/-- R75, R110: the value read back from the low `w` bits is the value modulo `2^w`. -/
theorem ofBits_bitsOf (v w : Nat) : ofBits (bitsOf v w) = v % 2 ^ w := by
  induction w generalizing v with
  | zero => simp [bitsOf, Nat.mod_one]
  | succ w ih =>
    simp only [bitsOf, ofBits_cons, ih, Nat.pow_succ]
    have h2 : (v % 2 == 1).toNat = v % 2 := by
      rcases Nat.mod_two_eq_zero_or_one v with h | h <;> simp [h]
    rw [h2, Nat.mul_comm (2 ^ w) 2, Nat.mod_mul]

/-- Bits are determined by their value. -/
theorem bitsOf_ofBits (bs : List Bool) : bitsOf (ofBits bs) bs.length = bs := by
  induction bs with
  | nil => rfl
  | cons b bs ih =>
    have hb : (b.toNat + 2 * ofBits bs) / 2 = ofBits bs := by
      have := Bool.toNat_le b
      omega
    have hm : (b.toNat % 2 == 1) = b := by
      cases b <;> rfl
    simp [bitsOf, hb, hm, ih]

theorem bitlenUpTo_le {fuel x k : Nat} (hf : x ≤ fuel) : bitlenUpTo fuel x ≤ k ↔ x < 2 ^ k := by
  induction fuel generalizing x k with
  | zero =>
    have : x = 0 := by omega
    subst this
    simp [bitlenUpTo]
  | succ fuel ih =>
    unfold bitlenUpTo
    by_cases hx : x = 0
    · simp [hx]
    · cases k with
      | zero => simp [hx]
      | succ k =>
        have := @ih (x / 2) k (by omega)
        simp only [hx, if_false, Nat.pow_succ]
        omega

/-- `bitlen(x) ≤ k` exactly when `x` fits in `k` bits (R11). -/
theorem bitlen_le {x k : Nat} : bitlen x ≤ k ↔ x < 2 ^ k := bitlenUpTo_le (Nat.le_refl x)

theorem lt_bitlen {x k : Nat} : k < bitlen x ↔ 2 ^ k ≤ x := by
  have := @bitlen_le x k
  omega

theorem bitlen_eq {x k : Nat} (h1 : 2 ^ k ≤ x) (h2 : x < 2 ^ (k + 1)) : bitlen x = k + 1 := by
  have := bitlen_le.mpr h2
  have := lt_bitlen.mpr h1
  omega

/-- `ceil_log2(p)` is the least `k` with `2^k ≥ p` (R11). -/
theorem ceilLog2_le {p k : Nat} (hp : 1 ≤ p) : ceilLog2 p ≤ k ↔ p ≤ 2 ^ k := by
  unfold ceilLog2
  rw [bitlen_le]
  omega

/-- The value of two fields side by side. -/
theorem append_toNat {n m : Nat} (x : BitVec n) (y : BitVec m) : (x ++ y).toNat = x.toNat * 2 ^ m + y.toNat := by
  rw [BitVec.toNat_append, ← Nat.shiftLeft_add_eq_or_of_lt y.isLt, Nat.shiftLeft_eq]

end Sys2Proof
end

