-- ==== Sys2Proof/Laws/Decoding.lean ====
section
/-! SUPPORT. What the decoder can answer for a code, and which shared meaning each row calls. -/

namespace Sys2Proof.Machine

theorem ofRow_instr {o : Option Instr} {i : Instr} (h : ofRow o = .instr i) : o = some i := by
  cases o <;> simp [ofRow] at h
  simp [h]

/-- Everything the decoder can answer for a code (R76). -/
theorem decodeCode_cases {b : BitVec 4} {n : BitVec 13} {jr : Bool} {c : Code} {i : Instr}
    (h : decodeCode b n jr c = .instr i) :
    (2 ≤ b.toNat ∧ b.toNat ≤ 8) ∧
      ((c.toNat = 2 ^ b.toNat ∧ clearRow b.toNat = some i) ∨
        (c.toNat = 2 ^ b.toNat + 1 ∧ eoiRow b.toNat = some i) ∨
        (c.toNat < 2 ^ b.toNat ∧ literalRow c b.toNat = some i) ∨
        (2 ^ b.toNat + 2 ≤ c.toNat ∧ c.toNat < n.toNat ∧ i = .learned c) ∨
        (2 ^ b.toNat + 2 ≤ c.toNat ∧ c.toNat = n.toNat ∧ jr = false ∧ i = .kwkwk c) ∨
        (2 ^ b.toNat + 2 ≤ c.toNat ∧ c.toNat = n.toNat ∧ jr = true ∧ i = .kwkwkAfterReset c) ∨
        (2 ^ b.toNat + 2 ≤ c.toNat ∧ n.toNat < c.toNat ∧ i = .invalid c)) := by
  unfold decodeCode at h
  split at h
  · simp at h
  · rename_i hb
    have hb : 2 ≤ b.toNat ∧ b.toNat ≤ 8 := by
      simp [baseWidthOk] at hb
      omega
    refine ⟨hb, ?_⟩
    split at h
    · exact .inl ⟨‹_›, ofRow_instr h⟩
    · split at h
      · exact .inr (.inl ⟨‹_›, ofRow_instr h⟩)
      · split at h
        · exact .inr (.inr (.inl ⟨‹_›, ofRow_instr h⟩))
        · have hge : 2 ^ b.toNat + 2 ≤ c.toNat := by omega
          split at h
          · exact .inr (.inr (.inr (.inl ⟨hge, ‹_›, by simpa using h.symm⟩)))
          · split at h
            · split at h
              · rename_i hj
                exact .inr (.inr (.inr (.inr (.inr (.inl ⟨hge, ‹_›, by simpa using hj, by simpa using h.symm⟩)))))
              · rename_i hj
                exact .inr (.inr (.inr (.inr (.inl ⟨hge, ‹_›, by simpa using hj, by simpa using h.symm⟩))))
            · exact .inr (.inr (.inr (.inr (.inr (.inr ⟨hge, by omega, by simpa using h.symm⟩)))))

/-- Every `CLEAR_b` runs `ExecClear()` (R142). -/
theorem exec_clearRow {k : Nat} {i : Instr} (h : clearRow k = some i) (s : State) : exec i s = clearCodeTable s := by
  unfold clearRow at h
  split at h <;> simp at h <;> subst h <;> rfl

/-- Every `EOI_b` runs `ExecEoi()` (R143). -/
theorem exec_eoiRow {k : Nat} {i : Instr} (h : eoiRow k = some i) (s : State) : exec i s = endOfInformation s := by
  unfold eoiRow at h
  split at h <;> simp at h <;> subst h <;> rfl

theorem setWidth_extract {c : Code} {k : Nat} (h : c.toNat < 2 ^ k) :
    (c.extractLsb' 0 k).setWidth 12 = c := by
  apply BitVec.eq_of_toNat_eq
  simp only [BitVec.toNat_setWidth, BitVec.extractLsb'_toNat, Nat.shiftRight_zero]
  rw [Nat.mod_eq_of_lt h, Nat.mod_eq_of_lt c.isLt]

/-- Every `LITERAL_b` runs `KnownEntry(c)` (R145). -/
theorem exec_literalRow {k : Nat} {i : Instr} {c : Code} (h : literalRow c k = some i) (hc : c.toNat < 2 ^ k)
    (s : State) : exec i s = knownEntry c s := by
  unfold literalRow at h
  split at h <;> simp at h <;> subst h <;>
    (show knownEntry (BitVec.setWidth 12 _) s = _
     rw [setWidth_extract hc])

/-- A literal's code is its index, below `2^b` (R145). -/
theorem literal_toNat {b : Nat} (hb : b ≤ 8) (index : BitVec b) :
    (index.setWidth 12).toNat = index.toNat ∧ index.toNat < 2 ^ b := by
  refine ⟨?_, index.isLt⟩
  rw [BitVec.toNat_setWidth, Nat.mod_eq_of_lt]
  exact Nat.lt_of_lt_of_le index.isLt (Nat.pow_le_pow_right (by omega) (by omega))

theorem clearRow_class {k} (h2 : 2 ≤ k) (h8 : k ≤ 8) : ∃ i, clearRow k = some i ∧
    i.codeClass = some (.clear, some k) := by
  have bc : k = 2 ∨ k = 3 ∨ k = 4 ∨ k = 5 ∨ k = 6 ∨ k = 7 ∨ k = 8 := by omega
  rcases bc with rfl | rfl | rfl | rfl | rfl | rfl | rfl <;> exact ⟨_, rfl, rfl⟩

theorem eoiRow_class {k} (h2 : 2 ≤ k) (h8 : k ≤ 8) : ∃ i, eoiRow k = some i ∧ i.codeClass = some (.eoi, some k) := by
  have bc : k = 2 ∨ k = 3 ∨ k = 4 ∨ k = 5 ∨ k = 6 ∨ k = 7 ∨ k = 8 := by omega
  rcases bc with rfl | rfl | rfl | rfl | rfl | rfl | rfl <;> exact ⟨_, rfl, rfl⟩

theorem literalRow_class {k} (c : Code) (h2 : 2 ≤ k) (h8 : k ≤ 8) : ∃ i, literalRow c k = some i ∧
    i.codeClass = some (.literal, some k) := by
  have bc : k = 2 ∨ k = 3 ∨ k = 4 ∨ k = 5 ∨ k = 6 ∨ k = 7 ∨ k = 8 := by omega
  rcases bc with rfl | rfl | rfl | rfl | rfl | rfl | rfl <;> exact ⟨_, rfl, rfl⟩

/-- At a base width of the core, every code is some instruction (R76). -/
theorem decodeCode_total {b : BitVec 4} {n : BitVec 13} {jr : Bool} {c : Code} (h2 : 2 ≤ b.toNat) (h8 : b.toNat ≤ 8) :
    ∃ i, decodeCode b n jr c = .instr i := by
  have hb : baseWidthOk b = true := by simp [baseWidthOk]; omega
  unfold decodeCode
  rw [if_neg (by simp [hb])]
  split
  · obtain ⟨i, h, -⟩ := clearRow_class h2 h8; rw [h]; exact ⟨i, rfl⟩
  · split
    · obtain ⟨i, h, -⟩ := eoiRow_class h2 h8; rw [h]; exact ⟨i, rfl⟩
    · split
      · obtain ⟨i, h, -⟩ := literalRow_class c h2 h8; rw [h]; exact ⟨i, rfl⟩
      · split
        · exact ⟨_, rfl⟩
        · split
          · cases jr
            · exact ⟨_, rfl⟩
            · exact ⟨_, rfl⟩
          · exact ⟨_, rfl⟩

/-- A literal's row runs the known data code of its index (R145). -/
theorem literal_exec {i : Instr} {k : Nat} {x : Byte}
    (h : i.literal = some (k, x)) (s : State) : exec i s = knownEntry (x.setWidth 12) s ∧ 2 ≤ k ∧ k ≤ 8 ∧
    x.toNat < 2 ^ k := by
  have e : ∀ {b : Nat} (y : BitVec b), b ≤ 8 → y.setWidth 12 = (y.setWidth 8).setWidth 12 ∧
      (y.setWidth 8).toNat < 2 ^ b := by
    intro b y hb
    have h1 : y.toNat < 256 := Nat.lt_of_lt_of_le y.isLt (Nat.pow_le_pow_right (n := 2) (by omega) hb)
    refine ⟨?_, ?_⟩
    · apply BitVec.eq_of_toNat_eq
      simp only [BitVec.toNat_setWidth]; omega
    · simp only [BitVec.toNat_setWidth]; rw [Nat.mod_eq_of_lt h1]; exact y.isLt
  cases i <;> simp [Instr.literal] at h <;> (obtain ⟨rfl, rfl⟩ := h; refine ⟨?_, by omega, by omega, ?_⟩)
  case literal8.refine_1 y => rfl
  case literal8.refine_2 y => exact y.isLt
  all_goals first
   | (rename_i y; exact (e y (by omega)).2)
   | (rename_i y; show knownEntry (y.setWidth 12) s = _; rw [(e y (by omega)).1])

end Sys2Proof.Machine
end

