-- ==== Sys2Proof/Laws/Memory.lean ====
section
/-! SUPPORT. The dictionary RAM: a read after a write, the canonical form, and the search of `DictFind`. -/

namespace Sys2Proof.Machine

@[simp] theorem Memory.read_nil (c : Nat) : Memory.read [] c = none := rfl

theorem Memory.read_cons (a : Nat) (e : Entry) (m : Memory) (c : Nat) :
    Memory.read ((a, e) :: m) c = if a = c then some e else Memory.read m c := rfl

/-- R65: a read returns the entry most recently written. -/
theorem Memory.read_write_same (m : Memory) (c : Nat) (e : Entry) : (m.write c e).read c = some e := by
  induction m with
  | nil => simp [Memory.write, Memory.read]
  | cons x m ih =>
    obtain ⟨a, y⟩ := x
    unfold Memory.write
    split
    · simp [Memory.read]
    · split
      · simp [Memory.read]
      · rename_i h1 h2
        rw [Memory.read_cons, if_neg (Ne.symm h2), ih]

/-- A write leaves every other slot as it was. -/
theorem Memory.read_write_other (m : Memory) {c d : Nat} (e : Entry) (h : d ≠ c) :
    (m.write c e).read d = m.read d := by
  induction m with
  | nil => simp [Memory.write, Memory.read, Ne.symm h]
  | cons x m ih =>
    obtain ⟨a, y⟩ := x
    unfold Memory.write
    split
    · rw [Memory.read_cons, if_neg (Ne.symm h)]
    · split
      · rename_i h1 h2
        subst h2
        rw [Memory.read_cons, Memory.read_cons, if_neg (Ne.symm h), if_neg (Ne.symm h)]
      · rw [Memory.read_cons, Memory.read_cons, ih]

theorem Memory.wf_cons (a : Nat) (e : Entry) (m : Memory) :
    Memory.wf ((a, e) :: m) = true ↔ a < 4096 ∧ (∀ x ∈ m, a < x.1) ∧ Memory.wf m = true := by
  simp [Memory.wf, and_assoc]

theorem Memory.mem_write {m : Memory} {c : Nat} {e : Entry} {x : Nat × Entry} (h : x ∈ m.write c e) :
    x = (c, e) ∨ x ∈ m := by
  induction m with
  | nil => simpa [Memory.write] using h
  | cons y m ih =>
    obtain ⟨a, z⟩ := y
    unfold Memory.write at h
    split at h
    · simpa using h
    · split at h
      · rcases List.mem_cons.mp h with h | h
        · exact .inl h
        · exact .inr (List.mem_cons_of_mem _ h)
      · rcases List.mem_cons.mp h with h | h
        · exact .inr (by simp [h])
        · rcases ih h with h | h
          · exact .inl h
          · exact .inr (List.mem_cons_of_mem _ h)

/-- Every write of a code of the code space keeps the canonical form. -/
theorem Memory.write_wf {m : Memory} {c : Nat} {e : Entry} (hm : m.wf = true) (hc : c < 4096) :
    (m.write c e).wf = true := by
  induction m with
  | nil => simp [Memory.write, Memory.wf, hc]
  | cons x m ih =>
    obtain ⟨a, y⟩ := x
    obtain ⟨ha, hlt, hw⟩ := (Memory.wf_cons a y m).mp hm
    unfold Memory.write
    split
    · rename_i h
      refine (Memory.wf_cons _ _ _).mpr ⟨hc, ?_, hm⟩
      intro z hz
      rcases List.mem_cons.mp hz with hz | hz
      · simpa [hz] using h
      · exact Nat.lt_trans h (hlt z hz)
    · split
      · rename_i h1 h2
        subst h2
        exact (Memory.wf_cons _ _ _).mpr ⟨hc, hlt, hw⟩
      · rename_i h1 h2
        refine (Memory.wf_cons _ _ _).mpr ⟨ha, ?_, ih hw⟩
        intro z hz
        rcases Memory.mem_write hz with hz | hz
        · simp only [hz]; omega
        · exact hlt z hz

/-- In a canonical RAM a listed pair is what its slot reads as. -/
theorem Memory.read_of_mem {m : Memory} (hm : m.wf = true) {c : Nat} {e : Entry} (h : (c, e) ∈ m) :
    m.read c = some e := by
  induction m with
  | nil => simp at h
  | cons x m ih =>
    obtain ⟨a, y⟩ := x
    obtain ⟨-, hlt, hw⟩ := (Memory.wf_cons a y m).mp hm
    rw [Memory.read_cons]
    rcases List.mem_cons.mp h with h | h
    · obtain ⟨rfl, rfl⟩ := Prod.mk.inj h
      simp
    · have : a < c := hlt _ h
      rw [if_neg (by omega)]
      exact ih hw h

theorem Memory.mem_of_read {m : Memory} {c : Nat} {e : Entry} (h : m.read c = some e) : (c, e) ∈ m := by
  induction m with
  | nil => simp at h
  | cons x m ih =>
    obtain ⟨a, y⟩ := x
    rw [Memory.read_cons] at h
    split at h
    · rename_i hc
      subst hc
      simp at h
      simp [h]
    · exact List.mem_cons_of_mem _ (ih h)

/-- What `DictFind`'s search answers with: a slot of the range with the pair. -/
theorem findEntry_some {lo hi : Nat} {p : Code} {i : Byte} {m : Memory} {c : Nat}
    (h : findEntry lo hi p i m = some c) :
    lo ≤ c ∧ c < hi ∧ ∃ e, (c, e) ∈ m ∧ e.pfx = p ∧ e.sfx = i := by
  induction m with
  | nil => simp [findEntry] at h
  | cons x m ih =>
    obtain ⟨a, y⟩ := x
    unfold findEntry at h
    split at h
    · rename_i hc
      obtain ⟨h1, h2, h3, h4⟩ := hc
      simp at h
      subst h
      exact ⟨h1, h2, y, by simp, h3, h4⟩
    · obtain ⟨h1, h2, e, h3, h4⟩ := ih h
      exact ⟨h1, h2, e, List.mem_cons_of_mem _ h3, h4⟩

/-- When the search misses, no slot of the range has the pair. -/
theorem findEntry_none {lo hi : Nat} {p : Code} {i : Byte} {m : Memory}
    (h : findEntry lo hi p i m = none) {c : Nat} {e : Entry} (hc : (c, e) ∈ m) (h1 : lo ≤ c) (h2 : c < hi) :
    ¬ (e.pfx = p ∧ e.sfx = i) := by
  induction m with
  | nil => simp at hc
  | cons x m ih =>
    obtain ⟨a, y⟩ := x
    unfold findEntry at h
    split at h
    · simp at h
    · rename_i hn
      rcases List.mem_cons.mp hc with hc | hc
      · obtain ⟨rfl, rfl⟩ := Prod.mk.inj hc
        intro he
        exact hn ⟨h1, h2, he.1, he.2⟩
      · exact ih h hc

end Sys2Proof.Machine
end

