-- ==== Sys2Proof/Laws/State.lean ====
section
/-! SUPPORT. One lemma per field per shared update, true by rfl, and what the conditional updates leave unchanged. -/

namespace Sys2Proof.Machine

/-! ### outPut -/

@[simp] theorem outPut_cfg (v : Byte) (s : State) : (outPut v s).cfg = s.cfg := rfl
@[simp] theorem outPut_phase (v : Byte) (s : State) : (outPut v s).phase = s.phase := rfl
@[simp] theorem outPut_opk (v : Byte) (s : State) : (outPut v s).opk = s.opk := rfl
@[simp] theorem outPut_lastOp (v : Byte) (s : State) : (outPut v s).lastOp = s.lastOp := rfl
@[simp] theorem outPut_b (v : Byte) (s : State) : (outPut v s).b = s.b := rfl
@[simp] theorem outPut_n (v : Byte) (s : State) : (outPut v s).n = s.n := rfl
@[simp] theorem outPut_w (v : Byte) (s : State) : (outPut v s).w = s.w := rfl
@[simp] theorem outPut_jr (v : Byte) (s : State) : (outPut v s).jr = s.jr := rfl
@[simp] theorem outPut_prev (v : Byte) (s : State) : (outPut v s).prev = s.prev := rfl
@[simp] theorem outPut_rcur (v : Byte) (s : State) : (outPut v s).rcur = s.rcur := rfl
@[simp] theorem outPut_wcur (v : Byte) (s : State) : (outPut v s).wcur = s.wcur := rfl
@[simp] theorem outPut_cand (v : Byte) (s : State) : (outPut v s).cand = s.cand := rfl
@[simp] theorem outPut_candV (v : Byte) (s : State) : (outPut v s).candV = s.candV := rfl
@[simp] theorem outPut_chunk (v : Byte) (s : State) : (outPut v s).chunk = s.chunk := rfl
@[simp] theorem outPut_wacc (v : Byte) (s : State) : (outPut v s).wacc = s.wacc := rfl
@[simp] theorem outPut_rem (v : Byte) (s : State) : (outPut v s).rem = s.rem := rfl
@[simp] theorem outPut_pend (v : Byte) (s : State) : (outPut v s).pend = s.pend := rfl
@[simp] theorem outPut_racc (v : Byte) (s : State) : (outPut v s).racc = s.racc := rfl
@[simp] theorem outPut_err (v : Byte) (s : State) : (outPut v s).err = s.err := rfl
@[simp] theorem outPut_einfo (v : Byte) (s : State) : (outPut v s).einfo = s.einfo := rfl
@[simp] theorem outPut_pfault (v : Byte) (s : State) : (outPut v s).pfault = s.pfault := rfl
@[simp] theorem outPut_pLat (v : Byte) (s : State) : (outPut v s).pLat = s.pLat := rfl
@[simp] theorem outPut_palette (v : Byte) (s : State) : (outPut v s).palette = s.palette := rfl
@[simp] theorem outPut_mem (v : Byte) (s : State) : (outPut v s).mem = s.mem := rfl
@[simp] theorem outPut_inq (v : Byte) (s : State) : (outPut v s).inq = s.inq := rfl
@[simp] theorem outPut_outq (v : Byte) (s : State) : (outPut v s).outq = s.outq ++ [.byte v] := rfl
@[simp] theorem outPut_agenda (v : Byte) (s : State) : (outPut v s).agenda = s.agenda := rfl
@[simp] theorem outPut_readData (v : Byte) (s : State) : (outPut v s).readData = s.readData := rfl
@[simp] theorem outPut_popData (v : Byte) (s : State) : (outPut v s).popData = s.popData := rfl
@[simp] theorem outPut_draws (v : Byte) (s : State) : (outPut v s).draws = s.draws := rfl

/-! ### outPutAll -/

@[simp] theorem outPutAll_cfg (vs : List Byte) (s : State) : (outPutAll vs s).cfg = s.cfg := rfl
@[simp] theorem outPutAll_phase (vs : List Byte) (s : State) : (outPutAll vs s).phase = s.phase := rfl
@[simp] theorem outPutAll_opk (vs : List Byte) (s : State) : (outPutAll vs s).opk = s.opk := rfl
@[simp] theorem outPutAll_lastOp (vs : List Byte) (s : State) : (outPutAll vs s).lastOp = s.lastOp := rfl
@[simp] theorem outPutAll_b (vs : List Byte) (s : State) : (outPutAll vs s).b = s.b := rfl
@[simp] theorem outPutAll_n (vs : List Byte) (s : State) : (outPutAll vs s).n = s.n := rfl
@[simp] theorem outPutAll_w (vs : List Byte) (s : State) : (outPutAll vs s).w = s.w := rfl
@[simp] theorem outPutAll_jr (vs : List Byte) (s : State) : (outPutAll vs s).jr = s.jr := rfl
@[simp] theorem outPutAll_prev (vs : List Byte) (s : State) : (outPutAll vs s).prev = s.prev := rfl
@[simp] theorem outPutAll_rcur (vs : List Byte) (s : State) : (outPutAll vs s).rcur = s.rcur := rfl
@[simp] theorem outPutAll_wcur (vs : List Byte) (s : State) : (outPutAll vs s).wcur = s.wcur := rfl
@[simp] theorem outPutAll_cand (vs : List Byte) (s : State) : (outPutAll vs s).cand = s.cand := rfl
@[simp] theorem outPutAll_candV (vs : List Byte) (s : State) : (outPutAll vs s).candV = s.candV := rfl
@[simp] theorem outPutAll_chunk (vs : List Byte) (s : State) : (outPutAll vs s).chunk = s.chunk := rfl
@[simp] theorem outPutAll_wacc (vs : List Byte) (s : State) : (outPutAll vs s).wacc = s.wacc := rfl
@[simp] theorem outPutAll_rem (vs : List Byte) (s : State) : (outPutAll vs s).rem = s.rem := rfl
@[simp] theorem outPutAll_pend (vs : List Byte) (s : State) : (outPutAll vs s).pend = s.pend := rfl
@[simp] theorem outPutAll_racc (vs : List Byte) (s : State) : (outPutAll vs s).racc = s.racc := rfl
@[simp] theorem outPutAll_err (vs : List Byte) (s : State) : (outPutAll vs s).err = s.err := rfl
@[simp] theorem outPutAll_einfo (vs : List Byte) (s : State) : (outPutAll vs s).einfo = s.einfo := rfl
@[simp] theorem outPutAll_pfault (vs : List Byte) (s : State) : (outPutAll vs s).pfault = s.pfault := rfl
@[simp] theorem outPutAll_pLat (vs : List Byte) (s : State) : (outPutAll vs s).pLat = s.pLat := rfl
@[simp] theorem outPutAll_palette (vs : List Byte) (s : State) : (outPutAll vs s).palette = s.palette := rfl
@[simp] theorem outPutAll_mem (vs : List Byte) (s : State) : (outPutAll vs s).mem = s.mem := rfl
@[simp] theorem outPutAll_inq (vs : List Byte) (s : State) : (outPutAll vs s).inq = s.inq := rfl
@[simp] theorem outPutAll_outq (vs : List Byte) (s : State) : (outPutAll vs s).outq = s.outq ++ vs.map .byte := rfl
@[simp] theorem outPutAll_agenda (vs : List Byte) (s : State) : (outPutAll vs s).agenda = s.agenda := rfl
@[simp] theorem outPutAll_readData (vs : List Byte) (s : State) : (outPutAll vs s).readData = s.readData := rfl
@[simp] theorem outPutAll_popData (vs : List Byte) (s : State) : (outPutAll vs s).popData = s.popData := rfl
@[simp] theorem outPutAll_draws (vs : List Byte) (s : State) : (outPutAll vs s).draws = s.draws := rfl

/-! ### outEnd -/

@[simp] theorem outEnd_cfg (s : State) : (outEnd s).cfg = s.cfg := rfl
@[simp] theorem outEnd_phase (s : State) : (outEnd s).phase = s.phase := rfl
@[simp] theorem outEnd_opk (s : State) : (outEnd s).opk = s.opk := rfl
@[simp] theorem outEnd_lastOp (s : State) : (outEnd s).lastOp = s.lastOp := rfl
@[simp] theorem outEnd_b (s : State) : (outEnd s).b = s.b := rfl
@[simp] theorem outEnd_n (s : State) : (outEnd s).n = s.n := rfl
@[simp] theorem outEnd_w (s : State) : (outEnd s).w = s.w := rfl
@[simp] theorem outEnd_jr (s : State) : (outEnd s).jr = s.jr := rfl
@[simp] theorem outEnd_prev (s : State) : (outEnd s).prev = s.prev := rfl
@[simp] theorem outEnd_rcur (s : State) : (outEnd s).rcur = s.rcur := rfl
@[simp] theorem outEnd_wcur (s : State) : (outEnd s).wcur = s.wcur := rfl
@[simp] theorem outEnd_cand (s : State) : (outEnd s).cand = s.cand := rfl
@[simp] theorem outEnd_candV (s : State) : (outEnd s).candV = s.candV := rfl
@[simp] theorem outEnd_chunk (s : State) : (outEnd s).chunk = s.chunk := rfl
@[simp] theorem outEnd_wacc (s : State) : (outEnd s).wacc = s.wacc := rfl
@[simp] theorem outEnd_rem (s : State) : (outEnd s).rem = s.rem := rfl
@[simp] theorem outEnd_pend (s : State) : (outEnd s).pend = s.pend := rfl
@[simp] theorem outEnd_racc (s : State) : (outEnd s).racc = s.racc := rfl
@[simp] theorem outEnd_err (s : State) : (outEnd s).err = s.err := rfl
@[simp] theorem outEnd_einfo (s : State) : (outEnd s).einfo = s.einfo := rfl
@[simp] theorem outEnd_pfault (s : State) : (outEnd s).pfault = s.pfault := rfl
@[simp] theorem outEnd_pLat (s : State) : (outEnd s).pLat = s.pLat := rfl
@[simp] theorem outEnd_palette (s : State) : (outEnd s).palette = s.palette := rfl
@[simp] theorem outEnd_mem (s : State) : (outEnd s).mem = s.mem := rfl
@[simp] theorem outEnd_inq (s : State) : (outEnd s).inq = s.inq := rfl
@[simp] theorem outEnd_outq (s : State) : (outEnd s).outq = s.outq ++ [.endMark] := rfl
@[simp] theorem outEnd_agenda (s : State) : (outEnd s).agenda = s.agenda := rfl
@[simp] theorem outEnd_readData (s : State) : (outEnd s).readData = s.readData := rfl
@[simp] theorem outEnd_popData (s : State) : (outEnd s).popData = s.popData := rfl
@[simp] theorem outEnd_draws (s : State) : (outEnd s).draws = s.draws := rfl

/-! ### dictAdd -/

@[simp] theorem dictAdd_cfg (p : Code) (x f : Byte) (s : State) : (dictAdd p x f s).cfg = s.cfg := rfl
@[simp] theorem dictAdd_phase (p : Code) (x f : Byte) (s : State) : (dictAdd p x f s).phase = s.phase := rfl
@[simp] theorem dictAdd_opk (p : Code) (x f : Byte) (s : State) : (dictAdd p x f s).opk = s.opk := rfl
@[simp] theorem dictAdd_lastOp (p : Code) (x f : Byte) (s : State) : (dictAdd p x f s).lastOp = s.lastOp := rfl
@[simp] theorem dictAdd_b (p : Code) (x f : Byte) (s : State) : (dictAdd p x f s).b = s.b := rfl
@[simp] theorem dictAdd_n (p : Code) (x f : Byte) (s : State) : (dictAdd p x f s).n = s.n + 1 := rfl
@[simp] theorem dictAdd_w (p : Code) (x f : Byte) (s : State) : (dictAdd p x f s).w = s.w := rfl
@[simp] theorem dictAdd_jr (p : Code) (x f : Byte) (s : State) : (dictAdd p x f s).jr = s.jr := rfl
@[simp] theorem dictAdd_prev (p : Code) (x f : Byte) (s : State) : (dictAdd p x f s).prev = s.prev := rfl
@[simp] theorem dictAdd_rcur (p : Code) (x f : Byte) (s : State) : (dictAdd p x f s).rcur = s.rcur := rfl
@[simp] theorem dictAdd_wcur (p : Code) (x f : Byte) (s : State) : (dictAdd p x f s).wcur = s.wcur := rfl
@[simp] theorem dictAdd_cand (p : Code) (x f : Byte) (s : State) : (dictAdd p x f s).cand = s.cand := rfl
@[simp] theorem dictAdd_candV (p : Code) (x f : Byte) (s : State) : (dictAdd p x f s).candV = s.candV := rfl
@[simp] theorem dictAdd_chunk (p : Code) (x f : Byte) (s : State) : (dictAdd p x f s).chunk = s.chunk := rfl
@[simp] theorem dictAdd_wacc (p : Code) (x f : Byte) (s : State) : (dictAdd p x f s).wacc = s.wacc := rfl
@[simp] theorem dictAdd_rem (p : Code) (x f : Byte) (s : State) : (dictAdd p x f s).rem = s.rem := rfl
@[simp] theorem dictAdd_pend (p : Code) (x f : Byte) (s : State) : (dictAdd p x f s).pend = s.pend := rfl
@[simp] theorem dictAdd_racc (p : Code) (x f : Byte) (s : State) : (dictAdd p x f s).racc = s.racc := rfl
@[simp] theorem dictAdd_err (p : Code) (x f : Byte) (s : State) : (dictAdd p x f s).err = s.err := rfl
@[simp] theorem dictAdd_einfo (p : Code) (x f : Byte) (s : State) : (dictAdd p x f s).einfo = s.einfo := rfl
@[simp] theorem dictAdd_pfault (p : Code) (x f : Byte) (s : State) : (dictAdd p x f s).pfault = s.pfault := rfl
@[simp] theorem dictAdd_pLat (p : Code) (x f : Byte) (s : State) : (dictAdd p x f s).pLat = s.pLat := rfl
@[simp] theorem dictAdd_palette (p : Code) (x f : Byte) (s : State) : (dictAdd p x f s).palette = s.palette := rfl
@[simp] theorem dictAdd_mem (p : Code) (x f : Byte) (s : State) :
    (dictAdd p x f s).mem = s.mem.write s.n.toNat { pfx := p, sfx := x, fst := f } := rfl
@[simp] theorem dictAdd_inq (p : Code) (x f : Byte) (s : State) : (dictAdd p x f s).inq = s.inq := rfl
@[simp] theorem dictAdd_outq (p : Code) (x f : Byte) (s : State) : (dictAdd p x f s).outq = s.outq := rfl
@[simp] theorem dictAdd_agenda (p : Code) (x f : Byte) (s : State) : (dictAdd p x f s).agenda = s.agenda := rfl
@[simp] theorem dictAdd_readData (p : Code) (x f : Byte) (s : State) : (dictAdd p x f s).readData = s.readData := rfl
@[simp] theorem dictAdd_popData (p : Code) (x f : Byte) (s : State) : (dictAdd p x f s).popData = s.popData := rfl
@[simp] theorem dictAdd_draws (p : Code) (x f : Byte) (s : State) : (dictAdd p x f s).draws = s.draws := rfl

/-! ### dictReset -/

@[simp] theorem dictReset_cfg (s : State) : (dictReset s).cfg = s.cfg := rfl
@[simp] theorem dictReset_phase (s : State) : (dictReset s).phase = s.phase := rfl
@[simp] theorem dictReset_opk (s : State) : (dictReset s).opk = s.opk := rfl
@[simp] theorem dictReset_lastOp (s : State) : (dictReset s).lastOp = s.lastOp := rfl
@[simp] theorem dictReset_b (s : State) : (dictReset s).b = s.b := rfl
@[simp] theorem dictReset_n (s : State) : (dictReset s).n = BitVec.ofNat 13 s.firstLearned := rfl
@[simp] theorem dictReset_w (s : State) : (dictReset s).w = s.b + 1 := rfl
@[simp] theorem dictReset_jr (s : State) : (dictReset s).jr = true := rfl
@[simp] theorem dictReset_prev (s : State) : (dictReset s).prev = Config.unspecifiedPrev s.draws := rfl
@[simp] theorem dictReset_rcur (s : State) : (dictReset s).rcur = s.rcur := rfl
@[simp] theorem dictReset_wcur (s : State) : (dictReset s).wcur = s.wcur := rfl
@[simp] theorem dictReset_cand (s : State) : (dictReset s).cand = s.cand := rfl
@[simp] theorem dictReset_candV (s : State) : (dictReset s).candV = s.candV := rfl
@[simp] theorem dictReset_chunk (s : State) : (dictReset s).chunk = s.chunk := rfl
@[simp] theorem dictReset_wacc (s : State) : (dictReset s).wacc = s.wacc := rfl
@[simp] theorem dictReset_rem (s : State) : (dictReset s).rem = s.rem := rfl
@[simp] theorem dictReset_pend (s : State) : (dictReset s).pend = s.pend := rfl
@[simp] theorem dictReset_racc (s : State) : (dictReset s).racc = s.racc := rfl
@[simp] theorem dictReset_err (s : State) : (dictReset s).err = s.err := rfl
@[simp] theorem dictReset_einfo (s : State) : (dictReset s).einfo = s.einfo := rfl
@[simp] theorem dictReset_pfault (s : State) : (dictReset s).pfault = s.pfault := rfl
@[simp] theorem dictReset_pLat (s : State) : (dictReset s).pLat = s.pLat := rfl
@[simp] theorem dictReset_palette (s : State) : (dictReset s).palette = s.palette := rfl
@[simp] theorem dictReset_mem (s : State) : (dictReset s).mem = s.mem := rfl
@[simp] theorem dictReset_inq (s : State) : (dictReset s).inq = s.inq := rfl
@[simp] theorem dictReset_outq (s : State) : (dictReset s).outq = s.outq := rfl
@[simp] theorem dictReset_agenda (s : State) : (dictReset s).agenda = s.agenda := rfl
@[simp] theorem dictReset_readData (s : State) : (dictReset s).readData = s.readData := rfl
@[simp] theorem dictReset_popData (s : State) : (dictReset s).popData = s.popData := rfl
@[simp] theorem dictReset_draws (s : State) : (dictReset s).draws = s.draws + 1 := rfl

/-! ### opInit -/

@[simp] theorem opInit_cfg (s : State) : (opInit s).cfg = s.cfg := rfl
@[simp] theorem opInit_phase (s : State) : (opInit s).phase = s.phase := rfl
@[simp] theorem opInit_opk (s : State) : (opInit s).opk = s.opk := rfl
@[simp] theorem opInit_lastOp (s : State) : (opInit s).lastOp = s.lastOp := rfl
@[simp] theorem opInit_b (s : State) : (opInit s).b = 0 := rfl
@[simp] theorem opInit_n (s : State) : (opInit s).n = 0 := rfl
@[simp] theorem opInit_w (s : State) : (opInit s).w = 0 := rfl
@[simp] theorem opInit_jr (s : State) : (opInit s).jr = false := rfl
@[simp] theorem opInit_prev (s : State) : (opInit s).prev = s.prev := rfl
@[simp] theorem opInit_rcur (s : State) : (opInit s).rcur = 0 := rfl
@[simp] theorem opInit_wcur (s : State) : (opInit s).wcur = 0 := rfl
@[simp] theorem opInit_cand (s : State) : (opInit s).cand = Config.unspecifiedCand s.draws := rfl
@[simp] theorem opInit_candV (s : State) : (opInit s).candV = false := rfl
@[simp] theorem opInit_chunk (s : State) : (opInit s).chunk = [] := rfl
@[simp] theorem opInit_wacc (s : State) : (opInit s).wacc = [] := rfl
@[simp] theorem opInit_rem (s : State) : (opInit s).rem = 0 := rfl
@[simp] theorem opInit_pend (s : State) : (opInit s).pend = false := rfl
@[simp] theorem opInit_racc (s : State) : (opInit s).racc = [] := rfl
@[simp] theorem opInit_err (s : State) : (opInit s).err = .none := rfl
@[simp] theorem opInit_einfo (s : State) : (opInit s).einfo = 0 := rfl
@[simp] theorem opInit_pfault (s : State) : (opInit s).pfault = none := rfl
@[simp] theorem opInit_pLat (s : State) : (opInit s).pLat = s.pLat := rfl
@[simp] theorem opInit_palette (s : State) : (opInit s).palette = s.palette := rfl
@[simp] theorem opInit_mem (s : State) : (opInit s).mem = s.mem := rfl
@[simp] theorem opInit_inq (s : State) : (opInit s).inq = s.inq := rfl
@[simp] theorem opInit_outq (s : State) : (opInit s).outq = s.outq := rfl
@[simp] theorem opInit_agenda (s : State) : (opInit s).agenda = s.agenda := rfl
@[simp] theorem opInit_readData (s : State) : (opInit s).readData = s.readData := rfl
@[simp] theorem opInit_popData (s : State) : (opInit s).popData = s.popData := rfl
@[simp] theorem opInit_draws (s : State) : (opInit s).draws = s.draws + 1 := rfl

/-! ### endDataCode -/

@[simp] theorem endDataCode_cfg (c : Code) (s : State) : (endDataCode c s).cfg = s.cfg := rfl
@[simp] theorem endDataCode_phase (c : Code) (s : State) : (endDataCode c s).phase = s.phase := rfl
@[simp] theorem endDataCode_opk (c : Code) (s : State) : (endDataCode c s).opk = s.opk := rfl
@[simp] theorem endDataCode_lastOp (c : Code) (s : State) : (endDataCode c s).lastOp = s.lastOp := rfl
@[simp] theorem endDataCode_b (c : Code) (s : State) : (endDataCode c s).b = s.b := rfl
@[simp] theorem endDataCode_n (c : Code) (s : State) : (endDataCode c s).n = s.n := rfl
@[simp] theorem endDataCode_w (c : Code) (s : State) : (endDataCode c s).w = s.w := rfl
@[simp] theorem endDataCode_jr (c : Code) (s : State) : (endDataCode c s).jr = false := rfl
@[simp] theorem endDataCode_prev (c : Code) (s : State) : (endDataCode c s).prev = c := rfl
@[simp] theorem endDataCode_rcur (c : Code) (s : State) : (endDataCode c s).rcur = s.rcur := rfl
@[simp] theorem endDataCode_wcur (c : Code) (s : State) : (endDataCode c s).wcur = s.wcur := rfl
@[simp] theorem endDataCode_cand (c : Code) (s : State) : (endDataCode c s).cand = s.cand := rfl
@[simp] theorem endDataCode_candV (c : Code) (s : State) : (endDataCode c s).candV = s.candV := rfl
@[simp] theorem endDataCode_chunk (c : Code) (s : State) : (endDataCode c s).chunk = s.chunk := rfl
@[simp] theorem endDataCode_wacc (c : Code) (s : State) : (endDataCode c s).wacc = s.wacc := rfl
@[simp] theorem endDataCode_rem (c : Code) (s : State) : (endDataCode c s).rem = s.rem := rfl
@[simp] theorem endDataCode_pend (c : Code) (s : State) : (endDataCode c s).pend = s.pend := rfl
@[simp] theorem endDataCode_racc (c : Code) (s : State) : (endDataCode c s).racc = s.racc := rfl
@[simp] theorem endDataCode_err (c : Code) (s : State) : (endDataCode c s).err = s.err := rfl
@[simp] theorem endDataCode_einfo (c : Code) (s : State) : (endDataCode c s).einfo = s.einfo := rfl
@[simp] theorem endDataCode_pfault (c : Code) (s : State) : (endDataCode c s).pfault = s.pfault := rfl
@[simp] theorem endDataCode_pLat (c : Code) (s : State) : (endDataCode c s).pLat = s.pLat := rfl
@[simp] theorem endDataCode_palette (c : Code) (s : State) : (endDataCode c s).palette = s.palette := rfl
@[simp] theorem endDataCode_mem (c : Code) (s : State) : (endDataCode c s).mem = s.mem := rfl
@[simp] theorem endDataCode_inq (c : Code) (s : State) : (endDataCode c s).inq = s.inq := rfl
@[simp] theorem endDataCode_outq (c : Code) (s : State) : (endDataCode c s).outq = s.outq := rfl
@[simp] theorem endDataCode_agenda (c : Code) (s : State) : (endDataCode c s).agenda = s.agenda := rfl
@[simp] theorem endDataCode_readData (c : Code) (s : State) : (endDataCode c s).readData = s.readData := rfl
@[simp] theorem endDataCode_popData (c : Code) (s : State) : (endDataCode c s).popData = s.popData := rfl
@[simp] theorem endDataCode_draws (c : Code) (s : State) : (endDataCode c s).draws = s.draws := rfl

/-! ### takeTerminator -/

@[simp] theorem takeTerminator_cfg (s : State) : (takeTerminator s).cfg = s.cfg := rfl
@[simp] theorem takeTerminator_phase (s : State) : (takeTerminator s).phase = s.phase := rfl
@[simp] theorem takeTerminator_opk (s : State) : (takeTerminator s).opk = s.opk := rfl
@[simp] theorem takeTerminator_lastOp (s : State) : (takeTerminator s).lastOp = s.lastOp := rfl
@[simp] theorem takeTerminator_b (s : State) : (takeTerminator s).b = s.b := rfl
@[simp] theorem takeTerminator_n (s : State) : (takeTerminator s).n = s.n := rfl
@[simp] theorem takeTerminator_w (s : State) : (takeTerminator s).w = s.w := rfl
@[simp] theorem takeTerminator_jr (s : State) : (takeTerminator s).jr = s.jr := rfl
@[simp] theorem takeTerminator_prev (s : State) : (takeTerminator s).prev = s.prev := rfl
@[simp] theorem takeTerminator_rcur (s : State) : (takeTerminator s).rcur = s.rcur := rfl
@[simp] theorem takeTerminator_wcur (s : State) : (takeTerminator s).wcur = s.wcur := rfl
@[simp] theorem takeTerminator_cand (s : State) : (takeTerminator s).cand = s.cand := rfl
@[simp] theorem takeTerminator_candV (s : State) : (takeTerminator s).candV = s.candV := rfl
@[simp] theorem takeTerminator_chunk (s : State) : (takeTerminator s).chunk = s.chunk := rfl
@[simp] theorem takeTerminator_wacc (s : State) : (takeTerminator s).wacc = s.wacc := rfl
@[simp] theorem takeTerminator_rem (s : State) : (takeTerminator s).rem = s.rem := rfl
@[simp] theorem takeTerminator_pend (s : State) : (takeTerminator s).pend = true := rfl
@[simp] theorem takeTerminator_racc (s : State) : (takeTerminator s).racc = s.racc := rfl
@[simp] theorem takeTerminator_err (s : State) : (takeTerminator s).err = s.err := rfl
@[simp] theorem takeTerminator_einfo (s : State) : (takeTerminator s).einfo = s.einfo := rfl
@[simp] theorem takeTerminator_pfault (s : State) : (takeTerminator s).pfault = s.pfault := rfl
@[simp] theorem takeTerminator_pLat (s : State) : (takeTerminator s).pLat = s.pLat := rfl
@[simp] theorem takeTerminator_palette (s : State) : (takeTerminator s).palette = s.palette := rfl
@[simp] theorem takeTerminator_mem (s : State) : (takeTerminator s).mem = s.mem := rfl
@[simp] theorem takeTerminator_inq (s : State) : (takeTerminator s).inq = s.inq := rfl
@[simp] theorem takeTerminator_outq (s : State) : (takeTerminator s).outq = s.outq := rfl
@[simp] theorem takeTerminator_agenda (s : State) : (takeTerminator s).agenda = s.agenda := rfl
@[simp] theorem takeTerminator_readData (s : State) : (takeTerminator s).readData = s.readData := rfl
@[simp] theorem takeTerminator_popData (s : State) : (takeTerminator s).popData = s.popData := rfl
@[simp] theorem takeTerminator_draws (s : State) : (takeTerminator s).draws = s.draws := rfl

/-! ### takeLength -/

@[simp] theorem takeLength_cfg (len : Byte) (s : State) : (takeLength len s).cfg = s.cfg := rfl
@[simp] theorem takeLength_phase (len : Byte) (s : State) : (takeLength len s).phase = s.phase := rfl
@[simp] theorem takeLength_opk (len : Byte) (s : State) : (takeLength len s).opk = s.opk := rfl
@[simp] theorem takeLength_lastOp (len : Byte) (s : State) : (takeLength len s).lastOp = s.lastOp := rfl
@[simp] theorem takeLength_b (len : Byte) (s : State) : (takeLength len s).b = s.b := rfl
@[simp] theorem takeLength_n (len : Byte) (s : State) : (takeLength len s).n = s.n := rfl
@[simp] theorem takeLength_w (len : Byte) (s : State) : (takeLength len s).w = s.w := rfl
@[simp] theorem takeLength_jr (len : Byte) (s : State) : (takeLength len s).jr = s.jr := rfl
@[simp] theorem takeLength_prev (len : Byte) (s : State) : (takeLength len s).prev = s.prev := rfl
@[simp] theorem takeLength_rcur (len : Byte) (s : State) : (takeLength len s).rcur = s.rcur := rfl
@[simp] theorem takeLength_wcur (len : Byte) (s : State) : (takeLength len s).wcur = s.wcur := rfl
@[simp] theorem takeLength_cand (len : Byte) (s : State) : (takeLength len s).cand = s.cand := rfl
@[simp] theorem takeLength_candV (len : Byte) (s : State) : (takeLength len s).candV = s.candV := rfl
@[simp] theorem takeLength_chunk (len : Byte) (s : State) : (takeLength len s).chunk = s.chunk := rfl
@[simp] theorem takeLength_wacc (len : Byte) (s : State) : (takeLength len s).wacc = s.wacc := rfl
@[simp] theorem takeLength_rem (len : Byte) (s : State) : (takeLength len s).rem = len := rfl
@[simp] theorem takeLength_pend (len : Byte) (s : State) : (takeLength len s).pend = s.pend := rfl
@[simp] theorem takeLength_racc (len : Byte) (s : State) : (takeLength len s).racc = s.racc := rfl
@[simp] theorem takeLength_err (len : Byte) (s : State) : (takeLength len s).err = s.err := rfl
@[simp] theorem takeLength_einfo (len : Byte) (s : State) : (takeLength len s).einfo = s.einfo := rfl
@[simp] theorem takeLength_pfault (len : Byte) (s : State) : (takeLength len s).pfault = s.pfault := rfl
@[simp] theorem takeLength_pLat (len : Byte) (s : State) : (takeLength len s).pLat = s.pLat := rfl
@[simp] theorem takeLength_palette (len : Byte) (s : State) : (takeLength len s).palette = s.palette := rfl
@[simp] theorem takeLength_mem (len : Byte) (s : State) : (takeLength len s).mem = s.mem := rfl
@[simp] theorem takeLength_inq (len : Byte) (s : State) : (takeLength len s).inq = s.inq := rfl
@[simp] theorem takeLength_outq (len : Byte) (s : State) : (takeLength len s).outq = s.outq := rfl
@[simp] theorem takeLength_agenda (len : Byte) (s : State) : (takeLength len s).agenda = s.agenda := rfl
@[simp] theorem takeLength_readData (len : Byte) (s : State) : (takeLength len s).readData = s.readData := rfl
@[simp] theorem takeLength_popData (len : Byte) (s : State) : (takeLength len s).popData = s.popData := rfl
@[simp] theorem takeLength_draws (len : Byte) (s : State) : (takeLength len s).draws = s.draws := rfl

/-! ### Conditional updates -/

/-- What `encoderGrowth` leaves unchanged. -/
@[simp] theorem encoderGrowth_frame (s : State) :
    (encoderGrowth s).cfg = s.cfg ∧ (encoderGrowth s).phase = s.phase ∧
    (encoderGrowth s).opk = s.opk ∧ (encoderGrowth s).lastOp = s.lastOp ∧
    (encoderGrowth s).b = s.b ∧ (encoderGrowth s).n = s.n ∧
    (encoderGrowth s).jr = s.jr ∧ (encoderGrowth s).prev = s.prev ∧
    (encoderGrowth s).rcur = s.rcur ∧ (encoderGrowth s).wcur = s.wcur ∧
    (encoderGrowth s).cand = s.cand ∧ (encoderGrowth s).candV = s.candV ∧
    (encoderGrowth s).chunk = s.chunk ∧ (encoderGrowth s).wacc = s.wacc ∧
    (encoderGrowth s).rem = s.rem ∧ (encoderGrowth s).pend = s.pend ∧
    (encoderGrowth s).racc = s.racc ∧ (encoderGrowth s).err = s.err ∧
    (encoderGrowth s).einfo = s.einfo ∧ (encoderGrowth s).pfault = s.pfault ∧
    (encoderGrowth s).pLat = s.pLat ∧ (encoderGrowth s).palette = s.palette ∧
    (encoderGrowth s).mem = s.mem ∧ (encoderGrowth s).inq = s.inq ∧
    (encoderGrowth s).outq = s.outq ∧ (encoderGrowth s).agenda = s.agenda ∧
    (encoderGrowth s).readData = s.readData ∧ (encoderGrowth s).popData = s.popData ∧
    (encoderGrowth s).draws = s.draws := by
  unfold encoderGrowth; split <;> simp

/-- What `decoderGrowth` leaves unchanged. -/
@[simp] theorem decoderGrowth_frame (s : State) :
    (decoderGrowth s).cfg = s.cfg ∧ (decoderGrowth s).phase = s.phase ∧
    (decoderGrowth s).opk = s.opk ∧ (decoderGrowth s).lastOp = s.lastOp ∧
    (decoderGrowth s).b = s.b ∧ (decoderGrowth s).n = s.n ∧
    (decoderGrowth s).jr = s.jr ∧ (decoderGrowth s).prev = s.prev ∧
    (decoderGrowth s).rcur = s.rcur ∧ (decoderGrowth s).wcur = s.wcur ∧
    (decoderGrowth s).cand = s.cand ∧ (decoderGrowth s).candV = s.candV ∧
    (decoderGrowth s).chunk = s.chunk ∧ (decoderGrowth s).wacc = s.wacc ∧
    (decoderGrowth s).rem = s.rem ∧ (decoderGrowth s).pend = s.pend ∧
    (decoderGrowth s).racc = s.racc ∧ (decoderGrowth s).err = s.err ∧
    (decoderGrowth s).einfo = s.einfo ∧ (decoderGrowth s).pfault = s.pfault ∧
    (decoderGrowth s).pLat = s.pLat ∧ (decoderGrowth s).palette = s.palette ∧
    (decoderGrowth s).mem = s.mem ∧ (decoderGrowth s).inq = s.inq ∧
    (decoderGrowth s).outq = s.outq ∧ (decoderGrowth s).agenda = s.agenda ∧
    (decoderGrowth s).readData = s.readData ∧ (decoderGrowth s).popData = s.popData ∧
    (decoderGrowth s).draws = s.draws := by
  unfold decoderGrowth; split <;> simp

/-- What `finalGrowth` leaves unchanged. -/
@[simp] theorem finalGrowth_frame (s : State) :
    (finalGrowth s).cfg = s.cfg ∧ (finalGrowth s).phase = s.phase ∧
    (finalGrowth s).opk = s.opk ∧ (finalGrowth s).lastOp = s.lastOp ∧
    (finalGrowth s).b = s.b ∧ (finalGrowth s).n = s.n ∧
    (finalGrowth s).jr = s.jr ∧ (finalGrowth s).prev = s.prev ∧
    (finalGrowth s).rcur = s.rcur ∧ (finalGrowth s).wcur = s.wcur ∧
    (finalGrowth s).cand = s.cand ∧ (finalGrowth s).candV = s.candV ∧
    (finalGrowth s).chunk = s.chunk ∧ (finalGrowth s).wacc = s.wacc ∧
    (finalGrowth s).rem = s.rem ∧ (finalGrowth s).pend = s.pend ∧
    (finalGrowth s).racc = s.racc ∧ (finalGrowth s).err = s.err ∧
    (finalGrowth s).einfo = s.einfo ∧ (finalGrowth s).pfault = s.pfault ∧
    (finalGrowth s).pLat = s.pLat ∧ (finalGrowth s).palette = s.palette ∧
    (finalGrowth s).mem = s.mem ∧ (finalGrowth s).inq = s.inq ∧
    (finalGrowth s).outq = s.outq ∧ (finalGrowth s).agenda = s.agenda ∧
    (finalGrowth s).readData = s.readData ∧ (finalGrowth s).popData = s.popData ∧
    (finalGrowth s).draws = s.draws := by
  unfold finalGrowth; split <;> simp

/-- What `raise` leaves unchanged. -/
@[simp] theorem raise_frame (c : ErrCode) (info : BitVec 16) (s : State) :
    (raise c info s).cfg = s.cfg ∧ (raise c info s).lastOp = s.lastOp ∧
    (raise c info s).b = s.b ∧ (raise c info s).n = s.n ∧
    (raise c info s).w = s.w ∧ (raise c info s).jr = s.jr ∧
    (raise c info s).prev = s.prev ∧ (raise c info s).rcur = s.rcur ∧
    (raise c info s).wcur = s.wcur ∧ (raise c info s).cand = s.cand ∧
    (raise c info s).candV = s.candV ∧ (raise c info s).chunk = s.chunk ∧
    (raise c info s).wacc = s.wacc ∧ (raise c info s).rem = s.rem ∧
    (raise c info s).pend = s.pend ∧ (raise c info s).racc = s.racc ∧
    (raise c info s).pLat = s.pLat ∧ (raise c info s).palette = s.palette ∧
    (raise c info s).mem = s.mem ∧ (raise c info s).inq = s.inq ∧
    (raise c info s).outq = s.outq ∧ (raise c info s).agenda = s.agenda ∧
    (raise c info s).readData = s.readData ∧ (raise c info s).popData = s.popData ∧
    (raise c info s).draws = s.draws := by
  unfold raise; split <;> simp

/-- What `finishFault` leaves unchanged. -/
@[simp] theorem finishFault_frame (s : State) :
    (finishFault s).cfg = s.cfg ∧ (finishFault s).opk = s.opk ∧
    (finishFault s).lastOp = s.lastOp ∧ (finishFault s).b = s.b ∧
    (finishFault s).n = s.n ∧ (finishFault s).w = s.w ∧
    (finishFault s).jr = s.jr ∧ (finishFault s).prev = s.prev ∧
    (finishFault s).rcur = s.rcur ∧ (finishFault s).wcur = s.wcur ∧
    (finishFault s).cand = s.cand ∧ (finishFault s).candV = s.candV ∧
    (finishFault s).chunk = s.chunk ∧ (finishFault s).wacc = s.wacc ∧
    (finishFault s).rem = s.rem ∧ (finishFault s).pend = s.pend ∧
    (finishFault s).racc = s.racc ∧ (finishFault s).pLat = s.pLat ∧
    (finishFault s).palette = s.palette ∧ (finishFault s).mem = s.mem ∧
    (finishFault s).inq = s.inq ∧ (finishFault s).outq = s.outq ∧
    (finishFault s).agenda = s.agenda ∧ (finishFault s).readData = s.readData ∧
    (finishFault s).popData = s.popData ∧ (finishFault s).draws = s.draws := by
  unfold finishFault; split <;> simp

/-- What `acknowledge` leaves unchanged. -/
@[simp] theorem acknowledge_frame (s : State) :
    (acknowledge s).cfg = s.cfg ∧ (acknowledge s).opk = s.opk ∧
    (acknowledge s).lastOp = s.lastOp ∧ (acknowledge s).b = s.b ∧
    (acknowledge s).n = s.n ∧ (acknowledge s).w = s.w ∧
    (acknowledge s).jr = s.jr ∧ (acknowledge s).prev = s.prev ∧
    (acknowledge s).rcur = s.rcur ∧ (acknowledge s).wcur = s.wcur ∧
    (acknowledge s).cand = s.cand ∧ (acknowledge s).candV = s.candV ∧
    (acknowledge s).chunk = s.chunk ∧ (acknowledge s).wacc = s.wacc ∧
    (acknowledge s).rem = s.rem ∧ (acknowledge s).pend = s.pend ∧
    (acknowledge s).racc = s.racc ∧ (acknowledge s).pfault = s.pfault ∧
    (acknowledge s).pLat = s.pLat ∧ (acknowledge s).palette = s.palette ∧
    (acknowledge s).mem = s.mem ∧ (acknowledge s).inq = s.inq ∧
    (acknowledge s).outq = s.outq ∧ (acknowledge s).agenda = s.agenda ∧
    (acknowledge s).readData = s.readData ∧ (acknowledge s).popData = s.popData ∧
    (acknowledge s).draws = s.draws := by
  unfold acknowledge; split <;> simp

/-- What `framePut` leaves unchanged. -/
@[simp] theorem framePut_frame (v : Byte) (s : State) :
    (framePut v s).cfg = s.cfg ∧ (framePut v s).phase = s.phase ∧
    (framePut v s).opk = s.opk ∧ (framePut v s).lastOp = s.lastOp ∧
    (framePut v s).b = s.b ∧ (framePut v s).n = s.n ∧
    (framePut v s).w = s.w ∧ (framePut v s).jr = s.jr ∧
    (framePut v s).prev = s.prev ∧ (framePut v s).rcur = s.rcur ∧
    (framePut v s).wcur = s.wcur ∧ (framePut v s).cand = s.cand ∧
    (framePut v s).candV = s.candV ∧ (framePut v s).wacc = s.wacc ∧
    (framePut v s).rem = s.rem ∧ (framePut v s).pend = s.pend ∧
    (framePut v s).racc = s.racc ∧ (framePut v s).err = s.err ∧
    (framePut v s).einfo = s.einfo ∧ (framePut v s).pfault = s.pfault ∧
    (framePut v s).pLat = s.pLat ∧ (framePut v s).palette = s.palette ∧
    (framePut v s).mem = s.mem ∧ (framePut v s).inq = s.inq ∧
    (framePut v s).agenda = s.agenda ∧ (framePut v s).readData = s.readData ∧
    (framePut v s).popData = s.popData ∧ (framePut v s).draws = s.draws := by
  unfold framePut; split <;> simp

/-- What `frameEnd` leaves unchanged. -/
@[simp] theorem frameEnd_frame (s : State) :
    (frameEnd s).cfg = s.cfg ∧ (frameEnd s).phase = s.phase ∧
    (frameEnd s).opk = s.opk ∧ (frameEnd s).lastOp = s.lastOp ∧
    (frameEnd s).b = s.b ∧ (frameEnd s).n = s.n ∧
    (frameEnd s).w = s.w ∧ (frameEnd s).jr = s.jr ∧
    (frameEnd s).prev = s.prev ∧ (frameEnd s).rcur = s.rcur ∧
    (frameEnd s).wcur = s.wcur ∧ (frameEnd s).cand = s.cand ∧
    (frameEnd s).candV = s.candV ∧ (frameEnd s).wacc = s.wacc ∧
    (frameEnd s).rem = s.rem ∧ (frameEnd s).pend = s.pend ∧
    (frameEnd s).racc = s.racc ∧ (frameEnd s).err = s.err ∧
    (frameEnd s).einfo = s.einfo ∧ (frameEnd s).pfault = s.pfault ∧
    (frameEnd s).pLat = s.pLat ∧ (frameEnd s).palette = s.palette ∧
    (frameEnd s).mem = s.mem ∧ (frameEnd s).inq = s.inq ∧
    (frameEnd s).agenda = s.agenda ∧ (frameEnd s).readData = s.readData ∧
    (frameEnd s).popData = s.popData ∧ (frameEnd s).draws = s.draws := by
  unfold frameEnd; split <;> simp

/-- What `writeBit` leaves unchanged. -/
@[simp] theorem writeBit_frame (bit : Bool) (s : State) :
    (writeBit bit s).cfg = s.cfg ∧ (writeBit bit s).phase = s.phase ∧
    (writeBit bit s).opk = s.opk ∧ (writeBit bit s).lastOp = s.lastOp ∧
    (writeBit bit s).b = s.b ∧ (writeBit bit s).n = s.n ∧
    (writeBit bit s).w = s.w ∧ (writeBit bit s).jr = s.jr ∧
    (writeBit bit s).prev = s.prev ∧ (writeBit bit s).rcur = s.rcur ∧
    (writeBit bit s).cand = s.cand ∧ (writeBit bit s).candV = s.candV ∧
    (writeBit bit s).rem = s.rem ∧ (writeBit bit s).pend = s.pend ∧
    (writeBit bit s).racc = s.racc ∧ (writeBit bit s).err = s.err ∧
    (writeBit bit s).einfo = s.einfo ∧ (writeBit bit s).pfault = s.pfault ∧
    (writeBit bit s).pLat = s.pLat ∧ (writeBit bit s).palette = s.palette ∧
    (writeBit bit s).mem = s.mem ∧ (writeBit bit s).inq = s.inq ∧
    (writeBit bit s).agenda = s.agenda ∧ (writeBit bit s).readData = s.readData ∧
    (writeBit bit s).popData = s.popData ∧ (writeBit bit s).draws = s.draws := by
  unfold writeBit; split <;> simp

/-- What `writeBitList` leaves unchanged. -/
@[simp] theorem writeBitList_frame (bits : List Bool) (s : State) :
    (writeBitList bits s).cfg = s.cfg ∧ (writeBitList bits s).phase = s.phase ∧
    (writeBitList bits s).opk = s.opk ∧ (writeBitList bits s).lastOp = s.lastOp ∧
    (writeBitList bits s).b = s.b ∧ (writeBitList bits s).n = s.n ∧
    (writeBitList bits s).w = s.w ∧ (writeBitList bits s).jr = s.jr ∧
    (writeBitList bits s).prev = s.prev ∧ (writeBitList bits s).rcur = s.rcur ∧
    (writeBitList bits s).cand = s.cand ∧ (writeBitList bits s).candV = s.candV ∧
    (writeBitList bits s).rem = s.rem ∧ (writeBitList bits s).pend = s.pend ∧
    (writeBitList bits s).racc = s.racc ∧ (writeBitList bits s).err = s.err ∧
    (writeBitList bits s).einfo = s.einfo ∧ (writeBitList bits s).pfault = s.pfault ∧
    (writeBitList bits s).pLat = s.pLat ∧ (writeBitList bits s).palette = s.palette ∧
    (writeBitList bits s).mem = s.mem ∧ (writeBitList bits s).inq = s.inq ∧
    (writeBitList bits s).agenda = s.agenda ∧ (writeBitList bits s).readData = s.readData ∧
    (writeBitList bits s).popData = s.popData ∧ (writeBitList bits s).draws = s.draws := by
  induction bits generalizing s with
  | nil => simp [writeBitList]
  | cons bit bits ih => simp only [writeBitList]; simpa using ih (writeBit bit s)

/-- What `writeBits` leaves unchanged. -/
@[simp] theorem writeBits_frame (v w : Nat) (s : State) :
    (writeBits v w s).cfg = s.cfg ∧ (writeBits v w s).phase = s.phase ∧
    (writeBits v w s).opk = s.opk ∧ (writeBits v w s).lastOp = s.lastOp ∧
    (writeBits v w s).b = s.b ∧ (writeBits v w s).n = s.n ∧
    (writeBits v w s).w = s.w ∧ (writeBits v w s).jr = s.jr ∧
    (writeBits v w s).prev = s.prev ∧ (writeBits v w s).rcur = s.rcur ∧
    (writeBits v w s).cand = s.cand ∧ (writeBits v w s).candV = s.candV ∧
    (writeBits v w s).rem = s.rem ∧ (writeBits v w s).pend = s.pend ∧
    (writeBits v w s).racc = s.racc ∧ (writeBits v w s).err = s.err ∧
    (writeBits v w s).einfo = s.einfo ∧ (writeBits v w s).pfault = s.pfault ∧
    (writeBits v w s).pLat = s.pLat ∧ (writeBits v w s).palette = s.palette ∧
    (writeBits v w s).mem = s.mem ∧ (writeBits v w s).inq = s.inq ∧
    (writeBits v w s).agenda = s.agenda ∧ (writeBits v w s).readData = s.readData ∧
    (writeBits v w s).popData = s.popData ∧ (writeBits v w s).draws = s.draws := by
  simp [writeBits]

/-- What `flush` leaves unchanged. -/
@[simp] theorem flush_frame (s : State) :
    (flush s).cfg = s.cfg ∧ (flush s).phase = s.phase ∧
    (flush s).opk = s.opk ∧ (flush s).lastOp = s.lastOp ∧
    (flush s).b = s.b ∧ (flush s).n = s.n ∧
    (flush s).w = s.w ∧ (flush s).jr = s.jr ∧
    (flush s).prev = s.prev ∧ (flush s).rcur = s.rcur ∧
    (flush s).cand = s.cand ∧ (flush s).candV = s.candV ∧
    (flush s).rem = s.rem ∧ (flush s).pend = s.pend ∧
    (flush s).racc = s.racc ∧ (flush s).err = s.err ∧
    (flush s).einfo = s.einfo ∧ (flush s).pfault = s.pfault ∧
    (flush s).pLat = s.pLat ∧ (flush s).palette = s.palette ∧
    (flush s).mem = s.mem ∧ (flush s).inq = s.inq ∧
    (flush s).agenda = s.agenda ∧ (flush s).readData = s.readData ∧
    (flush s).popData = s.popData ∧ (flush s).draws = s.draws := by
  unfold flush; split <;> simp

/-! ### The constants of a base width follow `B` alone -/

theorem clearCode_of_b {s t : State} (h : t.b = s.b) : t.clearCode = s.clearCode := by
  simp [State.clearCode, h]

theorem eoiCode_of_b {s t : State} (h : t.b = s.b) : t.eoiCode = s.eoiCode := by
  simp [State.eoiCode, h]

theorem firstLearned_of_b {s t : State} (h : t.b = s.b) : t.firstLearned = s.firstLearned := by
  simp [State.firstLearned, h]

end Sys2Proof.Machine
end

