-- ==== Sys2Proof/Laws/Dictionary.lean ====
section
/-! SUPPORT. The dictionary engine: what `seq` and `first` depend on, what an epoch reset, an add and a width test do to a
sound dictionary. -/

namespace Sys2Proof.Machine

/-! ## The registers as numbers -/

theorem n_succ {s : State} (h : s.n.toNat < 4096) : (s.n + 1).toNat = s.n.toNat + 1 := by
  rw [BitVec.toNat_add]
  simp
  omega

theorem w_succ {s : State} (h : s.w.toNat < 12) : (s.w + 1).toNat = s.w.toNat + 1 := by
  rw [BitVec.toNat_add]
  simp
  omega

theorem two_pow_b_bounds {s : State} (h : 2 ≤ s.b.toNat ∧ s.b.toNat ≤ 8) : 4 ≤ 2 ^ s.b.toNat ∧ 2 ^ s.b.toNat ≤ 256 :=
  ⟨Nat.pow_le_pow_right (n := 2) (by omega) h.1, Nat.pow_le_pow_right (n := 2) (by omega) h.2⟩

/-! ## What the dictionary reads depend on -/

theorem clearCode_lt_firstLearned (s : State) : s.clearCode < s.firstLearned := by
  unfold State.clearCode State.firstLearned; omega

/-- A code of the dictionary that is no control code is a literal or a learned code (R51). -/
theorem dataCode_cases {s : State} {c : Nat} (h : s.dataCode c) : c < s.clearCode ∨ s.firstLearned ≤ c := by
  obtain ⟨-, h1, h2⟩ := h
  unfold State.clearCode State.eoiCode State.firstLearned at *
  omega

theorem dataCode_literal {s : State} (hd : DictOk s) {c : Nat} (h : c < s.clearCode) : s.dataCode c := by
  have := hd.size.1
  unfold State.dataCode State.clearCode State.eoiCode State.firstLearned at *
  omega

theorem dataCode_learned {s : State} {c : Nat} (h1 : s.firstLearned ≤ c) (h2 : c < s.n.toNat) : s.dataCode c := by
  unfold State.dataCode State.clearCode State.eoiCode State.firstLearned at *
  omega

/-- `t`'s dictionary holds at least `s`'s: the same base width, and every valid slot of `s` with the same entry. -/
structure Extends (s t : State) : Prop where
  base : t.b = s.b
  size : s.n.toNat ≤ t.n.toNat
  slots : ∀ c, s.firstLearned ≤ c → c < s.n.toNat → t.mem.read c = s.mem.read c

theorem Extends.of_eq {s t : State} (hb : t.b = s.b) (hn : t.n = s.n) (hm : t.mem = s.mem) : Extends s t :=
  ⟨hb, by rw [hn], fun _ _ _ => by rw [hm]⟩

theorem Extends.dictRead {s t : State} (h : Extends s t) {c : Nat} {e : Entry} (he : dictRead s c = some e) :
    Machine.dictRead t c = some e := by
  unfold Machine.dictRead at *
  split at he
  · rename_i hc
    rw [if_pos ⟨by rw [firstLearned_of_b h.base]; exact hc.1, Nat.lt_of_lt_of_le hc.2 h.size⟩, h.slots c hc.1 hc.2, he]
  · simp at he

theorem Extends.firstOf {s t : State} (h : Extends s t) {c : Nat} {f : Byte} (hf : firstOf s c = some f) :
    Machine.firstOf t c = some f := by
  unfold Machine.firstOf at *
  rw [clearCode_of_b h.base]
  split at hf
  · rename_i hc
    rw [if_pos hc, hf]
  · rename_i hc
    rw [if_neg hc]
    split at hf
    · simp at hf
    · rename_i e he
      simpa [h.dictRead he] using hf

theorem seqUpTo_succ (s : State) (k c : Nat) :
    seqUpTo s (k + 1) c = if c < s.clearCode then some [BitVec.ofNat 8 c]
      else match dictRead s c with
        | none => none
        | some e =>
          match seqUpTo s k e.pfx.toNat with
          | none => none
          | some q => some (q ++ [e.sfx]) := rfl

theorem Extends.seqUpTo {s t : State} (h : Extends s t) {k c : Nat} {q : List Byte} (hq : seqUpTo s k c = some q) :
    Machine.seqUpTo t k c = some q := by
  induction k generalizing c q with
  | zero => simp [Machine.seqUpTo] at hq
  | succ k ih =>
    rw [seqUpTo_succ] at hq ⊢
    rw [clearCode_of_b h.base]
    split at hq
    · rename_i hc
      rw [if_pos hc, hq]
    · rename_i hc
      rw [if_neg hc]
      split at hq
      · simp at hq
      · rename_i e he
        simp only [h.dictRead he]
        split at hq
        · simp at hq
        · rename_i q' hq'
          simp only [ih hq', hq]

theorem Extends.seqOf {s t : State} (h : Extends s t) {c : Nat} {q : List Byte} (hq : seqOf s c = some q) :
    Machine.seqOf t c = some q := h.seqUpTo hq

theorem Extends.dataCode {s t : State} (h : Extends s t) {c : Nat} (hc : s.dataCode c) : t.dataCode c := by
  unfold State.dataCode at *
  rw [clearCode_of_b h.base, eoiCode_of_b h.base]
  exact ⟨Nat.lt_of_lt_of_le hc.1 h.size, hc.2⟩

/-- More fuel changes nothing. -/
theorem seqUpTo_mono {s : State} {k k' c : Nat} {q : List Byte} (h : seqUpTo s k c = some q) (hk : k ≤ k') :
    seqUpTo s k' c = some q := by
  induction k generalizing k' c q with
  | zero => simp [seqUpTo] at h
  | succ k ih =>
    obtain ⟨k', rfl⟩ : ∃ j, k' = j + 1 := ⟨k' - 1, by omega⟩
    rw [seqUpTo_succ] at h ⊢
    split at h
    · rename_i hc
      rw [if_pos hc, h]
    · rename_i hc
      rw [if_neg hc]
      split at h
      · simp at h
      · rename_i e he
        split at h
        · simp at h
        · rename_i q' hq'
          simp only [ih hq' (by omega : k ≤ k'), h]

/-- R120 at a literal. -/
theorem seqOf_literal {s : State} {c : Nat} (h : c < s.clearCode) : seqOf s c = some [BitVec.ofNat 8 c] := by
  simp [seqOf, seqUpTo, h]

/-- R121 at a literal. -/
theorem firstOf_literal {s : State} {c : Nat} (h : c < s.clearCode) : firstOf s c = some (BitVec.ofNat 8 c) := by
  simp [firstOf, h]

/-- R37, R126: the slot of a learned code. -/
theorem DictOk.entry {s : State} (hd : DictOk s) {c : Nat} (h1 : s.firstLearned ≤ c) (h2 : c < s.n.toNat) :
    ∃ e, s.mem.read c = some e ∧ dictRead s c = some e ∧ firstOf s c = some e.fst ∧ e.pfx.toNat < c ∧
      s.dataCode e.pfx.toNat ∧ firstOf s e.pfx.toNat = some e.fst := by
  obtain ⟨e, he, hp, hdc, hf⟩ := hd.entries c h1 h2
  have hr : dictRead s c = some e := by rw [dictRead, if_pos ⟨h1, h2⟩, he]
  have hc : ¬ c < s.clearCode := by
    have := clearCode_lt_firstLearned s
    omega
  exact ⟨e, he, hr, by simp [firstOf, hc, hr], hp, hdc, hf⟩

/-- R120 at a learned code: the sequence of its prefix, then its suffix. -/
theorem seqOf_learned {s : State} {c : Nat} {e : Entry} {q : List Byte} (hr : dictRead s c = some e)
    (hp : e.pfx.toNat < c) (hq : seqOf s e.pfx.toNat = some q) : seqOf s c = some (q ++ [e.sfx]) := by
  have hc : ¬ c < s.clearCode := by
    unfold dictRead at hr
    split at hr
    · rename_i h
      have := clearCode_lt_firstLearned s
      omega
    · simp at hr
  have := seqUpTo_mono (k' := c) hq (by omega)
  simp [seqOf, seqUpTo, hc, hr, this]

/-- R151: `seq` and `first` are defined for every data code, and `first(c) = head(seq(c))` (R121). -/
theorem DictOk.seq_defined {s : State} (hd : DictOk s) {c : Nat} (hc : s.dataCode c) :
    ∃ f q, firstOf s c = some f ∧ seqOf s c = some (f :: q) := by
  induction c using Nat.strong_induction_on with
  | _ c ih =>
    rcases dataCode_cases hc with h | h
    · exact ⟨_, [], firstOf_literal h, seqOf_literal h⟩
    · obtain ⟨e, -, hr, hf, hp, hdc, hfp⟩ := hd.entry h hc.1
      obtain ⟨f, q, hf', hq⟩ := ih _ hp hdc
      rw [hfp] at hf'
      obtain rfl := Option.some.inj hf'
      exact ⟨e.fst, q ++ [e.sfx], hf, seqOf_learned hr hp hq⟩

/-! ## Epoch reset (R124) -/

theorem firstLearned_toNat {s : State} (h : 2 ≤ s.b.toNat ∧ s.b.toNat ≤ 8) :
    (BitVec.ofNat 13 s.firstLearned).toNat = s.firstLearned := by
  have := two_pow_b_bounds h
  rw [BitVec.toNat_ofNat]
  unfold State.firstLearned
  omega

theorem b_succ {s : State} (h : 2 ≤ s.b.toNat ∧ s.b.toNat ≤ 8) : (s.b + 1).toNat = s.b.toNat + 1 := by
  rw [BitVec.toNat_add]
  simp
  omega

theorem dictReset_n_toNat {s : State} (h : 2 ≤ s.b.toNat ∧ s.b.toNat ≤ 8) : (dictReset s).n.toNat = s.firstLearned :=
  firstLearned_toNat h

theorem dictReset_w_toNat {s : State} (h : 2 ≤ s.b.toNat ∧ s.b.toNat ≤ 8) : (dictReset s).w.toNat = s.b.toNat + 1 :=
  b_succ h

/-- An epoch reset leaves a sound dictionary, whatever the RAM holds (R125). -/
theorem dictReset_dictOk {s : State} (h : 2 ≤ s.b.toNat ∧ s.b.toNat ≤ 8) : DictOk (dictReset s) := by
  have hb := two_pow_b_bounds h
  have hn := dictReset_n_toNat h
  have hw := dictReset_w_toNat h
  have hf : (dictReset s).firstLearned = s.firstLearned := rfl
  refine ⟨h, ?_, ?_, ?_⟩
  · rw [hn, hf]
    unfold State.firstLearned
    omega
  · rw [hw, dictReset_b]
    omega
  · intro c h1 h2
    rw [hn] at h2
    rw [hf] at h1
    omega

theorem bitlen_firstLearned {s : State} (h : 2 ≤ s.b.toNat ∧ s.b.toNat ≤ 8) :
    bitlen s.firstLearned = s.b.toNat + 1 ∧ bitlen (s.firstLearned - 1) = s.b.toNat + 1 := by
  have := two_pow_b_bounds h
  unfold State.firstLearned
  have h2 : 2 ^ (s.b.toNat + 1) = 2 ^ s.b.toNat * 2 := Nat.pow_succ ..
  constructor <;> apply bitlen_eq <;> omega

/-- After an epoch reset the decoder's invariant holds (R151). -/
theorem dictReset_decoderOk {s : State} (h : 2 ≤ s.b.toNat ∧ s.b.toNat ≤ 8) : DecoderOk (dictReset s) := by
  refine ⟨dictReset_dictOk h, ?_, ?_, ?_⟩
  · rw [dictReset_w_toNat h, dictReset_n_toNat h, (bitlen_firstLearned h).1]
    omega
  · simp
  · intro _
    rw [dictReset_n_toNat h]
    rfl

/-! ## Adding an entry (R126) -/

theorem dictAdd_extends (p : Code) (x f : Byte) {s : State} (hn : s.n.toNat < 4096) : Extends s (dictAdd p x f s) := by
  refine ⟨rfl, ?_, ?_⟩
  · rw [dictAdd_n, n_succ hn]
    omega
  · intro c h1 h2
    rw [dictAdd_mem, Memory.read_write_other]
    omega

theorem dictAdd_entry (p : Code) (x f : Byte) (s : State) :
    (dictAdd p x f s).mem.read s.n.toNat = some { pfx := p, sfx := x, fst := f } := by
  rw [dictAdd_mem, Memory.read_write_same]

/-- An add of `seq(p) ++ [x]` with `f = first(p)` keeps the dictionary sound. -/
theorem dictAdd_dictOk {p : Code} {x f : Byte} {s : State} (hd : DictOk s) (hn : s.n.toNat < 4096)
    (hp : s.dataCode p.toNat) (hf : firstOf s p.toNat = some f) : DictOk (dictAdd p x f s) := by
  have hx := dictAdd_extends p x f hn
  have hs : (dictAdd p x f s).n.toNat = s.n.toNat + 1 := by rw [dictAdd_n, n_succ hn]
  have hfl : (dictAdd p x f s).firstLearned = s.firstLearned := rfl
  refine ⟨hd.base, ?_, hd.width, ?_⟩
  · rw [hs, hfl]
    have := hd.size
    omega
  · intro c h1 h2
    rw [hs] at h2
    rw [hfl] at h1
    by_cases hc : c = s.n.toNat
    · subst hc
      exact ⟨_, dictAdd_entry p x f s, hp.1, hx.dataCode hp, hx.firstOf hf⟩
    · obtain ⟨e, he, hlt, hdc, hfe⟩ := hd.entries c h1 (by omega)
      exact ⟨e, by rw [hx.slots c h1 (by omega), he], hlt, hx.dataCode hdc, hx.firstOf hfe⟩

/-! ## Width tests (R127, R128, R166) -/

/-- A sound dictionary depends on `B`, `N`, `W` and the valid slots alone. -/
theorem DictOk.of_same {s t : State} (hd : DictOk s) (hb : t.b = s.b) (hn : t.n = s.n)
    (hm : ∀ c, s.firstLearned ≤ c → c < s.n.toNat → t.mem.read c = s.mem.read c)
    (hw : s.w.toNat ≤ t.w.toNat ∧ t.w.toNat ≤ 12) : DictOk t := by
  have hx : Extends s t := ⟨hb, by rw [hn], hm⟩
  have hf := firstLearned_of_b hb
  refine ⟨by rw [hb]; exact hd.base, by rw [hf, hn]; exact hd.size, ?_, ?_⟩
  · have := hd.width
    rw [hb]
    omega
  · intro c h1 h2
    rw [hf] at h1
    rw [hn] at h2
    obtain ⟨e, he, hlt, hdc, hfe⟩ := hd.entries c h1 h2
    exact ⟨e, by rw [hm c h1 h2, he], hlt, hx.dataCode hdc, hx.firstOf hfe⟩

theorem decoderGrowth_n (s : State) : (decoderGrowth s).n = s.n := by simp

theorem encoderGrowth_n (s : State) : (encoderGrowth s).n = s.n := by simp

theorem decoderGrowth_w {s : State} :
    (decoderGrowth s).w.toNat = if 2 ^ s.w.toNat ≤ s.n.toNat ∧ s.w.toNat < 12 then s.w.toNat + 1 else s.w.toNat := by
  unfold decoderGrowth
  split
  · rename_i h
    exact w_succ h.2
  · rfl

theorem encoderGrowth_w {s : State} :
    (encoderGrowth s).w.toNat = if 2 ^ s.w.toNat < s.n.toNat ∧ s.w.toNat < 12 then s.w.toNat + 1 else s.w.toNat := by
  unfold encoderGrowth
  split
  · rename_i h
    exact w_succ h.2
  · rfl

theorem finalGrowth_w {s : State} :
    (finalGrowth s).w.toNat = if s.n.toNat = 2 ^ s.w.toNat ∧ s.w.toNat < 12 then s.w.toNat + 1 else s.w.toNat := by
  unfold finalGrowth
  split
  · rename_i h
    exact w_succ h.2
  · rfl

/-- The closed form of the width moves with `N` by one test (R78, R128). -/
theorem closed_width_succ {w n : Nat} (h : w = min 12 (bitlen n)) :
    (if 2 ^ w ≤ n + 1 ∧ w < 12 then w + 1 else w) = min 12 (bitlen (n + 1)) := by
  have hmono : bitlen n ≤ bitlen (n + 1) := by
    have h1 : n + 1 < 2 ^ bitlen (n + 1) := bitlen_le.mp (Nat.le_refl _)
    exact bitlen_le.mpr (by omega)
  have hself : n < 2 ^ bitlen n := bitlen_le.mp (Nat.le_refl _)
  have hle : bitlen (n + 1) ≤ bitlen n + 1 := by
    rw [bitlen_le, Nat.pow_succ]
    omega
  split
  · rename_i hc
    have hw : w = bitlen n := by omega
    have hlt : w < bitlen (n + 1) := lt_bitlen.mpr hc.1
    omega
  · rename_i hc
    by_cases h12 : w < 12
    · have h2 : ¬ 2 ^ w ≤ n + 1 := fun h' => hc ⟨h', h12⟩
      have : bitlen (n + 1) ≤ w := bitlen_le.mpr (by omega)
      omega
    · omega

/-- The decoder's add keeps its width in closed form (R78, R128). -/
theorem decoder_add_width {p : Code} {x f : Byte} {s : State} (hn : s.n.toNat < 4096)
    (hw : s.w.toNat = min 12 (bitlen s.n.toNat)) :
    (decoderGrowth (dictAdd p x f s)).w.toNat = min 12 (bitlen (decoderGrowth (dictAdd p x f s)).n.toNat) := by
  have hs : (decoderGrowth (dictAdd p x f s)).n.toNat = s.n.toNat + 1 := by
    rw [decoderGrowth_n, dictAdd_n, n_succ hn]
  rw [decoderGrowth_w, hs]
  simp only [dictAdd_n, dictAdd_w, n_succ hn]
  exact closed_width_succ hw

/-- The encoder's add keeps its width in closed form (R78, R127). -/
theorem encoder_add_width {p : Code} {x f : Byte} {s : State} (hn : s.n.toNat < 4096) (h1 : 1 ≤ s.n.toNat)
    (hw : s.w.toNat = min 12 (bitlen (s.n.toNat - 1))) :
    (encoderGrowth (dictAdd p x f s)).w.toNat = min 12 (bitlen ((encoderGrowth (dictAdd p x f s)).n.toNat - 1)) := by
  have hs : (encoderGrowth (dictAdd p x f s)).n.toNat = s.n.toNat + 1 := by
    rw [encoderGrowth_n, dictAdd_n, n_succ hn]
  rw [encoderGrowth_w, hs]
  simp only [dictAdd_n, dictAdd_w, n_succ hn]
  have := closed_width_succ hw
  rw [Nat.sub_add_cancel h1] at this
  simpa [Nat.lt_succ_iff, Nat.lt_add_one_iff] using this

/-- A width test keeps a sound dictionary. -/
theorem decoderGrowth_dictOk {s : State} (hd : DictOk s) : DictOk (decoderGrowth s) := by
  refine hd.of_same (by simp) (by simp) (by simp) ?_
  have := hd.width
  rw [decoderGrowth_w]
  split <;> omega

theorem encoderGrowth_dictOk {s : State} (hd : DictOk s) : DictOk (encoderGrowth s) := by
  refine hd.of_same (by simp) (by simp) (by simp) ?_
  have := hd.width
  rw [encoderGrowth_w]
  split <;> omega

theorem finalGrowth_dictOk {s : State} (hd : DictOk s) : DictOk (finalGrowth s) := by
  refine hd.of_same (by simp) (by simp) (by simp) ?_
  have := hd.width
  rw [finalGrowth_w]
  split <;> omega

/-- `N` fits the decoder's width, or the width is 12 (R151). -/
theorem DecoderOk.fits {s : State} (h : DecoderOk s) : s.n.toNat < 2 ^ s.w.toNat ∨ s.w.toNat = 12 := by
  have hc := h.closedWidth
  by_cases h12 : s.w.toNat = 12
  · exact .inr h12
  · left
    exact bitlen_le.mp (by omega)

/-- Every valid code fits the encoder's width (R132). -/
theorem EncoderOk.fits {s : State} (h : EncoderOk s) : s.n.toNat ≤ 2 ^ s.w.toNat := by
  have hc := h.closedWidth
  have h1 := h.dict.size
  by_cases h12 : s.w.toNat = 12
  · rw [h12]
    omega
  · have : s.n.toNat - 1 < 2 ^ s.w.toNat := bitlen_le.mp (by omega)
    omega

/-! ## The encoder's lookup (R130) -/

theorem dictFind_some {s : State} {p : Code} {i : Byte} {c : Nat} (hm : s.mem.wf = true) (h : dictFind s p i = some c) :
    s.firstLearned ≤ c ∧ c < s.n.toNat ∧ ∃ e, s.mem.read c = some e ∧ e.pfx = p ∧ e.sfx = i := by
  obtain ⟨h1, h2, e, he, h3, h4⟩ := findEntry_some h
  exact ⟨h1, h2, e, Memory.read_of_mem hm he, h3, h4⟩

theorem dictFind_none {s : State} {p : Code} {i : Byte} (h : dictFind s p i = none) {c : Nat} {e : Entry}
    (h1 : s.firstLearned ≤ c) (h2 : c < s.n.toNat) (he : s.mem.read c = some e) : ¬ (e.pfx = p ∧ e.sfx = i) :=
  findEntry_none h (Memory.mem_of_read he) h1 h2

/-- The sequence of a learned code is its prefix's and one index more (R120, R122). -/
theorem seq_length_two {s : State} (hd : DictOk s) {c : Nat} (h1 : s.firstLearned ≤ c)
    (h2 : c < s.n.toNat) : ∃ e q, s.mem.read c = some e ∧ e.pfx.toNat < c ∧ s.dataCode e.pfx.toNat ∧
    seqOf s e.pfx.toNat = some q ∧ q ≠ [] ∧ seqOf s c = some (q ++ [e.sfx]) := by
  obtain ⟨e, he, hr, hf, hp, hdc, hfp⟩ := hd.entry h1 h2
  obtain ⟨f, q, hf', hq⟩ := hd.seq_defined hdc
  exact ⟨e, f :: q, he, hp, hdc, hq, by simp, seqOf_learned hr hp hq⟩

/-- Two codes of the encoder's dictionary never stand for the same sequence (R131). -/
theorem seq_inj {s : State} (h : EncoderOk s) : ∀ c d q, s.dataCode c → s.dataCode d → seqOf s c = some q →
    seqOf s d = some q → c = d := by
  intro c
  induction c using Nat.strong_induction_on with
  | _ c ih =>
    intro d q hc hd hq hq'
    have hb := two_pow_b_bounds h.dict.base
    rcases dataCode_cases hc with h1 | h1 <;> rcases dataCode_cases hd with h2 | h2
    · rw [seqOf_literal h1] at hq; rw [seqOf_literal h2] at hq'
      rw [← hq] at hq'
      simp at hq'
      unfold State.clearCode at h1 h2
      have := congrArg BitVec.toNat hq'
      simp at this
      omega
    · exfalso
      obtain ⟨e, q1, _, _, _, _, hne, hs⟩ := seq_length_two h.dict h2 hd.1
      rw [seqOf_literal h1] at hq
      rw [hs] at hq'
      rw [← hq] at hq'
      have := congrArg List.length (Option.some.inj hq')
      simp at this
      exact hne this
    · exfalso
      obtain ⟨e, q1, _, _, _, _, hne, hs⟩ := seq_length_two h.dict h1 hc.1
      rw [seqOf_literal h2] at hq'
      rw [hs] at hq
      rw [← hq] at hq'
      have := congrArg List.length (Option.some.inj hq')
      simp at this
      exact hne (by cases q1 <;> simp_all)
    · obtain ⟨e, q1, he, hp, hdc, hq1, hne, hs⟩ := seq_length_two h.dict h1 hc.1
      obtain ⟨e', q2, he', hp', hdc', hq2, hne', hs'⟩ := seq_length_two h.dict h2 hd.1
      rw [hs] at hq; rw [hs'] at hq'
      rw [← hq] at hq'
      have hj := List.append_inj' (Option.some.inj hq') rfl
      have hpp := ih _ hp _ q1 hdc hdc' hq1 (by rw [hq2, hj.1])
      exact h.unique c d e e' h1 hc.1 h2 hd.1 he he' (BitVec.eq_of_toNat_eq hpp)
          (by have := hj.2; simp at this; exact this.symm)

end Sys2Proof.Machine
end

