-- ==== Sys2Proof/Laws/Faults.lean ====
section
/-! SUPPORT. Taking a fault: the two things `raise` can do (R209, R186). -/

namespace Sys2Proof.Machine

/-- A code fault of the code loop is held (R186). -/
theorem raise_held {c : ErrCode} {i : BitVec 16} {s : State} (hp : s.phase = .run) (ho : s.opk = .decCodes)
    (hc : c = .badCode ∨ c = .outOfData) : raise c i s = { s with pfault := some (c, i), opk := .decDrain } := by
  unfold raise
  rw [if_pos ⟨hp, ho, hc⟩]

/-- Every other fault is taken at once (R209). -/
theorem raise_taken {c : ErrCode} {i : BitVec 16} {s : State}
    (hc : ¬ (s.phase = .run ∧ s.opk = .decCodes ∧ (c = .badCode ∨ c = .outOfData))) :
    raise c i s = { s with err := c, einfo := i, pfault := none, phase := .fault } := by
  unfold raise
  rw [if_neg hc]

end Sys2Proof.Machine
end

