-- ==== Sys2Proof/Laws/Input.lean ====
section
/-! SUPPORT. Taking operands from the input port: everything `FrameGet` and `ReadBits` can do, once. -/

namespace Sys2Proof.Machine

/-- `s'` is `s` after operands were taken from the input port: only the port and the registers of the decoder-side framer
and unpacker differ, the tokens taken are a prefix of the queue, and no more bits arrive than the tokens carry. -/
structure Took (s s' : State) : Prop where
  same : s' = { s with inq := s'.inq, rem := s'.rem, pend := s'.pend, racc := s'.racc, rcur := s'.rcur }
  tokens : ∃ t, s.inq = t ++ s'.inq
  bits : 8 * s'.inq.length + s'.racc.length ≤ 8 * s.inq.length + s.racc.length
  boundary : (s.pend = true → s.rem = 0) → s'.pend = true → s'.rem = 0

/-- What `Took` leaves unchanged. -/
theorem Took.fields {s s' : State} (h : Took s s') :
    s'.cfg = s.cfg ∧ s'.phase = s.phase ∧ s'.opk = s.opk ∧ s'.lastOp = s.lastOp ∧
    s'.b = s.b ∧ s'.n = s.n ∧ s'.w = s.w ∧ s'.jr = s.jr ∧
    s'.prev = s.prev ∧ s'.wcur = s.wcur ∧ s'.cand = s.cand ∧ s'.candV = s.candV ∧
    s'.chunk = s.chunk ∧ s'.wacc = s.wacc ∧ s'.err = s.err ∧ s'.einfo = s.einfo ∧
    s'.pfault = s.pfault ∧ s'.pLat = s.pLat ∧ s'.palette = s.palette ∧ s'.mem = s.mem ∧
    s'.outq = s.outq ∧ s'.agenda = s.agenda ∧ s'.readData = s.readData ∧ s'.popData = s.popData ∧
    s'.draws = s.draws := by
  rw [h.same]
  simp

theorem Took.refl (s : State) : Took s s := ⟨rfl, ⟨[], rfl⟩, Nat.le_refl _, fun h => h⟩

theorem Took.trans {s t u : State} (h1 : Took s t) (h2 : Took t u) : Took s u := by
  refine ⟨?_, ?_, Nat.le_trans h2.bits h1.bits, fun h => h2.boundary (h1.boundary h)⟩
  · have e1 := h1.same
    have e2 := h2.same
    rw [e2]
    rw [e1]
  · obtain ⟨a, ha⟩ := h1.tokens
    obtain ⟨b, hb⟩ := h2.tokens
    exact ⟨a ++ b, by rw [ha, hb, List.append_assoc]⟩

/-- What the chunk byte of `FrameGet` can do (R105). -/
theorem takeChunkByte_ok {s s' : State} {o : Option Byte} (h : takeChunkByte s = .ok o s') :
    ∃ v q, s.inq = .byte v :: q ∧ o = some v ∧ s' = { s with inq := q, rem := s.rem - 1 } := by
  unfold takeChunkByte at h
  split at h
  · cases h
  · cases h
  · rename_i v q hq
    cases h
    exact ⟨v, q, hq, rfl, rfl⟩

theorem takeChunkByte_raised {s s' : State} (h : takeChunkByte s = .raised s') :
    ∃ q, s.inq = .eof :: q ∧ s' = raise .ioFail 0 { s with inq := q } := by
  unfold takeChunkByte at h
  split at h
  · cases h
  · rename_i q hq
    cases h
    exact ⟨q, hq, rfl⟩
  · cases h

/-- `FrameGet` at the end of the payload (R105): `EOP`, with the terminator consumed. -/
theorem frameGet_eop {s s' : State} (h : frameGet s = .ok none s') :
    s'.pend = true ∧ s'.racc = s.racc ∧ s'.rcur = s.rcur ∧ Took s s' := by
  unfold frameGet at h
  split at h
  · rename_i hp
    cases h
    exact ⟨hp, rfl, rfl, Took.refl s⟩
  · split at h
    · rename_i hr
      split at h
      · cases h
      · cases h
      · rename_i v q hq
        split at h
        · cases h
          refine ⟨rfl, rfl, rfl, rfl, ⟨[.byte v], by simp [hq]⟩, ?_, fun _ _ => hr⟩
          simp [hq]
        · obtain ⟨_, _, _, h, _⟩ := takeChunkByte_ok h
          cases h
    · obtain ⟨_, _, _, h, _⟩ := takeChunkByte_ok h
      cases h

/-- `FrameGet` within the payload (R105): a byte, for at least one token. -/
theorem frameGet_byte {s s' : State} {v : Byte} (h : frameGet s = .ok (some v) s') :
    s.pend = false ∧ s'.pend = false ∧ s'.racc = s.racc ∧ s'.rcur = s.rcur ∧
      s' = { s with inq := s'.inq, rem := s'.rem } ∧ (∃ t, s.inq = t ++ s'.inq) ∧
      s'.inq.length + 1 ≤ s.inq.length := by
  unfold frameGet at h
  split at h
  · cases h
  · rename_i hp
    have hp : s.pend = false := by simpa using hp
    split at h
    · split at h
      · cases h
      · cases h
      · rename_i u q hq
        split at h
        · cases h
        · obtain ⟨x, r, hr, -, rfl⟩ := takeChunkByte_ok h
          simp only [takeLength_inq] at hr
          subst hr
          exact ⟨hp, hp, rfl, rfl, rfl, ⟨[.byte u, .byte x], by simp [hq]⟩, by simp [hq]⟩
    · obtain ⟨x, r, hr, -, rfl⟩ := takeChunkByte_ok h
      exact ⟨hp, hp, rfl, rfl, rfl, ⟨[.byte x], by simp [hr]⟩, by simp [hr]⟩

/-- `FrameGet` raises `IO_FAIL` alone, after taking the `End` (R103). -/
theorem frameGet_raised {s s' : State} (h : frameGet s = .raised s') :
    ∃ s1, Took s s1 ∧ s1.inq.length + 1 ≤ s.inq.length ∧ s1.racc = s.racc ∧ s' = raise .ioFail 0 s1 := by
  unfold frameGet at h
  split at h
  · cases h
  · rename_i hp
    have hp : s.pend = false := by simpa using hp
    split at h
    · split at h
      · cases h
      · rename_i hr q hq
        cases h
        refine ⟨{ s with inq := q }, ⟨rfl, ⟨[.eof], by simp [hq]⟩, by simp [hq], fun h => h⟩, by simp [hq], rfl, rfl⟩
      · rename_i u q hq
        split at h
        · cases h
        · obtain ⟨r, hr, rfl⟩ := takeChunkByte_raised h
          simp only [takeLength_inq] at hr
          subst hr
          refine ⟨{ (takeLength u { s with inq := .eof :: r }) with inq := r },
            ⟨rfl, ⟨[.byte u, .eof], by simp [hq]⟩, by simp [hq]; omega, ?_⟩, by simp [hq], rfl, rfl⟩
          intro _ h
          simp [hp] at h
    · obtain ⟨r, hr, rfl⟩ := takeChunkByte_raised h
      refine ⟨{ s with inq := r }, ⟨rfl, ⟨[.eof], by simp [hr]⟩, by simp [hr], fun h => h⟩, by simp [hr], rfl, rfl⟩

theorem frameGet_took {s s' : State} {o : Option Byte} (h : frameGet s = .ok o s') : Took s s' := by
  cases o with
  | none => exact (frameGet_eop h).2.2.2
  | some v =>
    obtain ⟨hp, hp', hra, hrc, hs, ht, hl⟩ := frameGet_byte h
    refine ⟨?_, ht, by rw [hra]; omega, fun _ h => by rw [hp'] at h; cases h⟩
    have h1 := congrArg State.pend hs
    have h2 := congrArg State.racc hs
    have h3 := congrArg State.rcur hs
    simp only at h1 h2 h3
    rw [hs]

/-- Everything the loop of `ReadBits` can do when it does not fault: only the input side moves, and with enough fuel
`RACC` holds the `w` bits, fewer than 8 of them beyond what is needed. -/
theorem fillBits_ok {w fuel : Nat} {s s' : State} (h : fillBits w fuel s = .ok () s') :
    Took s s' ∧ (w ≤ s.racc.length + 8 * fuel → w ≤ s'.racc.length) ∧
      (s'.racc.length < w + 8 ∨ s'.racc = s.racc) ∧ s'.rcur = s.rcur := by
  induction fuel generalizing s with
  | zero =>
    simp only [fillBits] at h
    cases h
    exact ⟨Took.refl _, by simp, .inr rfl, rfl⟩
  | succ fuel ih =>
    simp only [fillBits] at h
    split at h
    · rename_i hw
      cases h
      exact ⟨Took.refl _, fun _ => hw, .inr rfl, rfl⟩
    · rename_i hw
      split at h
      · cases h
      · cases h
      · cases h
      · rename_i v s1 hg
        obtain ⟨ht, hl, hr, hc⟩ := ih h
        obtain ⟨hp, hp', hra, hrc, hs, htk, hlen⟩ := frameGet_byte hg
        have h1 : Took s { s1 with racc := s1.racc ++ bitsOf v.toNat 8 } := by
          have := (frameGet_took hg).same
          refine ⟨?_, htk, ?_, ?_⟩
          · rw [this]
          · simp only [List.length_append, bitsOf_length, hra]
            omega
          · intro _ h
            rw [hp'] at h
            cases h
        refine ⟨h1.trans ht, ?_, ?_, ?_⟩
        · intro hx
          apply hl
          simp only [List.length_append, bitsOf_length, hra]
          omega
        · rcases hr with hr | hr
          · exact .inl hr
          · left
            rw [hr]
            simp only [List.length_append, bitsOf_length, hra]
            omega
        · rw [hc]
          exact hrc

/-- The faults of `ReadBits`: `IO_FAIL` after the `End` is taken, or `OUT_OF_DATA` once the terminator is consumed (R113,
R114); fewer than `w` bits are left waiting. -/
theorem fillBits_raised {w fuel : Nat} {s s' : State} (h : fillBits w fuel s = .raised s') :
    ∃ s1, Took s s1 ∧ s1.racc.length < w ∧
      (s' = raise .ioFail 0 s1 ∨ (s1.pend = true ∧ s' = raise .outOfData 0 s1)) := by
  induction fuel generalizing s with
  | zero => simp [fillBits] at h
  | succ fuel ih =>
    simp only [fillBits] at h
    split at h
    · cases h
    · rename_i hw
      split at h
      · cases h
      · rename_i s1 hg
        cases h
        obtain ⟨s2, ht, -, hra, hs⟩ := frameGet_raised hg
        exact ⟨s2, ht, by rw [hra]; omega, .inl hs⟩
      · rename_i s1 hg
        cases h
        obtain ⟨hp, hra, -, ht⟩ := frameGet_eop hg
        exact ⟨s1, ht, by rw [hra]; omega, .inr ⟨hp, rfl⟩⟩
      · rename_i v s1 hg
        obtain ⟨s2, ht, hl, hs⟩ := ih h
        obtain ⟨hp, hp', hra, hrc, hs1, htk, hlen⟩ := frameGet_byte hg
        refine ⟨s2, Took.trans ?_ ht, hl, hs⟩
        have := (frameGet_took hg).same
        refine ⟨?_, htk, ?_, ?_⟩
        · rw [this]
        · simp only [List.length_append, bitsOf_length, hra]
          omega
        · intro _ h
          rw [hp'] at h
          cases h

/-- Everything `ReadBits(w)` does when it answers a value (R113). -/
theorem readBits_ok {w : Nat} {s s' : State} {c : Nat} (h : readBits w s = .ok c s') :
    Took s s' ∧ c < 2 ^ w ∧ s'.rcur = s.rcur + w ∧
      8 * s'.inq.length + s'.racc.length + w ≤ 8 * s.inq.length + s.racc.length ∧
      (s'.racc.length < 8 ∨ s'.racc.length + w ≤ s.racc.length) := by
  unfold readBits at h
  split at h
  · cases h
  · cases h
  · rename_i s1 hf
    cases h
    obtain ⟨ht, hl, hr, hc⟩ := fillBits_ok hf
    have hw : w ≤ s1.racc.length := hl (by omega)
    refine ⟨⟨?_, ht.tokens, ?_, ht.boundary⟩, ?_, by simp [hc], ?_, ?_⟩
    · rw [ht.same]
    · have := ht.bits
      simp only [List.length_drop]
      omega
    · refine Nat.lt_of_lt_of_le (ofBits_lt _) (Nat.pow_le_pow_right (by omega) ?_)
      simp only [List.length_take]
      omega
    · have := ht.bits
      simp only [List.length_drop]
      omega
    · simp only [List.length_drop]
      rcases hr with hr | hr
      · left
        omega
      · right
        rw [hr] at hw ⊢
        omega

theorem readBits_raised {w : Nat} {s s' : State} (h : readBits w s = .raised s') :
    ∃ s1, Took s s1 ∧ s1.racc.length < w ∧
      (s' = raise .ioFail 0 s1 ∨ (s1.pend = true ∧ s' = raise .outOfData 0 s1)) := by
  unfold readBits at h
  split at h
  · cases h
  · rename_i s1 hf
    cases h
    exact fillBits_raised hf
  · cases h

end Sys2Proof.Machine
end

