-- ==== Sys2Proof/Laws/Packer.lean ====
section
/-! SUPPORT. The bit packer and the encoder-side framer: everything a write does, once, and what framing in pieces gives. -/

namespace Sys2Proof.Machine

/-- Full chunks as they are output: each with its length byte 255 (R101). -/
def fullChunks (cs : List (List Byte)) : List Byte := cs.flatMap (fun c => 255#8 :: c)

@[simp] theorem payloadBits_append (a b : List Byte) : payloadBits (a ++ b) = payloadBits a ++ payloadBits b := by
  simp [payloadBits]

@[simp] theorem fullChunks_append (a b : List (List Byte)) : fullChunks (a ++ b) = fullChunks a ++ fullChunks b := by
  simp [fullChunks]

theorem pendingBits_eq (s : State) : pendingBits s = payloadBits s.chunk ++ s.wacc := rfl

/-- `s'` is `s` after `bits` went into the code stream: only the packer, the framer's buffer and the output port differ;
whole chunks were output, and what was output, what is pending and what was pending fit together. -/
structure Wrote (bits : List Bool) (s s' : State) : Prop where
  same : s' = { s with chunk := s'.chunk, wacc := s'.wacc, wcur := s'.wcur, outq := s'.outq }
  stream : ∃ cs : List (List Byte), (∀ c ∈ cs, c.length = 255) ∧
    s'.outq = s.outq ++ (fullChunks cs).map OutItem.byte ∧
    payloadBits cs.flatten ++ pendingBits s' = pendingBits s ++ bits
  cursor : s'.wcur = s.wcur + bits.length
  chunk : s.chunk.length < 255 → s'.chunk.length < 255
  wacc : s.wacc.length < 8 → s'.wacc.length < 8

/-- What `Wrote` leaves unchanged. -/
theorem Wrote.fields {bits : List Bool} {s s' : State} (h : Wrote bits s s') :
    s'.cfg = s.cfg ∧ s'.phase = s.phase ∧ s'.opk = s.opk ∧ s'.lastOp = s.lastOp ∧
    s'.b = s.b ∧ s'.n = s.n ∧ s'.w = s.w ∧ s'.jr = s.jr ∧
    s'.prev = s.prev ∧ s'.rcur = s.rcur ∧ s'.cand = s.cand ∧ s'.candV = s.candV ∧
    s'.rem = s.rem ∧ s'.pend = s.pend ∧ s'.racc = s.racc ∧ s'.err = s.err ∧
    s'.einfo = s.einfo ∧ s'.pfault = s.pfault ∧ s'.pLat = s.pLat ∧ s'.palette = s.palette ∧
    s'.mem = s.mem ∧ s'.inq = s.inq ∧ s'.agenda = s.agenda ∧ s'.readData = s.readData ∧
    s'.popData = s.popData ∧ s'.draws = s.draws := by
  rw [h.same]
  simp

theorem Wrote.nil (s : State) : Wrote [] s s :=
  ⟨rfl, ⟨[], by simp, by simp [fullChunks], by simp [payloadBits]⟩, rfl, id, id⟩

theorem Wrote.trans {a b : List Bool} {s t u : State} (h1 : Wrote a s t) (h2 : Wrote b t u) : Wrote (a ++ b) s u := by
  refine ⟨?_, ?_, ?_, fun h => h2.chunk (h1.chunk h), fun h => h2.wacc (h1.wacc h)⟩
  · have e1 := h1.same
    have e2 := h2.same
    rw [e2]
    rw [e1]
  · obtain ⟨c1, l1, o1, p1⟩ := h1.stream
    obtain ⟨c2, l2, o2, p2⟩ := h2.stream
    refine ⟨c1 ++ c2, ?_, ?_, ?_⟩
    · intro c hc
      rcases List.mem_append.mp hc with hc | hc
      · exact l1 c hc
      · exact l2 c hc
    · rw [o2, o1]
      simp
    · rw [List.flatten_append, payloadBits_append, List.append_assoc, p2, ← List.append_assoc, p1, List.append_assoc]
  · rw [h2.cursor, h1.cursor, List.length_append]
    omega

/-- One payload byte into the framer (R101). -/
theorem framePut_stream (v : Byte) (s : State) :
    ∃ cs : List (List Byte), (∀ c ∈ cs, c.length = 255) ∧
      (framePut v s).outq = s.outq ++ (fullChunks cs).map OutItem.byte ∧
      cs.flatten ++ (framePut v s).chunk = s.chunk ++ [v] ∧
      (s.chunk.length < 255 → (framePut v s).chunk.length < 255) := by
  unfold framePut
  split
  · rename_i h
    exact ⟨[s.chunk ++ [v]], by simpa using h, by simp [fullChunks], by simp, by simp⟩
  · rename_i h
    refine ⟨[], by simp, by simp [fullChunks], by simp, ?_⟩
    intro h'
    simp only [List.length_append, List.length_cons, List.length_nil] at h ⊢
    omega

/-- One bit into the packer (R110). -/
theorem writeBit_wrote (bit : Bool) (s : State) : Wrote [bit] s (writeBit bit s) := by
  unfold writeBit
  split
  · rename_i h
    have hlt : ofBits (s.wacc ++ [bit]) < 256 := by
      have := ofBits_lt (s.wacc ++ [bit])
      rw [h] at this
      simpa using this
    have hb : bitsOf (BitVec.ofNat 8 (ofBits (s.wacc ++ [bit]))).toNat 8 = s.wacc ++ [bit] := by
      rw [BitVec.toNat_ofNat, Nat.mod_eq_of_lt hlt, ← h, bitsOf_ofBits]
    generalize hv : BitVec.ofNat 8 (ofBits (s.wacc ++ [bit])) = v at hb ⊢
    obtain ⟨cs, hl, ho, hc, hlen⟩ := framePut_stream v { s with wacc := [], wcur := s.wcur + 1 }
    refine ⟨?_, ⟨cs, hl, ho, ?_⟩, ?_, hlen, ?_⟩
    · unfold framePut
      split <;> rfl
    · have hw : (framePut v { s with wacc := [], wcur := s.wcur + 1 }).wacc = [] := by simp
      rw [pendingBits_eq, hw, List.append_nil, ← payloadBits_append, hc, pendingBits_eq]
      simp [payloadBits, hb]
    · simp
    · intro _
      simp
  · rename_i h
    refine ⟨rfl, ⟨[], by simp, by simp [fullChunks], by simp [payloadBits, pendingBits]⟩, rfl, id, ?_⟩
    intro h'
    simp only [List.length_append, List.length_cons, List.length_nil] at h ⊢
    omega

theorem writeBitList_wrote (bits : List Bool) (s : State) : Wrote bits s (writeBitList bits s) := by
  induction bits generalizing s with
  | nil => exact Wrote.nil s
  | cons bit bits ih => exact (writeBit_wrote bit s).trans (ih _)

/-- Everything `WriteBits(v, w)` does (R110). -/
theorem writeBits_wrote (v w : Nat) (s : State) : Wrote (bitsOf v w) s (writeBits v w s) := writeBitList_wrote _ s

/-- `WCUR mod 8` stays the number of pending bits (R29). -/
theorem Wrote.cursor_mod {bits : List Bool} {s s' : State} (h : Wrote bits s s') (hw : s.wcur % 8 = s.wacc.length)
    (h8 : s.wacc.length < 8) : s'.wcur % 8 = s'.wacc.length := by
  obtain ⟨cs, hl, -, hp⟩ := h.stream
  have hlen := congrArg List.length hp
  have hpb : ∀ bs : List Byte, (payloadBits bs).length = 8 * bs.length := by
    intro bs
    induction bs with
    | nil => rfl
    | cons b bs ih =>
      simp only [payloadBits, List.flatMap_cons, List.length_append, bitsOf_length] at ih ⊢
      simp only [ih, List.length_cons]
      omega
  simp only [pendingBits_eq, List.length_append, hpb] at hlen
  have := h.wacc h8
  rw [h.cursor]
  omega

/-- Everything `Flush()` does (R111): at most 7 zero bits, up to a byte boundary. -/
theorem flush_wrote (s : State) (h8 : s.wacc.length < 8) :
    Wrote (List.replicate ((8 - s.wacc.length) % 8) false) s (flush s) := by
  unfold flush
  split
  · rename_i h
    rw [Nat.mod_eq_of_lt (by omega)]
    exact writeBitList_wrote _ s
  · rename_i h
    have : s.wacc.length = 0 := by omega
    rw [this]
    exact Wrote.nil s

/-- After `Flush()` the code stream ends on a byte boundary (R111). -/
theorem flush_wacc (s : State) (hw : s.wcur % 8 = s.wacc.length) (h8 : s.wacc.length < 8) : (flush s).wacc = [] := by
  have hf := flush_wrote s h8
  have hm := hf.cursor_mod hw h8
  rw [hf.cursor, List.length_replicate] at hm
  have : (flush s).wacc.length = 0 := by omega
  exact List.length_eq_zero_iff.mp this

/-! ## Framing in pieces is framing at once (R100, R101, R104) -/

theorem frameUpTo_full {fuel : Nat} {c p : List Byte} (h : c.length = 255) :
    frameUpTo (fuel + 1) (c ++ p) = 255#8 :: (c ++ frameUpTo fuel p) := by
  have h1 : 255 ≤ (c ++ p).length := by
    rw [List.length_append]
    omega
  rw [frameUpTo, if_pos h1, ← h, List.take_left, List.drop_left]

theorem frameUpTo_last {fuel : Nat} {p : List Byte} (h : p.length < 255) :
    frameUpTo (fuel + 1) p = (if 0 < p.length then BitVec.ofNat 8 p.length :: p else []) ++ [0] := by
  rw [frameUpTo, if_neg (by omega)]
  split <;> simp

theorem frameUpTo_chunks {cs : List (List Byte)} {p : List Byte} {fuel : Nat} (hc : ∀ c ∈ cs, c.length = 255)
    (hp : p.length < 255) (hf : cs.length < fuel) :
    frameUpTo fuel (cs.flatten ++ p) =
      fullChunks cs ++ ((if 0 < p.length then BitVec.ofNat 8 p.length :: p else []) ++ [0]) := by
  induction cs generalizing fuel with
  | nil =>
    obtain ⟨fuel, rfl⟩ : ∃ k, fuel = k + 1 := ⟨fuel - 1, by simp at hf; omega⟩
    simp [frameUpTo_last hp, fullChunks]
  | cons c cs ih =>
    obtain ⟨fuel, rfl⟩ : ∃ k, fuel = k + 1 := ⟨fuel - 1, by simp at hf; omega⟩
    have h1 := ih (fuel := fuel) (fun x hx => hc x (by simp [hx])) (by simp at hf; omega)
    rw [List.flatten_cons, List.append_assoc, frameUpTo_full (hc c (by simp)), h1]
    simp [fullChunks]

/-- R100: full chunks, then the rest if any, then the terminator. -/
theorem frame_chunks {cs : List (List Byte)} {p : List Byte} (hc : ∀ c ∈ cs, c.length = 255) (hp : p.length < 255) :
    frame (cs.flatten ++ p) =
      fullChunks cs ++ ((if 0 < p.length then BitVec.ofNat 8 p.length :: p else []) ++ [0]) := by
  apply frameUpTo_chunks hc hp
  have : cs.length ≤ cs.flatten.length := by
    clear hp
    induction cs with
    | nil => simp
    | cons c cs ih =>
      have := hc c (by simp)
      have := ih (fun x hx => hc x (by simp [hx]))
      simp only [List.length_cons, List.flatten_cons, List.length_append]
      omega
  rw [List.length_append]
  omega

/-- Everything `FrameEnd()` does (R104). -/
theorem frameEnd_eq (s : State) :
    frameEnd s = { s with
      chunk := []
      outq := s.outq ++
        ((if 0 < s.chunk.length then BitVec.ofNat 8 s.chunk.length :: s.chunk else []) ++ [0]).map OutItem.byte } := by
  unfold frameEnd State.clen
  split
  · simp [outPut, outPutAll]
  · rename_i h
    have : s.chunk = [] := List.length_eq_zero_iff.mp (by omega)
    simp [outPut, this]

/-- A payload is full chunks and a rest below 255 bytes (R100). -/
theorem split_chunks (p : List Byte) : ∃ (cs : List (List Byte)) (r : List Byte), (∀ c ∈ cs, c.length = 255) ∧
    r.length < 255 ∧ p = cs.flatten ++ r := by
  induction hn : p.length using Nat.strong_induction_on generalizing p with
  | _ n ih =>
    by_cases h : p.length < 255
    · exact ⟨[], p, by simp, h, by simp⟩
    · obtain ⟨cs, r, h1, h2, h3⟩ := ih (p.drop 255).length (by simp; omega) (p.drop 255) rfl
      refine ⟨p.take 255 :: cs, r, ?_, h2, ?_⟩
      · intro c hc
        rcases List.mem_cons.mp hc with rfl | hc
        · simp; omega
        · exact h1 c hc
      · rw [List.flatten_cons, List.append_assoc, ← h3, List.take_append_drop]

/-- Full chunks in front of a payload are framed in front of it (R100). -/
theorem frame_prefix (cs : List (List Byte))
    (hc : ∀ c ∈ cs, c.length = 255) (p : List Byte) : frame (cs.flatten ++ p) = fullChunks cs ++ frame p := by
  obtain ⟨c2, r, h1, h2, rfl⟩ := split_chunks p
  rw [← List.append_assoc, ← List.flatten_append, frame_chunks _ h2, frame_chunks h1 h2, fullChunks_append]
  · simp
  · intro c hc'; rcases List.mem_append.mp hc' with h | h; exact hc c h; exact h1 c h

theorem writeCodes_wrote (cs : List (Nat × Nat)) (s : State) : Wrote (cs.flatMap (fun c => bitsOf c.1 c.2)) s (writeCodes cs s) := by
  induction cs generalizing s with
  | nil => exact Wrote.nil s
  | cons c cs ih => exact (writeBits_wrote c.1 c.2 s).trans (ih _)

/-- What `Wrote` says, in the terms of the claims. -/
theorem Wrote.gains {bits : List Bool} {s t : State} (h : Wrote bits s t) (hc : s.chunk.length < 255)
    (hw : s.wacc.length < 8) : StreamGains bits s t := by
  obtain ⟨cs, h1, h2, h3⟩ := h.stream
  exact ⟨cs, h1, h2, h3, h.cursor, h.chunk hc, h.wacc hw⟩

theorem StreamGains.trans {a b : List Bool} {s t u : State} (h1 : StreamGains a s t)
    (h2 : StreamGains b t u) : StreamGains (a ++ b) s u := by
  obtain ⟨c, a1, a2, a3, a4, -, -⟩ := h1
  obtain ⟨d, b1, b2, b3, b4, b5, b6⟩ := h2
  refine ⟨c ++ d, ?_, ?_, ?_, ?_, b5, b6⟩
  · intro x hx; rcases List.mem_append.mp hx with h | h; exact a1 x h; exact b1 x h
  · rw [b2, a2]; simp
  · rw [List.flatten_append, payloadBits_append, List.append_assoc, b3, ← List.append_assoc, a3, List.append_assoc]
  · rw [b4, a4, List.length_append]; omega

theorem StreamGains.same {a : List Bool} {s t u : State} (h : StreamGains a s t) (h1 : u.outq = t.outq)
    (h2 : u.chunk = t.chunk) (h3 : u.wacc = t.wacc) (h4 : u.wcur = t.wcur) : StreamGains a s u := by
  obtain ⟨c, a1, a2, a3, a4, a5, a6⟩ := h
  exact ⟨c, a1, by rw [h1, a2], by unfold pendingBits at a3 ⊢; rw [h2, h3]; exact a3, by rw [h4, a4],
      by rw [h2]; exact a5, by rw [h3]; exact a6⟩

theorem framePut_local (v : Byte) (ch : List Byte) : ∃ C out, ∀ s : State, s.chunk = ch →
    framePut v s = { s with chunk := C, outq := s.outq ++ List.map OutItem.byte out } := by
  by_cases h : (ch ++ [v]).length = 255
  · refine ⟨[], 255#8 :: (ch ++ [v]), ?_⟩
    intro s hs; subst hs
    unfold framePut; rw [if_pos h]; rfl
  · refine ⟨ch ++ [v], [], ?_⟩
    intro s hs; subst hs
    unfold framePut; rw [if_neg h]; simp

theorem writeBit_local (b : Bool) (ch : List Byte) (wa : List Bool) : ∃ C A out, ∀ s : State, s.chunk = ch →
    s.wacc = wa → writeBit b s = { s with chunk := C, wacc := A, wcur := s.wcur + 1, outq := s.outq ++ List.map OutItem.byte out } := by
  by_cases h : (wa ++ [b]).length = 8
  · obtain ⟨C, out, hf⟩ := framePut_local (BitVec.ofNat 8 (ofBits (wa ++ [b]))) ch
    refine ⟨C, [], out, ?_⟩
    intro s hs hw; subst hw
    unfold writeBit; rw [if_pos h, hf _ (by exact hs)]
  · refine ⟨ch, wa ++ [b], [], ?_⟩
    intro s hs hw; subst hs hw
    unfold writeBit; rw [if_neg h]; simp

theorem writeBitList_local (bits : List Bool) (ch : List Byte) (wa : List Bool) : ∃ C A out, ∀ s : State, s.chunk = ch → s.wacc = wa → writeBitList bits s = { s with chunk := C, wacc := A, wcur := s.wcur + bits.length, outq := s.outq ++ List.map OutItem.byte out } := by
  induction bits generalizing ch wa with
  | nil => refine ⟨ch, wa, [], ?_⟩; intro s hs hw; subst hs hw; simp [writeBitList]
  | cons b bits ih =>
    obtain ⟨C, A, out, h1⟩ := writeBit_local b ch wa
    obtain ⟨C', A', out', h2⟩ := ih C A
    refine ⟨C', A', out ++ out', ?_⟩
    intro s hs hw
    rw [writeBitList, h1 s hs hw, h2 _ rfl rfl]
    simp
    omega

/-- What `WriteBits` does depends on the code stream's own registers only. -/
theorem writeBits_local (v w : Nat) (ch : List Byte) (wa : List Bool) : ∃ C A out, ∀ s : State, s.chunk = ch →
    s.wacc = wa → writeBits v w s = { s with chunk := C, wacc := A, wcur := s.wcur + w, outq := s.outq ++ List.map OutItem.byte out } := by
  have := writeBitList_local (bitsOf v w) ch wa
  simp only [bitsOf_length] at this
  exact this

end Sys2Proof.Machine
end

