-- ==== Sys2Proof/Laws/Invariant.lean ====
section
/-! SUPPORT. What keeps the invariant: which fields each of its parts depends on, and each operation, engine step and host
step in turn. -/

namespace Sys2Proof.Machine

theorem DictOk.same {s t : State} (hd : DictOk s) (hb : t.b = s.b) (hn : t.n = s.n) (hw : t.w = s.w)
    (hm : t.mem = s.mem) : DictOk t := by
  refine hd.of_same hb hn (by simp [hm]) ?_
  rw [hw]; have := hd.width; omega

theorem NoBase.same {s t : State} (hd : NoBase s) (hb : t.b = s.b) (hn : t.n = s.n) (hw : t.w = s.w)
    (hj : t.jr = s.jr) : NoBase t := by
  unfold NoBase at *; rw [hb, hn, hw, hj]; exact hd

theorem dataCode_same {s t : State} {c} (h : s.dataCode c) (hb : t.b = s.b) (hn : t.n = s.n) : t.dataCode c := by
  unfold State.dataCode at *
  rw [clearCode_of_b hb, eoiCode_of_b hb, hn]; exact h

theorem DecoderOk.same {s t : State} (hd : DecoderOk s) (hb : t.b = s.b) (hn : t.n = s.n) (hw : t.w = s.w)
    (hm : t.mem = s.mem)
   (hj : t.jr = s.jr) (hp : t.prev = s.prev) : DecoderOk t := by
  refine ⟨hd.dict.same hb hn hw hm, ?_, ?_, ?_⟩
  · rw [hw, hn]; exact hd.closedWidth
  · rw [hj, hp]; exact fun h => dataCode_same (hd.prevValid h) hb hn
  · rw [hj, hn, firstLearned_of_b hb]; exact hd.freshEpoch

theorem EncoderOk.same {s t : State} (hd : EncoderOk s) (hb : t.b = s.b) (hn : t.n = s.n) (hw : t.w = s.w)
    (hm : t.mem = s.mem)
   (hl : t.pLat = s.pLat) (hc : t.candV = true → t.dataCode t.cand.toNat) : EncoderOk t := by
  refine ⟨hd.dict.same hb hn hw hm, ?_, ?_, hc, ?_⟩
  · rw [hl, hb]; exact hd.basePalette
  · rw [hw, hn]; exact hd.closedWidth
  · rw [hm, hn, firstLearned_of_b hb]; exact hd.unique

theorem StageOk.same {s t : State} (h : StageOk s) (ho : t.opk = s.opk) (hl : t.lastOp = s.lastOp)
   (hb : t.b = s.b) (hn : t.n = s.n) (hw : t.w = s.w) (hm : t.mem = s.mem)
   (hj : t.jr = s.jr) (hp : t.prev = s.prev) (hpl : t.pLat = s.pLat) (hc : t.cand = s.cand) (hcv : t.candV = s.candV)
   (hr : t.rem = s.rem) (hpe : t.pend = s.pend) (hra : t.racc = s.racc) : StageOk t := by
  unfold StageOk at *
  rw [ho, hl]
  cases hk : s.opk <;> rw [hk] at h <;> simp only at h ⊢
  · refine ⟨h.1, h.2.same hb hn hw hm hpl ?_⟩
    rw [hcv, hc]; exact fun x => dataCode_same (h.2.candValid x) hb hn
  · refine ⟨h.1, h.2.same hb hn hw hm hpl ?_⟩
    rw [hcv, hc]; exact fun x => dataCode_same (h.2.candValid x) hb hn
  · exact ⟨h.1, h.2.1.same hb hn hw hj, by rw [hr]; exact h.2.2.1, by rw [hpe]; exact h.2.2.2.1,
        by rw [hra]; exact h.2.2.2.2⟩
  · exact ⟨h.1, h.2.same hb hn hw hm hj hp⟩
  · exact ⟨h.1, h.2.same hb hn hw hm⟩

/-- all of Inv's fields -/
theorem Inv.same {s t : State} (h : Inv s) (hph : t.phase = s.phase) (ho : t.opk = s.opk) (hl : t.lastOp = s.lastOp)
   (hb : t.b = s.b) (hn : t.n = s.n) (hw : t.w = s.w) (hm : t.mem = s.mem)
   (hj : t.jr = s.jr) (hp : t.prev = s.prev) (hpl : t.pLat = s.pLat) (hc : t.cand = s.cand) (hcv : t.candV = s.candV)
   (hr : t.rem = s.rem) (hpe : t.pend = s.pend) (hra : t.racc = s.racc) (hch : t.chunk = s.chunk)
       (hwa : t.wacc = s.wacc)
   (hwc : t.wcur = s.wcur) (he : t.err = s.err) (hei : t.einfo = s.einfo) (hpf : t.pfault = s.pfault) : Inv t := by
  refine ⟨by rw [hm]; exact h.ram, ?_, ?_, ?_, ?_⟩
  · exact h.dict.imp (fun x => x.same hb hn hw hj) (fun x => x.same hb hn hw hm)
  · rw [hph]; exact fun x => (h.stage x).same ho hl hb hn hw hm hj hp hpl hc hcv hr hpe hra
  · have := h.buffers
    exact ⟨by rw [hch]; exact this.chunk, by rw [hwa]; exact this.wacc, by rw [hwc, hwa]; exact this.wcur,
        by rw [hra]; exact this.racc, by rw [hpe, hr]; exact this.pend⟩
  · have := h.latch
    exact ⟨by rw [he, hph]; exact this.err, by rw [hph, hei]; exact this.einfo, by rw [hpf, hph, ho]; exact this.held⟩

/-- Moving tokens, items and the host's fields keeps the invariant. -/
theorem Inv.of_ports {s t : State} (h : Inv s)
    (ht : t = { s with
      inq := t.inq, outq := t.outq, palette := t.palette, agenda := t.agenda, readData := t.readData,
      popData := t.popData, draws := t.draws }) : Inv t := by
  rw [ht]
  exact h.same rfl rfl rfl rfl rfl rfl rfl rfl rfl rfl rfl rfl rfl rfl rfl rfl rfl rfl rfl rfl rfl

theorem acknowledge_inv {s} (h : Inv s) (hr : s.phase ≠ .run) : Inv (acknowledge s) := by
  unfold acknowledge
  split
  · refine ⟨h.ram, h.dict.imp (fun x => x.same rfl rfl rfl rfl) (fun x => x.same rfl rfl rfl rfl), by simp, ?_, ?_⟩
    · exact ⟨h.buffers.chunk, h.buffers.wacc, h.buffers.wcur, h.buffers.racc, h.buffers.pend⟩
    · refine ⟨by simp, by simp, ?_⟩
      intro c i hc
      have := h.latch.held c i hc
      exact absurd this.1 hr
  · exact h

theorem raise_taken_inv {c : ErrCode} {i} {s : State} (hc0 : c ≠ .none)
    (hc : ¬ (s.phase = .run ∧ s.opk = .decCodes ∧ (c = .badCode ∨ c = .outOfData)))
    (hm : s.mem.wf = true) (hd : NoBase s ∨ DictOk s) (hb : BufferOk s) : Inv (raise c i s) := by
  rw [raise_taken hc]
  refine ⟨hm, hd.imp (fun x => x.same rfl rfl rfl rfl) (fun x => x.same rfl rfl rfl rfl), by simp,
      ⟨hb.chunk, hb.wacc, hb.wcur, hb.racc, hb.pend⟩, ⟨by simpa using hc0, by simp, by simp⟩⟩

theorem reserved_inv {s} (h : Inv s) (hr : s.phase ≠ .run) : Inv (reservedCommand s) := by
  unfold reservedCommand
  have h1 : Inv { s with lastOp := 3 } := by
    refine ⟨h.ram, h.dict.imp (fun x => x.same rfl rfl rfl rfl) (fun x => x.same rfl rfl
        rfl rfl), fun x => absurd x hr,
        ⟨h.buffers.chunk, h.buffers.wacc, h.buffers.wcur, h.buffers.racc, h.buffers.pend⟩,
        ⟨h.latch.err, h.latch.einfo, h.latch.held⟩⟩
  exact raise_taken_inv (by simp) (by simp) h1.ram h1.dict h1.buffers

theorem startDecode_inv {s} (h : Inv s) : Inv (startDecode s) := by
  unfold startDecode
  refine ⟨by simpa using h.ram, .inl (by simp [NoBase]), ?_, ⟨by simp, by simp, by simp, by simp, by simp⟩,
      ⟨by simp, by simp, by simp⟩⟩
  intro _
  simp [StageOk, NoBase]

theorem baseWidth_range {p b} (h : baseWidth p = some b) : 2 ≤ b ∧ b ≤ 8 ∧ 1 ≤ p ∧ p ≤ 256 := by
  unfold baseWidth at h
  split at h
  · simp at h
  · rename_i hp
    have hp1 : 1 ≤ p := by omega
    have : ceilLog2 p ≤ 8 := (ceilLog2_le hp1).mpr (by omega)
    simp at h
    omega

theorem startEncode_inv {s} (h : Inv s) : Inv (startEncode s) := by
  unfold startEncode
  split
  · rename_i hb
    apply raise_taken_inv
    · simp
    · simp
    · simpa [encodePrologue] using h.ram
    · left; simp [NoBase, encodePrologue]
    · exact ⟨by simp [encodePrologue], by simp [encodePrologue], by simp [encodePrologue],
          by simp [encodePrologue], by simp [encodePrologue]⟩
  · rename_i b hb
    obtain ⟨h2, h8, -⟩ := baseWidth_range hb
    unfold startEncoding
    generalize hs0 : encodePrologue s = s0 at hb ⊢
    have hs0b : ({ s0 with b := BitVec.ofNat 4 b } : State).b.toNat = b := by simp; omega
    have hd1 : DictOk (dictReset (outPut (BitVec.ofNat 8 b) { s0 with b := BitVec.ofNat 4 b })) := by
      apply dictReset_dictOk; simp only [outPut_b]; rw [hs0b]; exact ⟨h2, h8⟩
    have hn := dictReset_n_toNat (s := (outPut (BitVec.ofNat 8 b) { s0 with b := BitVec.ofNat 4 b }))
        (by simp only [outPut_b]; rw [hs0b]; exact ⟨h2, h8⟩)
    have hw := dictReset_w_toNat (s := (outPut (BitVec.ofNat 8 b) { s0 with b := BitVec.ofNat 4 b }))
        (by simp only [outPut_b]; rw [hs0b]; exact ⟨h2, h8⟩)
    have hbl := bitlen_firstLearned (s := (outPut (BitVec.ofNat 8 b) { s0 with b := BitVec.ofNat 4 b }))
        (by simp only [outPut_b]; rw [hs0b]; exact ⟨h2, h8⟩)
    generalize hs1 : dictReset (outPut (BitVec.ofNat 8 b) { s0 with b := BitVec.ofNat 4 b }) = s1 at hd1 hn hw ⊢
    have e1 : s1.phase = .run := by subst hs1 hs0; rfl
    have e2 : s1.lastOp = 1 := by subst hs1 hs0; rfl
    have e3 : s1.chunk = [] := by subst hs1 hs0; rfl
    have e4 : s1.wacc = [] := by subst hs1 hs0; rfl
    have e5 : s1.wcur = 0 := by subst hs1 hs0; rfl
    have e6 : s1.racc = [] := by subst hs1 hs0; rfl
    have e7 : s1.pend = false := by subst hs1 hs0; rfl
    have e8 : s1.err = .none := by subst hs1 hs0; rfl
    have e9 : s1.einfo = 0 := by subst hs1 hs0; rfl
    have e10 : s1.pfault = none := by subst hs1 hs0; rfl
    have e11 : s1.candV = false := by subst hs1 hs0; rfl
    have e12 : s1.mem = s.mem := by subst hs1 hs0; rfl
    have e13 : s1.pLat = s0.pLat := by subst hs1 hs0; rfl
    have e14 : s1.b.toNat = b := by subst hs1 hs0; simpa using hs0b
    have hfl : s1.firstLearned = (outPut (BitVec.ofNat 8 b) { s0 with b := BitVec.ofNat 4 b }).firstLearned := by subst hs1; rfl
    obtain ⟨bits, hwr⟩ : ∃ bits, Wrote bits s1 (leadingClear s1) := by
      unfold leadingClear
      split
      · exact ⟨_, writeBits_wrote _ _ _⟩
      · exact ⟨_, Wrote.nil _⟩
    generalize (leadingClear s1) = s2 at hwr ⊢
    have hf := hwr.fields
    have hch := hwr.chunk (by simp [e3])
    have hwa := hwr.wacc (by simp [e4])
    have hcm := hwr.cursor_mod (by simp [e4, e5]) (by simp [e4])
    refine ⟨by simp [hf, e12, h.ram], .inr (hd1.same (by simp [hf]) (by simp [hf]) (by simp [hf]) (by simp [hf])),
        ?_, ⟨hch, hwa, hcm, by simp [hf, e6], by simp [hf, e7]⟩, ⟨by simp [hf, e8, e1], by simp [hf, e9],
        by simp [hf, e10]⟩⟩
    intro _
    simp only [StageOk]
    refine ⟨by simp [hf, e2], ?_⟩
    have : EncoderOk s1 := by
      refine ⟨hd1, ?_, ?_, by simp [e11], ?_⟩
      · rw [e13, e14]; exact hb
      · rw [hw, hn, hbl.2]
        have := (outPut (BitVec.ofNat 8 b) { s0 with b := BitVec.ofNat 4 b }).b.toNat
        simp only [outPut_b]; rw [hs0b]; omega
      · intro c d e f hc1 hc2
        rw [hn] at hc2; rw [hfl] at hc1; omega
    exact this.same (by simp [hf]) (by simp [hf]) (by simp [hf]) (by simp [hf]) (by simp [hf]) (by simp [hf, e11])

theorem BufferOk.same {s t : State} (h : BufferOk s) (h1 : t.chunk = s.chunk) (h2 : t.wacc = s.wacc)
    (h3 : t.wcur = s.wcur)
  (h4 : t.racc = s.racc) (h5 : t.pend = s.pend) (h6 : t.rem = s.rem) : BufferOk t :=
  ⟨by rw [h1]; exact h.chunk, by rw [h2]; exact h.wacc, by rw [h3, h2]; exact h.wcur, by rw [h4]; exact h.racc,
      by rw [h5, h6]; exact h.pend⟩

theorem Took.bufferOk {s t : State} (ht : Took s t) (h : BufferOk s) (hr : t.racc.length < 12) : BufferOk t := by
  have hf := ht.fields
  exact ⟨by simp [hf, h.chunk], by simp [hf, h.wacc], by simp [hf, h.wcur], hr, ht.boundary h.pend⟩

theorem Wrote.bufferOk {bits} {s t : State} (ht : Wrote bits s t) (h : BufferOk s) : BufferOk t := by
  have hf := ht.fields
  exact ⟨ht.chunk h.chunk, ht.wacc h.wacc, ht.cursor_mod h.wcur h.wacc, by simp [hf, h.racc],
      by simpa [hf] using h.pend⟩

theorem Wrote.encoderOk {bits} {s t : State} (ht : Wrote bits s t) (h : EncoderOk s) : EncoderOk t := by
  have hf := ht.fields
  refine h.same (by simp [hf]) (by simp [hf]) (by simp [hf]) (by simp [hf]) (by simp [hf]) ?_
  intro hc
  exact dataCode_same (by simpa [hf] using h.candValid (by simpa [hf] using hc)) (by simp [hf]) (by simp [hf])

/-- widthByte at DEC_WIDTH -/
theorem widthByte_inv {v : Byte} {s t : State} (h : Inv s) (hp : s.phase = .run) (ho : s.opk = .decWidth)
    (he : execWidthByte v s = .next t) : Inv t := by
  have hst := h.stage hp
  simp only [StageOk, ho] at hst
  obtain ⟨hl, hnb, hrem, hpe, hra⟩ := hst
  unfold execWidthByte at he
  split at he
  · cases he
    exact raise_taken_inv (by simp) (by simp [ho]) h.ram h.dict h.buffers
  · rename_i hv
    cases he
    have hb : ({ s with b := v.setWidth 4 } : State).b.toNat = v.toNat := by
      simp only [BitVec.toNat_setWidth]; omega
    have hb2 : 2 ≤ ({ s with b := v.setWidth 4 } : State).b.toNat ∧
        ({ s with b := v.setWidth 4 } : State).b.toNat ≤ 8 := by
      rw [hb]; omega
    have hd := dictReset_decoderOk hb2
    have hlat := h.latch
    refine ⟨by simpa using h.ram, .inr (hd.dict.same rfl rfl rfl rfl), ?_, h.buffers.same rfl rfl rfl rfl rfl rfl,
        ⟨hlat.err, hlat.einfo, ?_⟩⟩
    · intro _
      exact ⟨hl, hd.same rfl rfl rfl rfl rfl rfl⟩
    · intro c i hc
      have := hlat.held c i hc
      rw [ho] at this
      simp at this

theorem held_none {s : State} (h : Inv s) (ho : s.opk ≠ .decDrain) : s.pfault = none := by
  cases hp : s.pfault with
  | none => rfl
  | some x => exact absurd (h.latch.held x.1 x.2 hp).2.1 ho

/-- general packaging for codes -/
theorem decCodes_inv {s t : State} (h : Inv s) (ho : s.opk = .decCodes) (hl0 : s.lastOp = 2) (hm : t.mem.wf = true)
    (hd : DecoderOk t) (hph : t.phase = s.phase) (hopk : t.opk = .decCodes)
   (hl : t.lastOp = s.lastOp) (hr : t.rem = s.rem) (hpe : t.pend = s.pend) (hra : t.racc = s.racc)
       (hch : t.chunk = s.chunk) (hwa : t.wacc = s.wacc)
   (hwc : t.wcur = s.wcur) (he : t.err = s.err) (hei : t.einfo = s.einfo) (hpf : t.pfault = s.pfault) : Inv t := by
  have hnone := held_none h (by simp [ho])
  have hlat := h.latch
  refine ⟨hm, .inr hd.dict, ?_, h.buffers.same hch hwa hwc hra hpe hr, ⟨by rw [he, hph]; exact hlat.err,
      by rw [hph, hei]; exact hlat.einfo, by simp [hpf, hnone]⟩⟩
  intro _
  simp only [StageOk, hopk]
  exact ⟨by rw [hl, hl0], hd⟩

theorem badCode_inv {c : Code} {s t : State} (h : Inv s) (hp : s.phase = .run) (ho : s.opk = .decCodes)
    (he : badCode c s = .next t) : Inv t := by
  unfold badCode at he
  rw [raise_held hp ho (.inl rfl)] at he
  cases he
  have hst := h.stage hp
  simp only [StageOk, ho] at hst
  refine ⟨h.ram, .inr (hst.2.dict.same rfl rfl rfl rfl), fun _ => ⟨hst.1, hst.2.dict.same rfl rfl
      rfl rfl⟩, h.buffers.same rfl rfl rfl rfl rfl rfl, ⟨h.latch.err, h.latch.einfo, ?_⟩⟩
  intro c i hc
  simp at hc
  exact ⟨hp, rfl, .inl hc.1.symm⟩

theorem endOfInformation_inv {s t : State} (h : Inv s) (hp : s.phase = .run) (ho : s.opk = .decCodes)
    (he : endOfInformation s = .next t) : Inv t := by
  unfold endOfInformation at he
  cases he
  have hst := h.stage hp
  simp only [StageOk, ho] at hst
  have hnone := held_none h (by simp [ho])
  refine ⟨h.ram, .inr (hst.2.dict.same rfl rfl rfl rfl), fun _ => ⟨hst.1, hst.2.dict.same rfl rfl
      rfl rfl⟩, h.buffers.same rfl rfl rfl rfl rfl rfl, ⟨h.latch.err, h.latch.einfo, by simp [hnone]⟩⟩

theorem clear_inv {s t : State} (h : Inv s) (hp : s.phase = .run) (ho : s.opk = .decCodes)
    (he : clearCodeTable s = .next t) : Inv t := by
  unfold clearCodeTable at he
  cases he
  have hst := h.stage hp
  simp only [StageOk, ho] at hst
  exact decCodes_inv h ho hst.1 h.ram (dictReset_decoderOk hst.2.dict.base) rfl ho rfl rfl rfl rfl rfl rfl rfl
      rfl rfl rfl

/-- the decoder's add under DecoderOk -/
theorem decoder_add_ok {s : State} (hd : DecoderOk s) (hj : s.jr = false) (hn : s.n.toNat < 4096) {x g : Byte}
    (hg : firstOf s s.prev.toNat = some g) :
    DictOk (decoderGrowth (dictAdd s.prev x g s)) ∧ 
    (decoderGrowth (dictAdd s.prev x g s)).w.toNat = min 12 (bitlen (decoderGrowth (dictAdd s.prev x g s)).n.toNat) :=
  ⟨decoderGrowth_dictOk (dictAdd_dictOk hd.dict hn (hd.prevValid hj) hg), decoder_add_width hn hd.closedWidth⟩

theorem knownEntry_inv {c : Code} {s t : State} (h : Inv s) (hp : s.phase = .run) (ho : s.opk = .decCodes)
    (hc : s.dataCode c.toNat)
    (he : knownEntry c s = .next t) : Inv t := by
  have hst := h.stage hp
  simp only [StageOk, ho] at hst
  obtain ⟨hl, hd⟩ := hst
  unfold knownEntry at he
  split at he
  · exact badCode_inv h hp ho he
  · rename_i hpol
    split at he
    · rename_i q f hq hf
      split at he
      · rename_i hja
        unfold addAfterPrevious at he
        have hx : Extends s (outPutAll q s) := Extends.of_eq rfl rfl rfl
        have hpv := hd.prevValid hja.1
        obtain ⟨g, q', hg, -⟩ := hd.dict.seq_defined hpv
        have hdo : DecoderOk (outPutAll q s) := hd.same rfl rfl rfl rfl rfl rfl
        have hg' : firstOf (outPutAll q s) (outPutAll q s).prev.toNat = some g := hx.firstOf hg
        simp only [hg'] at he
        cases he
        obtain ⟨k1, k2⟩ := decoder_add_ok (x := f) hdo hja.1 hja.2 hg'
        have hext := dictAdd_extends (s.prev) f g (s := outPutAll q s) hja.2
        refine decCodes_inv h ho hl ?_ ⟨k1.same rfl rfl rfl rfl, k2, ?_, by simp⟩ (by simp) (by simp [ho])
            (by simp) (by simp) (by simp) (by simp) (by simp) (by simp) (by simp) (by simp) (by simp) (by simp)
        · simp only [endDataCode_mem, decoderGrowth_frame, dictAdd_mem]
          exact Memory.write_wf h.ram hja.2
        · intro _
          exact dataCode_same (hext.dataCode (dataCode_same hc rfl rfl)) (by simp) (by simp)
      · rename_i hja
        cases he
        refine decCodes_inv h ho hl h.ram ⟨hd.dict.same rfl rfl
            rfl rfl, hd.closedWidth, fun _ => dataCode_same hc rfl rfl, by simp⟩ rfl ho rfl rfl rfl rfl rfl rfl
            rfl rfl rfl rfl
    · cases he

theorem kwkwk_inv {c : Code} {s t : State} (h : Inv s) (hp : s.phase = .run) (ho : s.opk = .decCodes)
    (hc : c.toNat = s.n.toNat) (hj : s.jr = false)
    (he : notYetMaterialised c s = .next t) : Inv t := by
  have hst := h.stage hp
  simp only [StageOk, ho] at hst
  obtain ⟨hl, hd⟩ := hst
  unfold notYetMaterialised at he
  split at he
  · cases he
  · rename_i hn
    split at he
    · rename_i q f hq hf
      cases he
      obtain ⟨k1, k2⟩ := decoder_add_ok (x := f) hd hj (by omega) hf
      refine decCodes_inv h ho hl ?_ ⟨k1.same rfl rfl rfl rfl, k2, ?_, by simp⟩ (by simp) (by simp [ho])
          (by simp) (by simp) (by simp) (by simp) (by simp) (by simp) (by simp) (by simp) (by simp) (by simp)
      · simp only [endDataCode_mem, outPutAll_mem, decoderGrowth_frame, dictAdd_mem]
        exact Memory.write_wf h.ram (by omega)
      · intro _
        apply dataCode_learned
        · have h0 := hd.dict.size
          have e1 : (endDataCode c (outPutAll (q ++ [f]) (decoderGrowth (dictAdd s.prev f f s)))).firstLearned = s.firstLearned := firstLearned_of_b (by simp)
          rw [e1, endDataCode_prev]
          omega
        · have e2 : (endDataCode c (outPutAll (q ++ [f]) (decoderGrowth (dictAdd s.prev f f s)))).n = s.n + 1 := by simp
          rw [e2, n_succ (by omega), endDataCode_prev]
          omega
    · cases he

theorem exec_code_inv {s t : State} {c : Code} {i : Instr} (h : Inv s) (hp : s.phase = .run) (ho : s.opk = .decCodes)
   (hi : decode s.codeContext (.code c) = .instr i) (he : exec i s = .next t) : Inv t := by
  have hst := h.stage hp
  simp only [StageOk, ho] at hst
  simp only [State.codeContext, decode] at hi
  obtain ⟨-, hc⟩ := decodeCode_cases hi
  rcases hc with ⟨hc, hr⟩ | ⟨hc, hr⟩ | ⟨hc, hr⟩ | ⟨hge, hc, rfl⟩ | ⟨-, hc, hj, rfl⟩ | ⟨-, hc, hj, rfl⟩ | ⟨-, hc, rfl⟩
  · rw [exec_clearRow hr] at he; exact clear_inv h hp ho he
  · rw [exec_eoiRow hr] at he; exact endOfInformation_inv h hp ho he
  · rw [exec_literalRow hr hc] at he; exact knownEntry_inv h hp ho (dataCode_literal hst.2.dict hc) he
  · exact knownEntry_inv h hp ho (dataCode_learned hge hc) he
  · exact kwkwk_inv h hp ho hc hj he
  · exact badCode_inv h hp ho he
  · exact badCode_inv h hp ho he

theorem fetchCode_inv {s : State} (h : Inv s) (hp : s.phase = .run) (ho : s.opk = .decCodes) :
   (∀ t, fetchCode s = .settled (.next t) → Inv t) ∧ (∀ i s', fetchCode s = .instr i s' → Inv s' ∧ s'.phase = .run ∧
       s'.opk = .decCodes ∧ ∃ c, decode s'.codeContext (.code c) = .instr i) := by
  have hst := h.stage hp
  simp only [StageOk, ho] at hst
  obtain ⟨hl, hd⟩ := hst
  have hw := hd.dict.width
  have hnone := held_none h (by simp [ho])
  unfold fetchCode
  split
  · refine ⟨?_, by simp⟩
    intro t ht; simp at ht; rw [← ht]; exact h
  · rename_i s' hr
    refine ⟨?_, by simp⟩
    intro t ht
    simp only [Fetched.settled.injEq, Host.Outcome.next.injEq] at ht
    subst ht
    obtain ⟨s1, hk, hra, hs⟩ := readBits_raised hr
    have hf := hk.fields
    have hb1 := hk.bufferOk h.buffers (by omega)
    rcases hs with hs | ⟨hpe, hs⟩
    · rw [hs]
      exact raise_taken_inv (by simp) (by simp) (by simp [hf, h.ram]) (.inr (hd.dict.same (by simp [hf])
          (by simp [hf]) (by simp [hf]) (by simp [hf]))) hb1
    · rw [hs, raise_held (by simp [hf, hp]) (by simp [hf, ho]) (.inr rfl)]
      have hd1 : DictOk s1 := (hd.dict.same (by simp [hf]) (by simp [hf]) (by simp [hf]) (by simp [hf]))
      refine ⟨by simp [hf, h.ram], .inr (hd1.same rfl rfl rfl rfl), fun _ => ⟨by simp [hf, hl], hd1.same rfl rfl
          rfl rfl⟩, hb1.same rfl rfl rfl rfl rfl rfl, ⟨by simpa [hf] using h.latch.err,
          by simpa [hf] using h.latch.einfo, ?_⟩⟩
      intro c i hc
      simp at hc
      exact ⟨by simp [hf, hp], rfl, .inr hc.1.symm⟩
  · rename_i c s' hr
    obtain ⟨hk, -, -, -, hra⟩ := readBits_ok hr
    have hf := hk.fields
    have hb1 := hk.bufferOk h.buffers (by have := h.buffers.racc; omega)
    have hI : Inv s' := by
      have hd1 : DecoderOk s' := (hd.same (by simp [hf]) (by simp [hf]) (by simp [hf]) (by simp [hf])
          (by simp [hf]) (by simp [hf]))
      refine ⟨by simp [hf, h.ram], .inr hd1.dict, fun _ => ?_, hb1, ⟨by simpa [hf] using h.latch.err,
          by simpa [hf] using h.latch.einfo, by simp [hf, hnone]⟩⟩
      simp only [StageOk, hf, ho]
      exact ⟨hl, hd1⟩
    refine ⟨?_, ?_⟩
    · intro t ht
      cases hdec : decode s'.codeContext (.code (BitVec.ofNat 12 c)) <;> simp [Fetched.ofDecoded, hdec] at ht
    · intro i s2 ht
      cases hdec : decode s'.codeContext (.code (BitVec.ofNat 12 c)) <;> simp [Fetched.ofDecoded, hdec] at ht
      obtain ⟨rfl, rfl⟩ := ht
      exact ⟨hI, by simp [hf, hp], by simp [hf, ho], _, hdec⟩

theorem drainStep_inv {s : State} (h : Inv s) (hp : s.phase = .run) (ho : s.opk = .decDrain) : Inv (drainStep s) := by
  have hst := h.stage hp
  simp only [StageOk, ho] at hst
  obtain ⟨hl, hd⟩ := hst
  unfold drainStep
  split
  · exact h
  · rename_i s' hr
    obtain ⟨s1, hk, -, hra, rfl⟩ := frameGet_raised hr
    have hf := hk.fields
    exact raise_taken_inv (by simp) (by simp) (by simp [hf, h.ram]) (.inr (hd.same (by simp [hf]) (by simp [hf])
        (by simp [hf]) (by simp [hf]))) (hk.bufferOk h.buffers (by rw [hra]; exact h.buffers.racc))
  · rename_i s' hr
    obtain ⟨-, hra, -, hk⟩ := frameGet_eop hr
    have hf := hk.fields
    have hb := (hk.bufferOk h.buffers (by rw [hra]; exact h.buffers.racc))
    have hd1 : DictOk s' := (hd.same (by simp [hf]) (by simp [hf]) (by simp [hf]) (by simp [hf]))
    unfold endDrain
    split
    · rename_i hpf
      refine ⟨by simp [hf, h.ram], .inr (hd1.same rfl rfl rfl rfl), by simp, hb.same rfl rfl rfl rfl rfl rfl, ⟨?_,
          ?_, by simp [hpf]⟩⟩
      · have := h.latch.err; simp [hp] at this; simp [hf, this]
      · have := h.latch.einfo; simp [hp] at this; simp [hf, this]
    · rename_i x hpf
      unfold finishFault
      rw [hpf]
      have hh := h.latch.held x.1 x.2 (by simpa [hf] using hpf)
      refine ⟨by simp [hf, h.ram], .inr (hd1.same rfl rfl rfl rfl), by simp, hb.same rfl rfl rfl rfl rfl rfl, ⟨?_,
          by simp, by simp⟩⟩
      rcases hh.2.2 with e | e <;> simp [e]
  · rename_i v s' hr
    obtain ⟨h1, h2, h3, h4, h5, -, -⟩ := frameGet_byte hr
    have hk := frameGet_took hr
    have hf := hk.fields
    have hd1 : DictOk s' := (hd.same (by simp [hf]) (by simp [hf]) (by simp [hf]) (by simp [hf]))
    refine ⟨by simp [hf, h.ram], .inr hd1, fun _ => ?_, hk.bufferOk h.buffers (by rw [h3]; exact h.buffers.racc),
        ⟨by simpa [hf] using h.latch.err, by simpa [hf] using h.latch.einfo, ?_⟩⟩
    · simp only [StageOk, hf, ho]; exact ⟨hl, hd1⟩
    · simpa [hf] using h.latch.held

theorem encFinish_inv {s t : State} (h : Inv s) (hp : s.phase = .run) (ho : s.opk = .encFinish)
    (he : encFinishStep s = .next t) : Inv t := by
  have hst := h.stage hp
  simp only [StageOk, ho] at hst
  obtain ⟨hl, hd⟩ := hst
  have hnone := held_none h (by simp [ho])
  unfold encFinishStep at he
  cases he
  -- the chain
  obtain ⟨b1, w1⟩ : ∃ b1, Wrote b1 s (finalCandidate s) := by
    unfold finalCandidate; split
    · exact ⟨_, writeBits_wrote _ _ _⟩
    · exact ⟨_, Wrote.nil _⟩
  have f1 := w1.fields
  have bo1 := w1.bufferOk h.buffers
  have e1 := w1.encoderOk hd
  have d2 := finalGrowth_dictOk e1.dict
  have bo2 : BufferOk (finalGrowth (finalCandidate s)) := bo1.same (by simp) (by simp) (by simp) (by simp)
      (by simp) (by simp)
  generalize hs2 : finalGrowth (finalCandidate s) = s2 at d2 bo2
  have w3 : Wrote _ s2 (writeEoi s2) := writeBits_wrote _ _ _
  have bo3 := w3.bufferOk bo2
  have w4 := flush_wrote (writeEoi s2) bo3.wacc
  have bo4 := w4.bufferOk bo3
  have f3 := w3.fields
  have f4 := w4.fields
  have hd4 : DictOk (flush (writeEoi s2)) := d2.same (by simp [f3]) (by simp [f3]) (by simp [f3]) (by simp [f3])
  have hm : s2.mem = s.mem := by subst hs2; simp [f1]
  have her : s2.err = s.err := by subst hs2; simp [f1]
  have hei : s2.einfo = s.einfo := by subst hs2; simp [f1]
  have hpf : s2.pfault = s.pfault := by subst hs2; simp [f1]
  have hlat := h.latch
  have h1 := hlat.err; have h2 := hlat.einfo; simp [hp] at h1 h2
  unfold encodeFinish
  rw [hs2]
  rw [frameEnd_eq]
  refine ⟨by simp [f3, hm, h.ram], .inr (hd4.same rfl rfl rfl rfl), by simp, ⟨by simp, ?_, ?_, bo4.racc, bo4.pend⟩,
      ⟨by simp [f3, her, h1], by simp [f3, hei, h2], by simp [f3, hpf, hnone]⟩⟩
  · exact bo4.wacc
  · exact bo4.wcur

theorem encIndex_inv {s t : State} (h : Inv s) (hp : s.phase = .run) (ho : s.opk = .encIndex)
    (he : encIndexStep s = .next t) : Inv t := by
  have hst := h.stage hp
  simp only [StageOk, ho] at hst
  obtain ⟨hl, hd⟩ := hst
  have hnone := held_none h (by simp [ho])
  have hlat := h.latch
  unfold encIndexStep at he
  split at he
  · cases he; exact h
  · cases he
    refine ⟨h.ram, .inr (hd.dict.same rfl rfl rfl rfl), fun _ => ⟨hl, hd.same rfl rfl rfl rfl
        rfl (fun x => hd.candValid x)⟩, h.buffers.same rfl rfl rfl rfl rfl rfl, ⟨hlat.err, hlat.einfo,
        by simp [hnone]⟩⟩
  · rename_i i q hq
    have h0 : Inv { s with inq := q } := h.of_ports rfl
    have hd0 : EncoderOk { s with inq := q } := hd.same rfl rfl rfl rfl rfl (fun x => hd.candValid x)
    have pack : ∀ {t : State}, t.phase = .run → t.opk = .encIndex → t.lastOp = 1 → t.mem.wf = true → EncoderOk t →
        BufferOk t → t.err = s.err → t.einfo = s.einfo → t.pfault = s.pfault → Inv t := by
      intro t a1 a2 a3 a4 a5 a6 a7 a8 a9
      refine ⟨a4, .inr a5.dict, fun _ => ?_, a6, ⟨by rw [a7, a1, ← hp]; exact hlat.err,
          by rw [a8, a1, ← hp]; exact hlat.einfo, by simp [a9, hnone]⟩⟩
      simp only [StageOk, a2]; exact ⟨a3, a5⟩
    generalize hs0 : ({ s with inq := q } : State) = s0 at *
    have z1 : s0.phase = .run := by subst hs0; exact hp
    have z2 : s0.opk = .encIndex := by subst hs0; exact ho
    have z3 : s0.lastOp = 1 := by subst hs0; exact hl
    have z4 : s0.err = s.err := by subst hs0; rfl
    have z5 : s0.einfo = s.einfo := by subst hs0; rfl
    have z6 : s0.pfault = s.pfault := by subst hs0; rfl
    clear hs0
    unfold encodeIndex at he
    split at he
    · cases he
      exact raise_taken_inv (by simp) (by simp) h0.ram h0.dict h0.buffers
    · rename_i hi
      have hlit : s0.dataCode i.toNat := dataCode_literal hd0.dict (by omega)
      have hi12 : (i.setWidth 12).toNat = i.toNat := by
        simp only [BitVec.toNat_setWidth]; omega
      split at he
      · cases he
        refine pack z1 z2 z3 h0.ram (hd0.same rfl rfl rfl rfl rfl ?_) (h0.buffers.same rfl rfl rfl rfl rfl rfl) z4 z5 z6
        intro _
        simp only [hi12]
        exact dataCode_same hlit rfl rfl
      · rename_i hcv
        have hcv : s0.candV = true := by simpa using hcv
        have hcand := hd0.candValid hcv
        split at he
        · rename_i c hc
          cases he
          obtain ⟨h1, h2, -⟩ := dictFind_some h0.ram hc
          refine pack z1 z2 z3 h0.ram (hd0.same rfl rfl rfl rfl rfl ?_) (h0.buffers.same rfl rfl rfl rfl
              rfl rfl) z4 z5 z6
          intro _
          have := hd0.dict.size
          have e : (BitVec.ofNat 12 c).toNat = c := by rw [BitVec.toNat_ofNat]; omega
          simp only [e]
          exact dataCode_same (dataCode_learned h1 h2) rfl rfl
        · rename_i hmiss
          split at he
          · rename_i hn
            unfold encMiss at he
            obtain ⟨f, qq, hf, -⟩ := hd0.dict.seq_defined hcand
            rw [hf] at he
            cases he
            have w := writeBits_wrote s0.cand.toNat s0.w.toNat s0
            have ff := w.fields
            have eo := w.encoderOk hd0
            have bo := w.bufferOk h0.buffers
            have eoc := eo.candValid (by simp [hcv])
            generalize writeBits s0.cand.toNat s0.w.toNat s0 = s1 at *
            have hx : Extends s0 s1 := Extends.of_eq (by simp [ff]) (by simp [ff]) (by simp [ff])
            have hn1 : s1.n.toNat < 4096 := by simpa [ff] using hn
            have hf1 : firstOf s1 s0.cand.toNat = some f := hx.firstOf hf
            have hcand1 : s1.dataCode s0.cand.toNat := hx.dataCode hcand
            have hda := dictAdd_dictOk (x := i) eo.dict hn1 hcand1 hf1
            have hext := dictAdd_extends s0.cand i f hn1
            have hwid := encoder_add_width (p := s0.cand) (x := i) (f := f) hn1
                (by have q1 := eo.dict.size; have q2 := Nat.two_pow_pos s1.b.toNat; unfold State.firstLearned at q1; omega) eo.closedWidth
            have hg := encoderGrowth_dictOk hda
            have hnn : (dictAdd s0.cand i f s1).n.toNat = s1.n.toNat + 1 := by rw [dictAdd_n, n_succ hn1]
            refine pack (by simp [ff, z1]) (by simp [ff, z2]) (by simp [ff, z3]) ?_ ⟨hg.same rfl rfl rfl rfl,
                ?_, hwid, ?_, ?_⟩ (bo.same (by simp) (by simp) (by simp) (by simp) (by simp) (by simp))
                (by simp [ff, z4]) (by simp [ff, z5]) (by simp [ff, z6])
            · simp only [encoderGrowth_frame, dictAdd_mem]
              exact Memory.write_wf (by simp [ff, h0.ram]) hn1
            · simpa using eo.basePalette
            · intro _
              simp only [hi12]
              exact dataCode_same (hext.dataCode (hx.dataCode hlit)) (by simp) (by simp)
            · intro c d e g hc1 hc2 hd1 hd2 he1 he2 hp1 hs1
              have hfl : ({ encoderGrowth (dictAdd s0.cand i f s1) with cand := i.setWidth 12 } : State).firstLearned = s1.firstLearned := firstLearned_of_b (by simp)
              rw [hfl] at hc1 hd1
              simp only [encoderGrowth_frame] at hc2 hd2 he1 he2
              rw [hnn] at hc2 hd2
              have miss : ∀ {k : Nat} {e : Entry}, s1.firstLearned ≤ k → k < s1.n.toNat → s1.mem.read k = some e →
                  ¬ (e.pfx = s0.cand ∧ e.sfx = i) := by
                intro k e hk1 hk2 hk3
                refine dictFind_none hmiss (c := k) ?_ ?_ ?_
                · rwa [firstLearned_of_b (s := s0) (t := s1) (by simp [ff])] at hk1
                · simpa [ff] using hk2
                · simpa [ff] using hk3
              by_cases hcn : c = s1.n.toNat <;> by_cases hdn : d = s1.n.toNat
              · omega
              · exfalso
                rw [hcn, dictAdd_entry] at he1
                simp at he1
                rw [hext.slots d hd1 (by omega)] at he2
                refine miss hd1 (by omega) he2 ?_
                rw [← hp1, ← hs1, ← he1]; simp
              · exfalso
                rw [hdn, dictAdd_entry] at he2
                simp at he2
                rw [hext.slots c hc1 (by omega)] at he1
                refine miss hc1 (by omega) he1 ?_
                rw [hp1, hs1, ← he2]; simp
              · rw [hext.slots c hc1 (by omega)] at he1
                rw [hext.slots d hd1 (by omega)] at he2
                exact eo.unique c d e g hc1 (by omega) hd1 (by omega) he1 he2 hp1 hs1
          · rename_i hn
            unfold encMissFull at he
            cases he
            have w := (writeBits_wrote s0.cand.toNat s0.w.toNat s0).trans (writeBits_wrote s0.clearCode s0.w.toNat _)
            have ff := w.fields
            have bo := w.bufferOk h0.buffers
            have eo := w.encoderOk hd0
            generalize (writeBits s0.clearCode s0.w.toNat (writeBits s0.cand.toNat s0.w.toNat s0)) = s1 at *
            have hb := eo.dict.base
            have hdr := dictReset_dictOk hb
            refine pack (by simp [ff, z1]) (by simp [ff, z2]) (by simp [ff, z3]) (by simp [ff, h0.ram]) ⟨hdr.same
                rfl rfl rfl rfl, ?_, ?_, ?_, ?_⟩ (bo.same (by simp) (by simp) (by simp) (by simp) (by simp)
                (by simp)) (by simp [ff, z4]) (by simp [ff, z5]) (by simp [ff, z6])
            · simpa using eo.basePalette
            · show (dictReset s1).w.toNat = min 12 (bitlen ((dictReset s1).n.toNat - 1))
              rw [dictReset_w_toNat hb, dictReset_n_toNat hb, (bitlen_firstLearned hb).2]; omega
            · intro _
              simp only [hi12]
              have hci : i.toNat < s1.clearCode := by rw [clearCode_of_b (s := s0) (by simp [ff])]; omega
              have : (dictReset s1).dataCode i.toNat := dataCode_literal hdr hci
              exact dataCode_same this rfl rfl
            · intro c d e g hc1 hc2
              have : (dictReset s1).n.toNat = s1.firstLearned := dictReset_n_toNat hb
              have e3 : ({ dictReset s1 with cand := i.setWidth 12 } : State).firstLearned = s1.firstLearned := rfl
              rw [e3] at hc1
              change c < (dictReset s1).n.toNat at hc2
              omega

theorem fetchEngine_inv {s : State} (h : Inv s) :
   (∀ t, fetchEngine s = .settled (.next t) → Inv t) ∧ (∀ i s' t, fetchEngine s = .instr i s' → exec i s' = .next t →
       Inv t) := by
  unfold fetchEngine
  split
  iterate 3 (refine ⟨?_, by simp⟩; intro t ht; simp at ht; rw [← ht]; exact h)
  rename_i hp
  split
  · rename_i ho
    refine ⟨?_, by simp⟩
    intro t ht; simp at ht; exact encIndex_inv h hp ho ht
  · rename_i ho
    refine ⟨?_, by simp⟩
    intro t ht; simp at ht; exact encFinish_inv h hp ho ht
  · rename_i ho
    unfold fetchWidth
    split
    · refine ⟨?_, by simp⟩
      intro t ht; simp at ht; rw [← ht]; exact h
    · refine ⟨?_, by simp⟩
      intro t ht; simp at ht; rw [← ht]
      exact raise_taken_inv (by simp) (by simp) h.ram (h.dict.imp (fun x => x.same rfl rfl
          rfl rfl) (fun x => x.same rfl rfl rfl rfl)) (h.buffers.same rfl rfl rfl rfl rfl rfl)
    · rename_i v q hq
      refine ⟨by simp [decode, Fetched.ofDecoded], ?_⟩
      intro i s' t ht he
      simp [decode, Fetched.ofDecoded] at ht
      obtain ⟨rfl, rfl⟩ := ht
      exact widthByte_inv (s := { s with inq := q }) (h.of_ports rfl) hp ho he
  · rename_i ho
    have := fetchCode_inv h hp ho
    refine ⟨this.1, ?_⟩
    intro i s' t hf he
    obtain ⟨hI, hp', ho', c, hdec⟩ := this.2 i s' hf
    exact exec_code_inv hI hp' ho' hdec he
  · rename_i ho
    refine ⟨?_, by simp⟩
    intro t ht; simp at ht; rw [← ht]; exact drainStep_inv h hp ho

theorem command_inv {f : State → State} {s t : State} (h : Inv s) (hf : s.phase ≠ .run → Inv (f s))
    (he : command f s = .next t) : Inv t := by
  unfold command at he
  split at he
  · cases he; exact h
  · cases he; exact hf ‹_›

theorem decodeCommand_inv {v : HostWord} {s t : State} (h : Inv s)
    (he : exec (decodeCommand v) s = .next t) : Inv t := by
  unfold decodeCommand at he
  split at he
  · exact command_inv h (acknowledge_inv h) he
  · exact command_inv h (fun _ => startEncode_inv h) he
  · exact command_inv h (fun _ => startDecode_inv h) he
  · exact command_inv h (reserved_inv h) he

theorem fetchHost_inv {hs : HostStep} {s : State} (h : Inv s) :
   (∀ t, fetchHost hs s = .settled (.next t) → Inv t) ∧ (∀ i s' t, fetchHost hs s = .instr i s' →
       exec i s' = .next t → Inv t) := by
  unfold fetchHost
  split
  · split
    · simp
    · split
      · refine ⟨by simp [decode, Fetched.ofDecoded], ?_⟩
        intro i s' t ht he
        simp [decode, Fetched.ofDecoded] at ht
        obtain ⟨rfl, rfl⟩ := ht
        exact decodeCommand_inv h he
      · refine ⟨?_, by simp⟩
        intro t ht
        simp at ht
        rw [← ht]
        unfold writeRegister
        split
        · exact h.of_ports rfl
        · exact h
  · split
    · simp
    · refine ⟨?_, by simp⟩
      intro t ht
      simp at ht
      rw [← ht]; unfold hostRead; exact h.of_ports rfl
  · refine ⟨?_, by simp⟩
    intro t ht
    simp at ht
    rw [← ht]; exact h.of_ports rfl
  · split
    · simp
    · refine ⟨?_, by simp⟩
      intro t ht
      simp at ht
      rw [← ht]; exact h.of_ports rfl
  · split
    · simp
    · refine ⟨?_, by simp⟩
      intro t ht
      simp at ht
      rw [← ht]; exact h.of_ports rfl
  · refine ⟨?_, by simp⟩
    intro t ht
    simp at ht
    rw [← ht]
    refine ⟨h.ram, .inl (by simp [NoBase, powerOnReset, State.reset]), by simp [powerOnReset, State.reset], ⟨?_,
        ?_, ?_, ?_, ?_⟩, ⟨?_, ?_, ?_⟩⟩ <;>
      simp [powerOnReset, State.reset]

end Sys2Proof.Machine
end

