-- ==== Sys2Proof/Laws/Step.lean ====
section
/-! SUPPORT. One step, by whose turn it is, and several steps. -/

namespace Sys2Proof.Machine

/-- A step on the engine's turn (R193). -/
theorem engine_step {s : State}
    (h : s.engineTurn) : step s = (match fetchEngine s.afterTurn with | .settled r => r | .instr i s' => exec i s') := by
  have : fetch s = fetchEngine s.afterTurn := by
    unfold fetch State.afterTurn
    cases ha : s.agenda with
    | nil => simp only [List.tail_nil]; rw [← ha]
    | cons x xs => cases x with
      | engine => simp only [List.tail_cons]
      | host hh => exact absurd ha (h hh xs)
  exact congrArg (fun f : Fetched => match f with | .settled r => r | .instr i s' => exec i s') this

/-- A step on the host's turn (R192). -/
theorem host_step {s : State} {hs rest}
    (h : s.agenda = .host hs :: rest) : step s = (match fetchHost hs { s with agenda := rest } with | .settled r => r | .instr i s' => exec i s') := by
  have : fetch s = fetchHost hs { s with agenda := rest } := by unfold fetch; simp only [h]
  exact congrArg (fun f : Fetched => match f with | .settled r => r | .instr i s' => exec i s') this

/-- With no turn listed, the turn is the engine's (log 1). -/
theorem engineTurn_nil {s : State} (h : s.agenda = []) : s.engineTurn := by
  intro x r; rw [h]; simp

theorem afterTurn_nil {s : State} (h : s.agenda = []) : s.afterTurn = s := by
  unfold State.afterTurn; cases s; simp_all

/-- A step with no turn listed. -/
theorem engine_step_nil {s : State}
    (h : s.agenda = []) : step s = (match fetchEngine s with | .settled r => r | .instr i s' => exec i s') := by
  rw [engine_step (engineTurn_nil h), afterTurn_nil h]

/-- The step that takes an index (R182). -/
theorem engine_encIndex {s : State} {x q}
    (h : s.takesIndex x q) : step s = encodeIndex x { s.afterTurn with inq := q } := by
  obtain ⟨he, hp, ho, hi⟩ := h
  rw [engine_step he]
  have e1 : s.afterTurn.phase = .run := hp
  have e2 : s.afterTurn.inq = .byte x :: q := hi
  have e3 : s.afterTurn.opk = .encIndex := ho
  simp [fetchEngine, e1, e3, encIndexStep, e2]

/-- A step of the drain (R185). -/
theorem drain_step {s : State} (ha : s.agenda = []) (hp : s.phase = .run)
    (ho : s.opk = .decDrain) : step s = .next (drainStep s) := by
  rw [engine_step_nil ha]; simp [fetchEngine, hp, ho]

/-- A step of the code loop (R184). -/
theorem engine_codes {s : State} (h : s.engineTurn) (hp : s.phase = .run) (ho : s.opk = .decCodes) :
    step s = (match fetchCode s.afterTurn with | .settled r => r | .instr i s' => exec i s') := by
  have : fetchEngine s.afterTurn = fetchCode s.afterTurn := by
    have h1 : s.afterTurn.phase = .run := hp
    have h2 : s.afterTurn.opk = .decCodes := ho
    simp only [fetchEngine, h1, h2]
  exact (engine_step h).trans
    (congrArg (fun f : Fetched => match f with | .settled r => r | .instr i s' => exec i s') this)

/-- A step of a drain (R185). -/
theorem engine_drain {s : State} (h : s.engineTurn) (hp : s.phase = .run) (ho : s.opk = .decDrain) :
    step s = .next (drainStep s.afterTurn) := by
  have h1 : s.afterTurn.phase = .run := hp
  have h2 : s.afterTurn.opk = .decDrain := ho
  rw [engine_step h]
  simp only [fetchEngine, h1, h2]

theorem runSteps_succ (k : Nat) (s t : State) (h : step s = .next t) : runSteps (k + 1) s = runSteps k t := by
  rw [runSteps, h]

theorem runSteps_one {s t : State} (h : step s = .next t) : runSteps 1 s = .next t := by rw [runSteps_succ _ _ _ h]; rfl

/-- Runs compose. -/
theorem runSteps_add {a b : Nat} {s t u : State} (h1 : runSteps a s = .next t)
    (h2 : runSteps b t = .next u) : runSteps (a + b) s = .next u := by
  induction a generalizing s with
  | zero => simp [runSteps] at h1; subst h1; simpa using h2
  | succ a ih =>
    rw [runSteps] at h1
    cases hs : step s with
    | next v => rw [hs] at h1; simp only at h1; rw [show a + 1 + b = (a + b) + 1 by omega, runSteps_succ _ _ _ hs]; exact ih h1
    | fault f => rw [hs] at h1; cases h1
    | refused r => rw [hs] at h1; cases h1

theorem workLeft_fault {s : State} (h : s.phase = .fault) : workLeft s = 0 := by simp [workLeft, h]

theorem workLeft_done {s : State} (h : s.phase = .done) : workLeft s = 0 := by simp [workLeft, h]

/-- The measure of R242 while an operation runs. -/
theorem workLeft_run {s : State} (h : s.phase = .run) : workLeft s = (match s.opk with
    | .encIndex => s.inq.length + 2
    | .encFinish => 1
    | .decWidth => 8 * s.inq.length + 3
    | .decCodes => 8 * s.inq.length + s.racc.length + 2
    | .decDrain => 8 * s.inq.length + 1) := by
  cases hk : s.opk <;> simp only [workLeft, h, hk]

theorem workLeft_pos {s : State} (h : s.phase = .run) : 0 < workLeft s := by
  rw [workLeft_run h]; split <;> omega

end Sys2Proof.Machine
end

