-- ==== Sys2Proof/Laws/Codes.lean ====
section
/-! SUPPORT. Everything the execution of a code can do, once per operation (43_decode_step.md). -/

namespace Sys2Proof.Machine

/-- Everything `KnownEntry(c)` does where the full-table policy lets it run (R144, R147). -/
theorem knownEntry_runs {s : State} {c : Code} (hd : DecoderOk s) (hc : s.dataCode c.toNat) (hp : ¬ (s.tableFull ∧
    s.cfg.fullTable = .fault)) :
    ∃ f q t, seqOf s c.toNat = some (f :: q) ∧ firstOf s c.toNat = some f ∧ knownEntry c s = .next t ∧
        t.outq = s.outq ++ (f :: q).map OutItem.byte ∧ DecoderAdds f s t ∧
      t.prev = c ∧ t.jr = false ∧
          t = { s with n := t.n, w := t.w, jr := t.jr, prev := t.prev, mem := t.mem, outq := t.outq } := by
  obtain ⟨f, q, hf, hq⟩ := hd.dict.seq_defined hc
  have h0 : ¬ (s.jr = false ∧ s.n.toNat = 4096 ∧ s.cfg.fullTable = .fault) := fun h => hp ⟨⟨h.1, h.2.1⟩, h.2.2⟩
  have hsz := hd.dict.size.2
  by_cases ha : s.jr = false ∧ s.n.toNat < 4096
  · obtain ⟨g, q', hg, -⟩ := hd.dict.seq_defined (hd.prevValid ha.1)
    have hg' : firstOf (outPutAll (f :: q) s) (outPutAll (f :: q) s).prev.toNat = some g := 
      (Extends.of_eq (s := s) rfl rfl rfl).firstOf hg
    refine ⟨f, q, endDataCode c (decoderGrowth (dictAdd s.prev f g (outPutAll (f :: q) s))), hq, hf, ?_, by simp,
        ?_, rfl, rfl, ?_⟩
    · unfold knownEntry addAfterPrevious
      rw [if_neg h0, hq, hf]
      simp only [if_pos ha, hg']
      rfl
    · unfold DecoderAdds
      rw [if_neg (by simp [ha.1]; omega)]
      have hn : (outPutAll (f :: q) s).n.toNat < 4096 := ha.2
      refine ⟨?_, ?_, ⟨g, hg, ?_⟩, ?_⟩
      · simp; omega
      · have := decoderGrowth_w (s := dictAdd s.prev f g (outPutAll (f :: q) s))
        rw [dictAdd_n, n_succ hn] at this
        exact this
      · have := dictAdd_entry s.prev f g (outPutAll (f :: q) s)
        simpa using this
      · intro c' hc'
        have : (dictAdd s.prev f g (outPutAll (f :: q) s)).mem.read c' = s.mem.read c' := by
          rw [dictAdd_mem]; exact Memory.read_write_other _ _ hc'
        simpa using this
    · have e : ∀ t : State, decoderGrowth t = { t with w := (decoderGrowth t).w } := by intro t; unfold decoderGrowth; split <;> rfl
      rw [e]; rfl
  · refine ⟨f, q, endDataCode c (outPutAll (f :: q) s), hq, hf, ?_, by simp, ?_, rfl, rfl, rfl⟩
    · unfold knownEntry
      rw [if_neg h0, hq, hf]
      simp only [if_neg ha]
    · unfold DecoderAdds
      rw [if_pos]
      · exact ⟨rfl, rfl, fun _ => rfl⟩
      · by_cases hj : s.jr = true
        · exact .inl hj
        · right; simp at hj; simp [hj] at ha; omega

/-- Everything `ExecKwKwK()` does between two codes (R148): the new entry is the sequence it emits. -/
theorem notYetMaterialised_runs {s : State} {c : Code} (hd : DecoderOk s) (hj : s.jr = false)
    (hc : c.toNat = s.n.toNat) :
    ∃ f q t, seqOf s s.prev.toNat = some (f :: q) ∧ notYetMaterialised c s = .next t ∧
      t.outq = s.outq ++ ((f :: q) ++ [f]).map OutItem.byte ∧ DecoderAdds f s t ∧
      t.mem.read c.toNat = some { pfx := s.prev, sfx := f, fst := f } ∧ seqOf t c.toNat = some ((f :: q) ++ [f]) ∧
      t.prev = c ∧ t.jr = false ∧
      t = { s with n := t.n, w := t.w, jr := t.jr, prev := t.prev, mem := t.mem, outq := t.outq } := by
  have hn : s.n.toNat < 4096 := by rw [← hc]; exact c.isLt
  have hpv := hd.prevValid hj
  obtain ⟨f, q, hf, hq⟩ := hd.dict.seq_defined hpv
  have hda := dictAdd_dictOk (x := f) hd.dict hn hpv hf
  have hg := decoderGrowth_dictOk hda
  have hx := dictAdd_extends s.prev f f hn
  have hgx : Extends (dictAdd s.prev f f s) (decoderGrowth (dictAdd s.prev f f s)) := Extends.of_eq (by simp)
      (by simp) (by simp)
  refine ⟨f, q, endDataCode c (outPutAll ((f :: q) ++ [f]) (decoderGrowth (dictAdd s.prev f f s))), hq, ?_,
      by simp, ?_, ?_, ?_, rfl, rfl, ?_⟩
  · unfold notYetMaterialised
    rw [if_neg (by omega), hq, hf]
  · unfold DecoderAdds
    rw [if_neg (by simp [hj]; omega)]
    refine ⟨by simp; omega, ?_, ⟨f, hf, ?_⟩, ?_⟩
    · have := decoderGrowth_w (s := dictAdd s.prev f f s)
      rw [dictAdd_n, n_succ hn] at this
      exact this
    · have := dictAdd_entry s.prev f f s
      simpa using this
    · intro c' hc'
      have : (dictAdd s.prev f f s).mem.read c' = s.mem.read c' := Memory.read_write_other _ _ hc'
      simpa using this
  · have := dictAdd_entry s.prev f f s
    rw [hc]; simpa using this
  · have hr : dictRead (decoderGrowth (dictAdd s.prev f f s)) s.n.toNat = some { pfx := s.prev, sfx := f, fst := f } := by
      unfold dictRead
      rw [firstLearned_of_b (s := s) (by simp), if_pos]
      · have := dictAdd_entry s.prev f f s
        simpa using this
      · refine ⟨hd.dict.size.1, ?_⟩
        simp; omega
    have h1 : seqOf (decoderGrowth (dictAdd s.prev f f s)) s.prev.toNat = some (f :: q) := hgx.seqOf (hx.seqOf hq)
    have := seqOf_learned hr hpv.1 h1
    have e : Extends (decoderGrowth (dictAdd s.prev f f s)) (endDataCode c (outPutAll ((f :: q) ++ [f]) (decoderGrowth (dictAdd s.prev f f s)))) := Extends.of_eq rfl rfl rfl
    rw [hc]
    exact e.seqOf this
  · have e : ∀ t : State, decoderGrowth t = { t with w := (decoderGrowth t).w } := by intro t; unfold decoderGrowth; split <;> rfl
    rw [e]; rfl

/-- What `KnownEntry(c)` leaves of the operation, the port and the unpacker. -/
theorem knownEntry_stage {c : Code} {s t : State} (hp : s.phase = .run) (ho : s.opk = .decCodes)
    (h : knownEntry c s = .next t) :
    t.phase = .run ∧ t.inq = s.inq ∧ t.racc = s.racc ∧ (t.opk = .decCodes ∨ t.opk = .decDrain) := by
  unfold knownEntry at h
  split at h
  · unfold badCode at h; cases h; rw [raise_held hp ho (.inl rfl)]; simp [hp]
  · split at h
    · split at h
      · unfold addAfterPrevious at h
        split at h
        · cases h
        · rename_i s' hs'
          cases h
          split at hs'
          · cases hs'
          · cases hs'
            simp [hp, ho]
      · cases h; simp [hp, ho]
    · cases h

/-- What a code leaves of the operation, the port and the unpacker. -/
theorem exec_code_stage {s t : State} {c : Code} {b n jr} {i : Instr} (hp : s.phase = .run)
    (ho : s.opk = .decCodes) (hi : decodeCode b n jr c = .instr i) (h : exec i s = .next t) :
    t.phase = .run ∧ t.inq = s.inq ∧ t.racc = s.racc ∧ (t.opk = .decCodes ∨ t.opk = .decDrain) := by
  obtain ⟨-, hc⟩ := decodeCode_cases hi
  rcases hc with ⟨hc, hr⟩ | ⟨hc, hr⟩ | ⟨hc, hr⟩ | ⟨hge, hc, rfl⟩ | ⟨hge, hc, hj, rfl⟩ | ⟨hge, hc, hj, rfl⟩ | ⟨hge, hc, rfl⟩
  · rw [exec_clearRow hr] at h; cases h; simp [hp, ho]
  · rw [exec_eoiRow hr] at h; cases h; simp [hp]
  · rw [exec_literalRow hr hc] at h; exact knownEntry_stage hp ho h
  · exact knownEntry_stage hp ho h
  · change notYetMaterialised c s = _ at h
    unfold notYetMaterialised at h
    split at h
    · cases h
    · split at h
      · cases h; simp [hp, ho]
      · cases h
  · change badCode c s = _ at h
    unfold badCode at h; cases h; rw [raise_held hp ho (.inl rfl)]; simp [hp]
  · change badCode c s = _ at h
    unfold badCode at h; cases h; rw [raise_held hp ho (.inl rfl)]; simp [hp]

theorem knownEntry_framer {c : Code} {s t : State} (hp : s.phase = .run) (ho : s.opk = .decCodes)
    (h : knownEntry c s = .next t) :
    t.rem = s.rem ∧ t.pend = s.pend ∧ t.agenda = s.agenda ∧
        (t.pfault = s.pfault ∨ ∃ i, t.pfault = some (.badCode, i)) := by
  unfold knownEntry at h
  split at h
  · unfold badCode at h; cases h; rw [raise_held hp ho (.inl rfl)]; simp
  · split at h
    · split at h
      · unfold addAfterPrevious at h
        split at h
        · cases h
        · rename_i s' hs'
          cases h
          split at hs'
          · cases hs'
          · cases hs'
            simp
      · cases h; simp
    · cases h

/-- What a code leaves of the framer, and the fault it may hold (R186). -/
theorem exec_code_framer {s t : State} {c : Code} {b n jr} {i : Instr} (hp : s.phase = .run)
    (ho : s.opk = .decCodes) (hi : decodeCode b n jr c = .instr i) (h : exec i s = .next t) :
    t.rem = s.rem ∧ t.pend = s.pend ∧ t.agenda = s.agenda ∧
        (t.pfault = s.pfault ∨ ∃ i, t.pfault = some (.badCode, i)) := by
  obtain ⟨-, hc⟩ := decodeCode_cases hi
  rcases hc with ⟨hc, hr⟩ | ⟨hc, hr⟩ | ⟨hc, hr⟩ | ⟨hge, hc, rfl⟩ | ⟨hge, hc, hj, rfl⟩ | ⟨hge, hc, hj, rfl⟩ | ⟨hge, hc, rfl⟩
  · rw [exec_clearRow hr] at h; cases h; simp
  · rw [exec_eoiRow hr] at h; cases h; simp
  · rw [exec_literalRow hr hc] at h; exact knownEntry_framer hp ho h
  · exact knownEntry_framer hp ho h
  · change notYetMaterialised c s = _ at h
    unfold notYetMaterialised at h
    split at h
    · cases h
    · split at h
      · cases h; simp
      · cases h
  · change badCode c s = _ at h
    unfold badCode at h; cases h; rw [raise_held hp ho (.inl rfl)]; simp
  · change badCode c s = _ at h
    unfold badCode at h; cases h; rw [raise_held hp ho (.inl rfl)]; simp

/-- A valid data code of the decoder runs `KnownEntry` (R145, R146). -/
theorem data_decodes {d : State} (hd : DictOk d) {c : Code}
    (hc : d.dataCode c.toNat) : ∃ i, decodeCode d.b d.n d.jr c = .instr i ∧ ∀ s, exec i s = knownEntry c s := by
  obtain ⟨i, hi⟩ := @decodeCode_total d.b d.n d.jr c hd.base.1 hd.base.2
  refine ⟨i, hi, ?_⟩
  obtain ⟨-, h⟩ := decodeCode_cases hi
  unfold State.dataCode State.clearCode State.eoiCode at hc
  rcases h with ⟨h, hr⟩ | ⟨h, hr⟩ | ⟨h, hr⟩ | ⟨hge, h, rfl⟩ | ⟨hge, h, hj, rfl⟩ | ⟨hge, h, hj, rfl⟩ | ⟨hge, h, rfl⟩
  · omega
  · omega
  · exact fun s => exec_literalRow hr h s
  · exact fun s => rfl
  · omega
  · omega
  · omega

/-- The code `N` of an epoch with a previous code is `KWKWK` (R148). -/
theorem kwkwk_decodes {d : State} (hd : DictOk d) {c : Code} (hc : c.toNat = d.n.toNat)
    (hj : d.jr = false) : decodeCode d.b d.n d.jr c = .instr (.kwkwk c) := by
  obtain ⟨i, hi⟩ := @decodeCode_total d.b d.n d.jr c hd.base.1 hd.base.2
  obtain ⟨-, h⟩ := decodeCode_cases hi
  have := hd.size.1
  unfold State.firstLearned at this
  rcases h with ⟨h, hr⟩ | ⟨h, hr⟩ | ⟨h, hr⟩ | ⟨hge, h, rfl⟩ | ⟨hge, h, hj, rfl⟩ | ⟨hge, h, hj, rfl⟩ | ⟨hge, h, rfl⟩
  · omega
  · omega
  · omega
  · omega
  · exact hi
  · simp_all
  · omega

/-- `2^b` is Clear (R142). -/
theorem clear_decodes {d : State}
    (hd : DictOk d) : ∃ i, decodeCode d.b d.n d.jr (BitVec.ofNat 12 (2 ^ d.b.toNat)) = .instr i ∧
    ∀ s, exec i s = clearCodeTable s := by
  have hb := two_pow_b_bounds hd.base
  obtain ⟨i, hi⟩ := @decodeCode_total d.b d.n d.jr (BitVec.ofNat 12 (2 ^ d.b.toNat)) hd.base.1 hd.base.2
  refine ⟨i, hi, ?_⟩
  obtain ⟨-, h⟩ := decodeCode_cases hi
  have e : (BitVec.ofNat 12 (2 ^ d.b.toNat)).toNat = 2 ^ d.b.toNat := by rw [BitVec.toNat_ofNat]; exact Nat.mod_eq_of_lt (by omega)
  rw [e] at h
  rcases h with ⟨h, hr⟩ | ⟨h, hr⟩ | ⟨h, hr⟩ | ⟨hge, h, rfl⟩ | ⟨hge, h, hj, rfl⟩ | ⟨hge, h, hj, rfl⟩ | ⟨hge, h, rfl⟩
  · exact fun s => exec_clearRow hr s
  all_goals omega

/-- `2^b + 1` is EOI (R143). -/
theorem eoi_decodes {d : State}
    (hd : DictOk d) : ∃ i, decodeCode d.b d.n d.jr (BitVec.ofNat 12 (2 ^ d.b.toNat + 1)) = .instr i ∧
    ∀ s, exec i s = endOfInformation s := by
  have hb := two_pow_b_bounds hd.base
  obtain ⟨i, hi⟩ := @decodeCode_total d.b d.n d.jr (BitVec.ofNat 12 (2 ^ d.b.toNat + 1)) hd.base.1 hd.base.2
  refine ⟨i, hi, ?_⟩
  obtain ⟨-, h⟩ := decodeCode_cases hi
  have e : (BitVec.ofNat 12 (2 ^ d.b.toNat + 1)).toNat = 2 ^ d.b.toNat + 1 := by rw [BitVec.toNat_ofNat]; exact Nat.mod_eq_of_lt (by omega)
  rw [e] at h
  rcases h with ⟨h, hr⟩ | ⟨h, hr⟩ | ⟨h, hr⟩ | ⟨hge, h, rfl⟩ | ⟨hge, h, hj, rfl⟩ | ⟨hge, h, hj, rfl⟩ | ⟨hge, h, rfl⟩
  · omega
  · exact fun s => exec_eoiRow hr s
  all_goals omega

end Sys2Proof.Machine
end

