-- ==== Sys2Proof/Laws/Encode.lean ====
section
/-! SUPPORT. The encoder's start, its miss and its end (44_encode_step.md). -/

namespace Sys2Proof.Machine

/-- The base width of a legal palette size is the least one of 2 to 8 that holds it (R134, C1). -/
theorem baseWidth_spec {p b : Nat} (h : baseWidth p = some b) : 2 ≤ b ∧ b ≤ 8 ∧ p ≤ 2 ^ b ∧
    (b = 2 ∨ 2 ^ (b - 1) < p) := by
  obtain ⟨h2, h8, h1, -⟩ := baseWidth_range h
  unfold baseWidth at h
  split at h
  · simp at h
  · simp at h
    refine ⟨h2, h8, ?_, ?_⟩
    · exact (ceilLog2_le h1).mp (by omega)
    · by_cases hb : b = 2
      · exact .inl hb
      · right
        have : ¬ ceilLog2 p ≤ b - 1 := by omega
        rw [ceilLog2_le h1] at this
        omega

/-- A palette size that has no base width (R204). -/
theorem baseWidth_none {p : Nat} : baseWidth p = none ↔ (p = 0 ∨ 256 < p) := by
  unfold baseWidth; split <;> simp <;> omega

/-- `EncodeIndex` where the candidate and the index are in no entry (R164, R165). -/
theorem encodeIndex_miss {s : State} {x : Byte} (hx : x.toNat < 2 ^ s.b.toNat) (hc : s.candV = true)
    (hf : dictFind s s.cand x = none) :
    encodeIndex x s = if s.n.toNat < 4096 then encMiss x s else encMissFull x s := by
  unfold encodeIndex
  rw [if_neg (by show ¬ 2 ^ s.b.toNat ≤ x.toNat; omega), if_neg (by simp [hc]), hf]

/-- What an index leaves of the operation and the port. -/
theorem encodeIndex_stage {x : Byte} {s t : State} (hp : s.phase = .run) (ho : s.opk = .encIndex)
    (h : encodeIndex x s = .next t) :
    t.inq = s.inq ∧ ((t.phase = .run ∧ t.opk = .encIndex) ∨ t.phase = .fault) := by
  unfold encodeIndex at h
  split at h
  · cases h
    rw [raise_taken (by simp [ho])]
    simp
  · split at h
    · cases h; simp [hp, ho]
    · split at h
      · cases h; simp [hp, ho]
      · split at h
        · unfold encMiss at h
          split at h
          · cases h
          · cases h; simp [hp, ho]
        · unfold encMissFull at h
          cases h; simp [hp, ho]

/-- The width of `EOI` is the closed form of R78 at the decoder's count (R166, C4). -/
theorem final_width {n w : Nat} (h : w = min 12 (bitlen (n - 1))) (h1 : 1 ≤ n) (hn : n ≤ 4096) : (if n = 2 ^ w ∧
    w < 12 then w + 1 else w) = min 12 (bitlen n) := by
  obtain ⟨m, rfl⟩ : ∃ m, n = m + 1 := ⟨n - 1, by omega⟩
  have := closed_width_succ (w := w) (n := m) (by simpa using h)
  rw [← this]
  have hfit : m < 2 ^ w ∨ w = 12 := by
    by_cases h12 : w = 12
    · exact .inr h12
    · left
      have hle : bitlen m ≤ w := by simp at h; omega
      exact bitlen_le.mp hle
  have e : (m + 1 = 2 ^ w ∧ w < 12) ↔ (2 ^ w ≤ m + 1 ∧ w < 12) := by
    constructor
    · rintro ⟨a, b⟩; exact ⟨by omega, b⟩
    · rintro ⟨a, b⟩; refine ⟨?_, b⟩
      rcases hfit with h | h <;> omega
  simp only [e]

end Sys2Proof.Machine
end

