-- ==== Sys2Proof/Laws/PerInstr.lean ====
section
/-! SUPPORT. The statement made per instruction: its word carries the bits its row of spec/opcode_table.json fixes. -/

namespace Sys2Proof.Laws.TableRow

/-- The number a word of the wire stands for, bit 0 least significant (R75). -/
def wordValue : WireWord → Nat
  | .cmd v => v.toNat
  | .byte v => v.toNat
  | .code c => c.toNat

/-- The columns `match` and `mask` of the instruction's row (R83). -/
def matchAndMask : Instr → Nat × Nat
  | .cmdAck _ => (0x00000000, 0x00000003)
  | .cmdEncode _ => (0x00000001, 0x00000003)
  | .cmdDecode _ => (0x00000002, 0x00000003)
  | .cmdReserved _ => (0x00000003, 0x00000003)
  | .widthByte _ => (0x00, 0x00)
  | .subblockTerm => (0x00, 0xFF)
  | .subblockLen _ => (0x00, 0x00)
  | .clear2 => (0x004, 0xFFF)
  | .eoi2 => (0x005, 0xFFF)
  | .literal2 _ => (0x000, 0xFFC)
  | .clear3 => (0x008, 0xFFF)
  | .eoi3 => (0x009, 0xFFF)
  | .literal3 _ => (0x000, 0xFF8)
  | .clear4 => (0x010, 0xFFF)
  | .eoi4 => (0x011, 0xFFF)
  | .literal4 _ => (0x000, 0xFF0)
  | .clear5 => (0x020, 0xFFF)
  | .eoi5 => (0x021, 0xFFF)
  | .literal5 _ => (0x000, 0xFE0)
  | .clear6 => (0x040, 0xFFF)
  | .eoi6 => (0x041, 0xFFF)
  | .literal6 _ => (0x000, 0xFC0)
  | .clear7 => (0x080, 0xFFF)
  | .eoi7 => (0x081, 0xFFF)
  | .literal7 _ => (0x000, 0xF80)
  | .clear8 => (0x100, 0xFFF)
  | .eoi8 => (0x101, 0xFFF)
  | .literal8 _ => (0x000, 0xF00)
  | .learned _ => (0x000, 0x000)
  | .kwkwk _ => (0x000, 0x000)
  | .kwkwkAfterReset _ => (0x000, 0x000)
  | .invalid _ => (0x000, 0x000)

/-- The instruction's own word is a word of its row: `(word & mask) = match`. -/
def Statement (i : Instr) : Prop := wordValue (encode i) &&& (matchAndMask i).2 = (matchAndMask i).1

theorem command_low (x : BitVec 30) (op : BitVec 2) : wordValue (commandWord x op) &&& 3 = op.toNat := by
  have h : wordValue (commandWord x op) = x.toNat * 4 + op.toNat := append_toNat x op
  rw [h, show (3 : Nat) = 2 ^ 2 - 1 from rfl, Nat.and_two_pow_sub_one_eq_mod]
  have := op.isLt
  omega

theorem low_bits {k : Nat} (x : BitVec k) (hk : k ≤ 12) : (x.setWidth 12).toNat &&& (2 ^ 12 - 2 ^ k) = 0 := by
  have hx : (x.setWidth 12).toNat < 2 ^ k := by
    rw [BitVec.toNat_setWidth]
    exact Nat.lt_of_le_of_lt (Nat.mod_le _ _) x.isLt
  have hm : 2 ^ 12 - 2 ^ k = (2 ^ (12 - k) - 1) * 2 ^ k := by
    rw [Nat.sub_mul, Nat.one_mul, ← Nat.pow_add, Nat.sub_add_cancel hk]
  apply Nat.eq_of_testBit_eq
  intro i
  rw [hm, Nat.testBit_and, Nat.testBit_mul_two_pow, Nat.zero_testBit]
  by_cases hi : k ≤ i
  · rw [Nat.testBit_lt_two_pow (Nat.lt_of_lt_of_le hx (Nat.pow_le_pow_right (by omega) hi))]; rfl
  · simp [hi]

theorem cmdAck (x : BitVec 30) : Statement (.cmdAck x) := command_low x _

theorem cmdEncode (x : BitVec 30) : Statement (.cmdEncode x) := command_low x _

theorem cmdDecode (x : BitVec 30) : Statement (.cmdDecode x) := command_low x _

theorem cmdReserved (x : BitVec 30) : Statement (.cmdReserved x) := command_low x _

theorem widthByte (v : Byte) : Statement (.widthByte v) := Nat.and_zero _

theorem subblockTerm : Statement .subblockTerm := rfl

theorem subblockLen (v : Byte) : Statement (.subblockLen v) := Nat.and_zero _

theorem clear2 : Statement .clear2 := rfl

theorem eoi2 : Statement .eoi2 := rfl

theorem literal2 (x : BitVec 2) : Statement (.literal2 x) := low_bits x (by omega)

theorem clear3 : Statement .clear3 := rfl

theorem eoi3 : Statement .eoi3 := rfl

theorem literal3 (x : BitVec 3) : Statement (.literal3 x) := low_bits x (by omega)

theorem clear4 : Statement .clear4 := rfl

theorem eoi4 : Statement .eoi4 := rfl

theorem literal4 (x : BitVec 4) : Statement (.literal4 x) := low_bits x (by omega)

theorem clear5 : Statement .clear5 := rfl

theorem eoi5 : Statement .eoi5 := rfl

theorem literal5 (x : BitVec 5) : Statement (.literal5 x) := low_bits x (by omega)

theorem clear6 : Statement .clear6 := rfl

theorem eoi6 : Statement .eoi6 := rfl

theorem literal6 (x : BitVec 6) : Statement (.literal6 x) := low_bits x (by omega)

theorem clear7 : Statement .clear7 := rfl

theorem eoi7 : Statement .eoi7 := rfl

theorem literal7 (x : BitVec 7) : Statement (.literal7 x) := low_bits x (by omega)

theorem clear8 : Statement .clear8 := rfl

theorem eoi8 : Statement .eoi8 := rfl

theorem literal8 (x : BitVec 8) : Statement (.literal8 x) := low_bits x (by omega)

theorem learned (v : Code) : Statement (.learned v) := Nat.and_zero _

theorem kwkwk (v : Code) : Statement (.kwkwk v) := Nat.and_zero _

theorem kwkwkAfterReset (v : Code) : Statement (.kwkwkAfterReset v) := Nat.and_zero _

theorem invalid (v : Code) : Statement (.invalid v) := Nat.and_zero _

end Sys2Proof.Laws.TableRow
end

