-- ==== Sys2Proof/Laws/Progress.lean ====
section
/-! SUPPORT. Where the machine's own steps never stop, and what they keep. -/

namespace Sys2Proof.Machine

/-- Between two codes, the execution of a code answers a next state. -/
theorem exec_code_next {s : State} {c : Code} {i : Instr} (hd : DecoderOk s)
    (hi : decodeCode s.b s.n s.jr c = .instr i) : ∃ t, exec i s = .next t := by
  obtain ⟨-, hc⟩ := decodeCode_cases hi
  have hk : s.dataCode c.toNat → ∃ t, knownEntry c s = .next t := by
    intro hdc
    by_cases hf : s.tableFull ∧ s.cfg.fullTable = .fault
    · exact ⟨_, by unfold knownEntry; rw [if_pos ⟨hf.1.1, hf.1.2, hf.2⟩]; rfl⟩
    · obtain ⟨f, q, t, -, -, h, -⟩ := knownEntry_runs hd hdc hf
      exact ⟨t, h⟩
  rcases hc with ⟨hc, hr⟩ | ⟨hc, hr⟩ | ⟨hc, hr⟩ | ⟨hge, hc, rfl⟩ | ⟨hge, hc, hj, rfl⟩ | ⟨hge, hc, hj, rfl⟩ | ⟨hge, hc, rfl⟩
  · rw [exec_clearRow hr]; exact ⟨_, rfl⟩
  · rw [exec_eoiRow hr]; exact ⟨_, rfl⟩
  · rw [exec_literalRow hr hc]; exact hk (dataCode_literal hd.dict hc)
  · exact hk (dataCode_learned hge hc)
  · obtain ⟨f, q, t, -, h, -⟩ := notYetMaterialised_runs hd hj hc
    exact ⟨t, h⟩
  · exact ⟨_, rfl⟩
  · exact ⟨_, rfl⟩

/-- Between two indices, the step of an index answers a next state. -/
theorem encIndex_next {s : State} (heo : EncoderOk s) : ∃ t, encIndexStep s = .next t := by
  unfold encIndexStep
  split
  · exact ⟨_, rfl⟩
  · exact ⟨_, rfl⟩
  · rename_i i q hq
    unfold encodeIndex
    split
    · exact ⟨_, rfl⟩
    · split
      · exact ⟨_, rfl⟩
      · rename_i hcv
        split
        · exact ⟨_, rfl⟩
        · split
          · have hcv : s.candV = true := by simpa using hcv
            obtain ⟨f, q', hf, -⟩ := heo.dict.seq_defined (heo.candValid hcv)
            unfold encMiss
            have : firstOf { s with inq := q } ({ s with inq := q } : State).cand.toNat = some f := (Extends.of_eq (s := s) rfl rfl rfl).firstOf hf
            rw [this]; exact ⟨_, rfl⟩
          · exact ⟨_, rfl⟩

/-- The engine's turn never stops in a state of the invariant. -/
theorem engine_next {s : State}
    (h : Inv s) : ∃ t, (match fetchEngine s with | .settled r => r | .instr i s' => exec i s') = Host.Outcome.next t := by
  unfold fetchEngine
  cases hp : s.phase with
  | idle => exact ⟨_, rfl⟩
  | done => exact ⟨_, rfl⟩
  | fault => exact ⟨_, rfl⟩
  | run =>
    have hst := h.stage hp
    cases ho : s.opk with
    | encIndex => simp only [StageOk, ho] at hst; exact encIndex_next hst.2
    | encFinish => exact ⟨_, rfl⟩
    | decWidth =>
      simp only [fetchWidth]
      cases hq : s.inq with
      | nil => exact ⟨_, rfl⟩
      | cons x q =>
        cases x with
        | eof => exact ⟨_, rfl⟩
        | byte v =>
          simp only [decode, Fetched.ofDecoded, exec, execWidthByte]
          split <;> exact ⟨_, rfl⟩
    | decCodes =>
      simp only
      have hf := fetchCode_inv h hp ho
      cases hfc : fetchCode s with
      | settled r =>
        unfold fetchCode at hfc
        split at hfc
        · cases hfc; exact ⟨_, rfl⟩
        · cases hfc; exact ⟨_, rfl⟩
        · rename_i c s' hr
          obtain ⟨hk, -⟩ := readBits_ok hr
          have ff := hk.fields
          simp only [StageOk, ho] at hst
          have hb := hst.2.dict.base
          obtain ⟨i, hi⟩ := @decodeCode_total s'.b s'.n s'.jr (BitVec.ofNat 12 c) (by simp [ff, hb]) (by simp [ff, hb])
          have : decode s'.codeContext (.code (BitVec.ofNat 12 c)) = .instr i := hi
          rw [this] at hfc; simp [Fetched.ofDecoded] at hfc
      | instr i s' =>
        obtain ⟨hI, hp', ho', c, hdec⟩ := hf.2 i s' hfc
        have hst' := hI.stage hp'
        simp only [StageOk, ho'] at hst'
        exact exec_code_next hst'.2 hdec
    | decDrain => exact ⟨_, rfl⟩

/-- The engine's turn keeps the invariant, with no turn listed. -/
theorem engine_step_inv {s t : State} (h : Inv s) (ha : s.agenda = []) (he : step s = .next t) : Inv t := by
  rw [engine_step_nil ha] at he
  obtain ⟨h1, h2⟩ := fetchEngine_inv h
  cases hf : fetchEngine s with
  | settled r => rw [hf] at he; simp only at he; exact h1 t (by rw [hf, he])
  | instr i s' => rw [hf] at he; exact h2 i s' t hf he

end Sys2Proof.Machine
end

