-- ==== Sys2Proof/Laws/Stream.lean ====
section
/-! SUPPORT. The payload as a stream: deframing, what `FrameGet` and `ReadBits` make of it, and framing byte by byte. -/

namespace Sys2Proof.Machine

/-! ## Deframing (R102, R105) -/

/-- Within a chunk the bytes are payload. -/
theorem deframe_chunk (c : List Byte) (q : List Token) :
    deframe c.length (c.map Token.byte ++ q) = (deframe 0 q).map (fun x => (c ++ x.1, x.2)) := by
  induction c with
  | nil => cases h : deframe 0 q <;> simp [h]
  | cons v c ih =>
    simp only [List.map_cons, List.cons_append, List.length_cons, deframe, ih]
    cases h : deframe 0 q <;> simp

/-- A whole sub-block. -/
theorem deframe_block {c : List Byte} (h0 : c ≠ []) (h : c.length ≤ 255) (q : List Token) :
    deframe 0 (.byte (BitVec.ofNat 8 c.length) :: (c.map Token.byte ++ q)) =
      (deframe 0 q).map (fun x => (c ++ x.1, x.2)) := by
  have hl : 0 < c.length := List.length_pos_iff.mpr h0
  have hn : (BitVec.ofNat 8 c.length).toNat = c.length := by
    rw [BitVec.toNat_ofNat]
    omega
  have hv : BitVec.ofNat 8 c.length ≠ 0 := by
    intro hv
    rw [hv] at hn
    simp at hn
    omega
  rw [deframe, if_neg hv, hn, deframe_chunk]

theorem deframe_terminator (q : List Token) : deframe 0 (.byte 0 :: q) = some ([], q) := by
  simp [deframe]

/-- The payload of a state: what `FrameGet` returns at its end (R105). -/
theorem frameGet_deframe_nil {s : State} {rest : List Token} (hp : s.pend = false)
    (h : deframe s.rem.toNat s.inq = some ([], rest)) :
    s.rem = 0 ∧ frameGet s = .ok none { s with inq := rest, pend := true } := by
  cases hr : s.rem.toNat with
  | succ n =>
    rw [hr] at h
    cases hq : s.inq with
    | nil => rw [hq] at h; simp [deframe] at h
    | cons x q =>
      rw [hq] at h
      cases x with
      | eof => simp [deframe] at h
      | byte v =>
        simp only [deframe] at h
        split at h <;> simp at h
  | zero =>
    rw [hr] at h
    have hr0 : s.rem = 0 := by
      apply BitVec.eq_of_toNat_eq
      simpa using hr
    refine ⟨hr0, ?_⟩
    cases hq : s.inq with
    | nil => rw [hq] at h; simp [deframe] at h
    | cons x q =>
      rw [hq] at h
      cases x with
      | eof => simp [deframe] at h
      | byte v =>
        simp only [deframe] at h
        split at h
        · rename_i hv
          simp at h
          subst h hv
          simp only [frameGet, hp, hr0, hq, takeTerminator]
          rfl
        · rename_i hv
          -- a chunk follows, so the payload is not empty
          have hv0 : v.toNat ≠ 0 := by
            intro hz
            apply hv
            apply BitVec.eq_of_toNat_eq
            simpa using hz
          obtain ⟨m, hm⟩ := Nat.exists_eq_succ_of_ne_zero hv0
          rw [hm] at h
          cases q with
          | nil => simp [deframe] at h
          | cons y q =>
            cases y with
            | eof => simp [deframe] at h
            | byte u =>
              simp only [deframe] at h
              split at h <;> simp at h

/-- The payload of a state: what `FrameGet` returns within it (R105). -/
theorem frameGet_deframe_cons {s : State} {v : Byte} {p : List Byte} {rest : List Token} (hp : s.pend = false)
    (h : deframe s.rem.toNat s.inq = some (v :: p, rest)) :
    ∃ t, frameGet s = .ok (some v) t ∧ deframe t.rem.toNat t.inq = some (p, rest) ∧ t.pend = false ∧
      t = { s with inq := t.inq, rem := t.rem } := by
  cases hr : s.rem.toNat with
  | succ n =>
    rw [hr] at h
    have hr0 : s.rem ≠ 0 := by
      intro hz
      rw [hz] at hr
      simp at hr
    cases hq : s.inq with
    | nil => rw [hq] at h; simp [deframe] at h
    | cons x q =>
      rw [hq] at h
      cases x with
      | eof => simp [deframe] at h
      | byte u =>
        simp only [deframe] at h
        split at h
        · simp at h
        · rename_i p' r' hd
          simp at h
          obtain ⟨⟨rfl, rfl⟩, rfl⟩ := h
          refine ⟨{ s with inq := q, rem := s.rem - 1 }, ?_, ?_, hp, rfl⟩
          · simp only [frameGet, hp, hr0, takeChunkByte, hq]
            rfl
          · have : (s.rem - 1).toNat = n := by
              rw [BitVec.toNat_sub, hr]
              have := s.rem.isLt
              simp
              omega
            simp only [this, hd]
  | zero =>
    rw [hr] at h
    have hr0 : s.rem = 0 := by
      apply BitVec.eq_of_toNat_eq
      simpa using hr
    cases hq : s.inq with
    | nil => rw [hq] at h; simp [deframe] at h
    | cons x q =>
      rw [hq] at h
      cases x with
      | eof => simp [deframe] at h
      | byte l =>
        simp only [deframe] at h
        split at h
        · simp at h
        · rename_i hl
          have hl0 : l.toNat ≠ 0 := by
            intro hz
            apply hl
            apply BitVec.eq_of_toNat_eq
            simpa using hz
          obtain ⟨m, hm⟩ := Nat.exists_eq_succ_of_ne_zero hl0
          rw [hm] at h
          cases q with
          | nil => simp [deframe] at h
          | cons y q =>
            cases y with
            | eof => simp [deframe] at h
            | byte u =>
              simp only [deframe] at h
              split at h
              · simp at h
              · rename_i p' r' hd
                simp at h
                obtain ⟨⟨rfl, rfl⟩, rfl⟩ := h
                refine ⟨{ s with inq := q, rem := l - 1 }, ?_, ?_, hp, rfl⟩
                · simp only [frameGet, hp, hr0, hq, hl, takeLength, takeChunkByte]
                  rfl
                · have : (l - 1).toNat = m := by
                    rw [BitVec.toNat_sub, hm]
                    have := l.isLt
                    simp
                    omega
                  simp only [this, hd]

/-! ## The unpacker (R113, R114) -/

theorem payloadAhead_pend {s : State} (h : s.pend = true) : payloadAhead s = some s.racc := by
  simp [payloadAhead, h]

theorem payloadAhead_of_deframe {s : State} {p : List Byte} {r : List Token} (h : s.pend = false)
    (hd : deframe s.rem.toNat s.inq = some (p, r)) : payloadAhead s = some (s.racc ++ payloadBits p) := by
  simp [payloadAhead, h, hd]

/-- The two ways a payload can stand before the unpacker. -/
theorem payloadAhead_cases {s : State} {bs : List Bool} (h : payloadAhead s = some bs) :
    (s.pend = true ∧ bs = s.racc) ∨
      (s.pend = false ∧ ∃ p r, deframe s.rem.toNat s.inq = some (p, r) ∧ bs = s.racc ++ payloadBits p) := by
  unfold payloadAhead at h
  cases hp : s.pend with
  | true => rw [hp] at h; exact .inl ⟨rfl, by simpa using h.symm⟩
  | false =>
    rw [hp] at h
    right
    refine ⟨rfl, ?_⟩
    cases hd : deframe s.rem.toNat s.inq with
    | none => rw [hd] at h; simp at h
    | some x => rw [hd] at h; exact ⟨x.1, x.2, rfl, by simpa using h.symm⟩

@[simp] theorem payloadBits_nil : payloadBits [] = [] := rfl

@[simp] theorem payloadBits_cons (v : Byte) (p : List Byte) : payloadBits (v :: p) = bitsOf v.toNat 8 ++ payloadBits p := rfl

/-- The tokens that stay behind the block a running unpacker reads. -/
def blockRest (s : State) : Option (List Token) :=
  if s.pend then some s.inq else (deframe s.rem.toNat s.inq).map Prod.snd

/-- The loop of `ReadBits(w)` on a payload: it gathers `w` bits where there are that many, and else raises `OUT_OF_DATA` after
the terminator. The bits ahead and the tokens behind the block stay the same. -/
theorem fillBits_ahead {w : Nat} {bs : List Bool} {fuel : Nat} {s : State} (h : payloadAhead s = some bs)
    (hf : w ≤ s.racc.length + 8 * fuel) :
    (w ≤ bs.length → ∃ t, fillBits w fuel s = .ok () t ∧ payloadAhead t = some bs ∧ w ≤ t.racc.length ∧
      blockRest t = blockRest s ∧ t = { s with inq := t.inq, rem := t.rem, pend := t.pend, racc := t.racc }) ∧
    (bs.length < w → ∃ t, fillBits w fuel s = .raised (raise .outOfData 0 t) ∧ t.pend = true ∧
      payloadAhead t = some bs ∧ blockRest t = blockRest s ∧
      t = { s with inq := t.inq, rem := t.rem, pend := t.pend, racc := t.racc }) := by
  induction fuel generalizing s with
  | zero =>
    refine ⟨fun hw => ⟨s, rfl, h, by omega, rfl, rfl⟩, ?_⟩
    intro hw
    rcases payloadAhead_cases h with ⟨-, rfl⟩ | ⟨-, p, r, -, rfl⟩
    · omega
    · simp only [List.length_append] at hw
      omega
  | succ fuel ih =>
    by_cases hr : w ≤ s.racc.length
    · have he : fillBits w (fuel + 1) s = .ok () s := by
        rw [fillBits, if_pos hr]
      refine ⟨fun hw => ⟨s, he, h, hr, rfl, rfl⟩, ?_⟩
      intro hw
      rcases payloadAhead_cases h with ⟨-, rfl⟩ | ⟨-, p, r, -, rfl⟩
      · omega
      · simp only [List.length_append] at hw
        omega
    · rcases payloadAhead_cases h with ⟨hp, rfl⟩ | ⟨hp, p, r, hd, rfl⟩
      · have he : fillBits w (fuel + 1) s = .raised (raise .outOfData 0 s) := by
          have : frameGet s = .ok none s := by simp [frameGet, hp]
          rw [fillBits, if_neg hr, this]
        exact ⟨fun hw => absurd hw hr, fun _ => ⟨s, he, hp, h, rfl, rfl⟩⟩
      · have hbr : blockRest s = some r := by simp [blockRest, hp, hd]
        cases p with
        | nil =>
          obtain ⟨hr0, hg⟩ := frameGet_deframe_nil hp hd
          have he : fillBits w (fuel + 1) s = .raised (raise .outOfData 0 { s with inq := r, pend := true }) := by
            rw [fillBits, if_neg hr, hg]
          refine ⟨fun hw => absurd (by simpa using hw) hr, fun _ => ⟨_, he, rfl, ?_, ?_, rfl⟩⟩
          · simp [payloadAhead]
          · simp [blockRest, hp, hd]
        | cons v p =>
          obtain ⟨t, hg, hd', hp', ht⟩ := frameGet_deframe_cons hp hd
          have he : fillBits w (fuel + 1) s = fillBits w fuel { t with racc := t.racc ++ bitsOf v.toNat 8 } := by
            rw [fillBits, if_neg hr, hg]
          have hra : t.racc = s.racc := by rw [ht]
          have hah : payloadAhead { t with racc := t.racc ++ bitsOf v.toNat 8 } =
              some (s.racc ++ payloadBits (v :: p)) := by
            have := payloadAhead_of_deframe (s := { t with racc := t.racc ++ bitsOf v.toNat 8 }) hp' hd'
            rw [this, hra, payloadBits_cons]
            simp
          have hbr' : blockRest { t with racc := t.racc ++ bitsOf v.toNat 8 } = some r := by
            simp [blockRest, hp', hd']
          have hlen : w ≤ ({ t with racc := t.racc ++ bitsOf v.toNat 8 } : State).racc.length + 8 * fuel := by
            simp only [List.length_append, bitsOf_length, hra]
            omega
          obtain ⟨h1, h2⟩ := ih hah hlen
          refine ⟨fun hw => ?_, fun hw => ?_⟩
          · obtain ⟨u, e1, e2, e3, e4, e5⟩ := h1 hw
            refine ⟨u, by rw [he, e1], e2, e3, by rw [e4, hbr', hbr], ?_⟩
            rw [e5, ht]
          · obtain ⟨u, e1, e2, e3, e4, e5⟩ := h2 hw
            refine ⟨u, by rw [he, e1], e2, e3, by rw [e4, hbr', hbr], ?_⟩
            rw [e5, ht]

theorem payload_length (bs : List Byte) : (payloadBits bs).length = 8 * bs.length := by
  induction bs with
  | nil => rfl
  | cons b bs ih => rw [payloadBits_cons, List.length_append, ih, bitsOf_length]; simp; omega

/-- `ReadBits(w)` on a payload (R113, R114): the next bits, or `OUT_OF_DATA` after the terminator; the tokens behind the block
stay. -/
theorem readBits_ahead {s : State} {w : Nat} {bs : List Bool} (h : payloadAhead s = some bs) :
    (w ≤ bs.length → ∃ t, readBits w s = .ok (ofBits (bs.take w)) t ∧ payloadAhead t = some (bs.drop w) ∧
        blockRest t = blockRest s ∧
      t = { s with inq := t.inq, rem := t.rem, pend := t.pend, racc := t.racc, rcur := t.rcur }) ∧
    (bs.length < w → ∃ t, readBits w s = .raised (raise .outOfData 0 t) ∧ t.pend = true ∧ payloadAhead t = some bs ∧
        blockRest t = blockRest s ∧
      t = { s with inq := t.inq, rem := t.rem, pend := t.pend, racc := t.racc }) := by
  obtain ⟨h1, h2⟩ := fillBits_ahead (w := w) (fuel := w) h (by omega)
  refine ⟨?_, ?_⟩
  · intro hw
    obtain ⟨t, e1, e2, e3, e4, e5⟩ := h1 hw
    have htake : t.racc.take w = bs.take w ∧
        payloadAhead { t with racc := t.racc.drop w, rcur := t.rcur + w } = some (bs.drop w) := by
      rcases payloadAhead_cases e2 with ⟨hp, rfl⟩ | ⟨hp, p, r, hd, rfl⟩
      · exact ⟨rfl, by simp [payloadAhead, hp]⟩
      · refine ⟨by rw [List.take_append_of_le_length e3], ?_⟩
        rw [List.drop_append_of_le_length e3]
        simp [payloadAhead, hp, hd]
    refine ⟨{ t with racc := t.racc.drop w, rcur := t.rcur + w }, ?_, htake.2, e4, ?_⟩
    · simp only [readBits, e1, htake.1]
    · rw [e5]
  · intro hw
    obtain ⟨t, e1, e2, e3, e4, e5⟩ := h2 hw
    exact ⟨t, by simp only [readBits, e1], e2, e3, e4, e5⟩

theorem ahead_of_rest {s : State} {r} (h : blockRest s = some r) : ∃ bs, payloadAhead s = some bs := by
  unfold blockRest at h; unfold payloadAhead
  split at h
  · rename_i hp; rw [if_pos hp]; exact ⟨_, rfl⟩
  · rename_i hp; rw [if_neg hp]
    cases hd : deframe s.rem.toNat s.inq with
    | none => rw [hd] at h; simp at h
    | some x => exact ⟨_, rfl⟩

theorem blockRest_same {s t : State} (h1 : t.inq = s.inq) (h2 : t.rem = s.rem)
    (h3 : t.pend = s.pend) : blockRest t = blockRest s := by
  unfold blockRest; rw [h1, h2, h3]

theorem payloadAhead_same {s t : State} (h1 : t.inq = s.inq) (h2 : t.rem = s.rem) (h3 : t.pend = s.pend)
    (h4 : t.racc = s.racc) : payloadAhead t = payloadAhead s := by
  unfold payloadAhead; rw [h1, h2, h3, h4]

/-! ## The tokens at hand (R103, R105, R113, R181) -/

/-- A block that is whole is one that ends at its terminator. -/
theorem arriving_terminator {n : Nat} {q : List Token} {p : List Byte} {rest : List Token} :
    arriving n q = (p, .terminator rest) ↔ deframe n q = some (p, rest) := by
  fun_induction deframe n q generalizing p <;> cases p <;> simp_all [arriving, Prod.ext_iff, and_assoc]

/-- `FrameGet` by the tokens at hand (R105, R103, R181). -/
theorem frameGet_arriving {s : State} (hp : s.pend = false) :
    (∀ v p c, s.arriving = (v :: p, c) → ∃ t, frameGet s = .ok (some v) t ∧ t.arriving = (p, c) ∧ t.pend = false ∧
      t = { s with inq := t.inq, rem := t.rem }) ∧
    (∀ q, s.arriving = ([], .endToken q) → ∃ r, frameGet s = .raised (raise .ioFail 0 { s with inq := q, rem := r })) ∧
    (s.arriving = ([], .waiting) → frameGet s = .stall) := by
  have pred : ∀ (x : BitVec 8) (m : Nat), x.toNat = m + 1 → (x - 1).toNat = m := by
    intro x m h
    rw [BitVec.toNat_sub, h]
    have := x.isLt
    simp
    omega
  have chunk : ∀ (u : State) (m : Nat), u.rem.toNat = m + 1 → u.pend = false →
      (∀ v p c, u.arriving = (v :: p, c) → ∃ t, takeChunkByte u = .ok (some v) t ∧ t.arriving = (p, c) ∧ t.pend = false ∧
        t = { u with inq := t.inq, rem := t.rem }) ∧
      (∀ q, u.arriving = ([], .endToken q) → takeChunkByte u = .raised (raise .ioFail 0 { u with inq := q })) ∧
      (u.arriving = ([], .waiting) → takeChunkByte u = .stall) := by
    intro u m hm hpu
    unfold State.arriving takeChunkByte
    rw [hm]
    cases u.inq with
    | nil => simp [arriving]
    | cons x q =>
      cases x with
      | eof => simp [arriving]
      | byte v =>
        simp only [arriving, Prod.mk.injEq, List.cons.injEq, reduceCtorEq, false_and, false_implies, implies_true, and_true]
        rintro _ p c ⟨⟨rfl, h1⟩, h2⟩
        refine ⟨{ u with inq := q, rem := u.rem - 1 }, rfl, ?_, hpu, rfl⟩
        show Machine.arriving (u.rem - 1).toNat q = _
        rw [pred _ _ hm, ← h1, ← h2]
  by_cases hr : s.rem = 0
  · have hz : s.rem.toNat = 0 := by rw [hr]; rfl
    unfold State.arriving frameGet
    rw [if_neg (by simp [hp]), if_pos hr, hz]
    cases hq : s.inq with
    | nil => simp [arriving]
    | cons x q =>
      cases x with
      | eof =>
        refine ⟨by simp [arriving], ?_, by simp [arriving]⟩
        simp only [arriving, Prod.mk.injEq, Cutoff.endToken.injEq, true_and]
        rintro _ rfl
        exact ⟨s.rem, rfl⟩
      | byte v =>
        by_cases hv : v = 0
        · simp [arriving, hv]
        · obtain ⟨m, hm⟩ : ∃ m, v.toNat = m + 1 :=
            ⟨v.toNat - 1, by have : v.toNat ≠ 0 := fun h => hv (BitVec.eq_of_toNat_eq (by simpa using h)); omega⟩
          obtain ⟨h1, h2, h3⟩ := chunk (takeLength v { s with inq := q }) m hm hp
          have e : Machine.arriving 0 (.byte v :: q) = (takeLength v { s with inq := q }).arriving := by
            rw [arriving, if_neg hv]; rfl
          simp only [if_neg hv, e]
          refine ⟨?_, fun r h => ⟨v, h2 r h⟩, h3⟩
          intro w p c h
          obtain ⟨t, t1, t2, t3, t4⟩ := h1 w p c h
          exact ⟨t, t1, t2, t3, t4⟩
  · obtain ⟨m, hm⟩ : ∃ m, s.rem.toNat = m + 1 :=
      ⟨s.rem.toNat - 1, by have : s.rem.toNat ≠ 0 := fun h => hr (BitVec.eq_of_toNat_eq (by simpa using h)); omega⟩
    obtain ⟨h1, h2, h3⟩ := chunk s m hm hp
    have e : frameGet s = takeChunkByte s := by unfold frameGet; rw [if_neg (by simp [hp]), if_neg hr]
    rw [e]
    exact ⟨h1, fun q h => ⟨s.rem, h2 q h⟩, h3⟩

/-- The loop of `ReadBits(w)` by the tokens at hand (R113, R103, R181): it gathers `w` bits where there are that many, waits
where the tokens run out first, and raises `IO_FAIL` where an `End` comes first. -/
theorem fillBits_arriving {w fuel : Nat} {s : State} {p : List Byte} {c : Cutoff} (hp : s.pend = false)
    (ha : s.arriving = (p, c)) (hf : w ≤ s.racc.length + 8 * fuel) :
    (w ≤ s.racc.length + 8 * p.length → ∃ t p', fillBits w fuel s = .ok () t ∧ t.arriving = (p', c) ∧
      t.racc ++ payloadBits p' = s.racc ++ payloadBits p ∧ w ≤ t.racc.length ∧ t.pend = false ∧
      t = { s with inq := t.inq, rem := t.rem, racc := t.racc }) ∧
    (s.racc.length + 8 * p.length < w →
      (∀ q, c = .endToken q → ∃ r a, fillBits w fuel s = .raised (raise .ioFail 0 { s with inq := q, rem := r, racc := a })) ∧
      (c = .waiting → fillBits w fuel s = .stall)) := by
  induction fuel generalizing s p with
  | zero => exact ⟨fun _ => ⟨s, p, rfl, ha, rfl, by omega, hp, rfl⟩, fun h => by omega⟩
  | succ fuel ih =>
    by_cases hr : w ≤ s.racc.length
    · exact ⟨fun _ => ⟨s, p, by rw [fillBits, if_pos hr], ha, rfl, hr, hp, rfl⟩, fun h => by omega⟩
    · obtain ⟨g1, g2, g3⟩ := frameGet_arriving hp
      cases p with
      | nil =>
        refine ⟨fun h => absurd h (by simpa using hr), fun _ => ⟨?_, ?_⟩⟩
        · rintro q rfl
          obtain ⟨r, g⟩ := g2 q ha
          exact ⟨r, s.racc, by rw [fillBits, if_neg hr, g]⟩
        · rintro rfl
          rw [fillBits, if_neg hr, g3 ha]
      | cons v p =>
        obtain ⟨t, g, ta, tp, te⟩ := g1 v p c ha
        have hra : t.racc = s.racc := by rw [te]
        have he : fillBits w (fuel + 1) s = fillBits w fuel { t with racc := t.racc ++ bitsOf v.toNat 8 } := by
          rw [fillBits, if_neg hr, g]
        have hl : ({ t with racc := t.racc ++ bitsOf v.toNat 8 } : State).racc.length = s.racc.length + 8 := by simp [hra]
        obtain ⟨h1, h2⟩ := ih (s := { t with racc := t.racc ++ bitsOf v.toNat 8 }) tp ta (by rw [hl]; omega)
        rw [hl] at h1 h2
        refine ⟨fun h => ?_, fun h => ?_⟩
        · obtain ⟨u, p', e1, e2, e3, e4, e5, e6⟩ := h1 (by simp at h; omega)
          refine ⟨u, p', by rw [he, e1], e2, by rw [e3]; simp [hra], e4, e5, by rw [e6, te]⟩
        · obtain ⟨k1, k2⟩ := h2 (by simp at h; omega)
          refine ⟨fun q hc => ?_, fun hc => by rw [he, k2 hc]⟩
          obtain ⟨r, a, k⟩ := k1 q hc
          exact ⟨r, a, by rw [he, k, te]⟩

/-- `ReadBits(w)` by the tokens at hand (R113, R103, R181). -/
theorem readBits_arriving {w : Nat} {s : State} {p : List Byte} {c : Cutoff} (hp : s.pend = false)
    (ha : s.arriving = (p, c)) :
    (w ≤ s.racc.length + 8 * p.length → ∃ t p', readBits w s = .ok (ofBits ((s.racc ++ payloadBits p).take w)) t ∧
      t.arriving = (p', c) ∧ t.racc ++ payloadBits p' = (s.racc ++ payloadBits p).drop w ∧ t.rcur = s.rcur + w ∧
      t = { s with inq := t.inq, rem := t.rem, racc := t.racc, rcur := t.rcur }) ∧
    (s.racc.length + 8 * p.length < w →
      (∀ q, c = .endToken q → ∃ r a, readBits w s = .raised (raise .ioFail 0 { s with inq := q, rem := r, racc := a })) ∧
      (c = .waiting → readBits w s = .stall)) := by
  obtain ⟨h1, h2⟩ := fillBits_arriving (w := w) (fuel := w) hp ha (by omega)
  refine ⟨fun h => ?_, fun h => ?_⟩
  · obtain ⟨t, p', e1, e2, e3, e4, e5, e6⟩ := h1 h
    refine ⟨{ t with racc := t.racc.drop w, rcur := t.rcur + w }, p', ?_, e2, ?_, by rw [e6], by rw [e6]⟩
    · simp only [readBits, e1, ← e3, List.take_append_of_le_length e4]
    · rw [← e3, List.drop_append_of_le_length e4]
  · obtain ⟨k1, k2⟩ := h2 h
    refine ⟨fun q hc => ?_, fun hc => by simp only [readBits, k2 hc]⟩
    obtain ⟨r, a, k⟩ := k1 q hc
    exact ⟨r, a, by simp only [readBits, k]⟩

end Sys2Proof.Machine
end

