-- ==== Sys2Proof/Laws/RoundTrip.lean ====
section
/-! SUPPORT. The decoder beside the encoder (R152, R133, D10): the decoder's dictionary is the encoder's but for the entry that
the encoder has just added, until the candidate's code arrives. -/

namespace Sys2Proof.Machine

/-- A decoder in its code loop with no turn listed. -/
def DRun (d : State) : Prop := d.phase = .run ∧ d.opk = .decCodes ∧ d.agenda = []

/-- The step that reads the code `c`, the next code of the stream, runs the instruction it decodes to (R184). -/
theorem code_step {d : State} (hr : DRun d) {c : Nat} {more : List Bool}
    (h : payloadAhead d = some (bitsOf c d.w.toNat ++ more)) (hc : c < 2 ^ d.w.toNat) :
    ∃ d1, d1 = { d with inq := d1.inq, rem := d1.rem, pend := d1.pend, racc := d1.racc, rcur := d1.rcur } ∧
        payloadAhead d1 = some more ∧ blockRest d1 = blockRest d ∧
      ∀ i, decodeCode d.b d.n d.jr (BitVec.ofNat 12 c) = .instr i → step d = exec i d1 := by
  obtain ⟨t, e1, e2, e3, e4⟩ := (readBits_ahead (w := d.w.toNat) h).1 (by simp)
  rw [List.drop_left' (by simp)] at e2
  rw [List.take_left' (by simp), ofBits_bitsOf, Nat.mod_eq_of_lt hc] at e1
  refine ⟨t, e4, e2, e3, ?_⟩
  intro i hi
  rw [engine_step_nil hr.2.2]
  unfold fetchEngine
  rw [hr.1]
  simp only
  rw [hr.2.1]
  simp only [fetchCode]
  rw [e1]
  simp only
  have : decode t.codeContext (.code (BitVec.ofNat 12 c)) = .instr i := by
    unfold State.codeContext; rw [e4]; exact hi
  rw [this]
  rfl

/-- Encoder `e` and decoder `d` in step: the same base width, the same entries below the decoder's `N`; at an epoch's start the
same `N`, later the encoder one entry ahead, whose prefix is the decoder's previous code and whose last index is the first
index of the candidate. -/
structure Sim (e d : State) : Prop where
  ie : Inv e
  pe : e.phase = .run
  oe : e.opk = .encIndex
  id : Inv d
  run : DRun d
  b : d.b = e.b
  mem : ∀ c, e.firstLearned ≤ c → c < d.n.toNat → d.mem.read c = e.mem.read c
  lag : (d.jr = true ∧ e.n = d.n) ∨ (d.jr = false ∧ e.candV = true ∧ e.n.toNat = d.n.toNat + 1 ∧
    ∃ y g, e.mem.read d.n.toNat = some ⟨d.prev, y, g⟩ ∧ firstOf e e.cand.toNat = some y)

theorem Sim.eok {e d : State} (h : Sim e d) : EncoderOk e := by
  have := h.ie.stage h.pe; simp only [StageOk, h.oe] at this; exact this.2

theorem Sim.dok {e d : State} (h : Sim e d) : DecoderOk d := by
  have := h.id.stage h.run.1; simp only [StageOk, h.run.2.1] at this; exact this.2

theorem Sim.ext {e d : State} (h : Sim e d) : Extends d e := by
  refine ⟨h.b.symm, ?_, ?_⟩
  · rcases h.lag with ⟨-, h⟩ | ⟨-, -, h, -⟩
    · rw [h]
    · omega
  · intro c h1 h2
    rw [firstLearned_of_b h.b] at h1
    exact (h.mem c h1 h2).symm

/-- The two widths agree when the code is written and when it is read (R133). -/
theorem Sim.width {e d : State} (h : Sim e d) : e.w = d.w := by
  apply BitVec.eq_of_toNat_eq
  rw [h.eok.closedWidth, h.dok.closedWidth]
  rcases h.lag with ⟨hj, hn⟩ | ⟨-, -, hn, -⟩
  · rw [hn, h.dok.freshEpoch hj, (bitlen_firstLearned h.dok.dict.base).1, (bitlen_firstLearned h.dok.dict.base).2]
  · rw [hn]; rfl

/-- `d'` is decoder `d` after it has read the code of `e`'s candidate: it has caught up with the encoder's dictionary, and it has
output the candidate's sequence `q`. -/
structure ReadCandidate (e d d' : State) (q : List Byte) (more : List Bool) : Prop where
  step : step d = .next d'
  id : Inv d'
  run : DRun d'
  b : d'.b = e.b
  jr : d'.jr = false
  prev : d'.prev = e.cand
  n : d'.n.toNat = e.n.toNat
  mem : ∀ c, e.firstLearned ≤ c → c < e.n.toNat → d'.mem.read c = e.mem.read c
  outq : d'.outq = d.outq ++ q.map OutItem.byte
  ahead : payloadAhead d' = some more
  rest : blockRest d' = blockRest d
  pfault : d'.pfault = d.pfault

/-- The decoder reads the candidate's code, known or `KWKWK` (R152). -/
theorem Sim.read {e d : State} (h : Sim e d) (hcv : e.candV = true) {q : List Byte}
    (hq : seqOf e e.cand.toNat = some q) {more : List Bool}
    (ha : payloadAhead d = some (bitsOf e.cand.toNat e.w.toNat ++ more)) : ∃ d', ReadCandidate e d d' q more := by
  have hfit := Nat.lt_of_lt_of_le (h.eok.candValid hcv).1 h.eok.fits
  rw [h.width] at ha hfit
  obtain ⟨d1, e1, e2, e3, e4⟩ := code_step h.run ha hfit
  have ecand : BitVec.ofNat 12 e.cand.toNat = e.cand := by simp
  rw [ecand] at e4
  have hdok1 : DecoderOk d1 := h.dok.same (by rw [e1]) (by rw [e1]) (by rw [e1]) (by rw [e1]) (by rw [e1]) (by rw [e1])
  have hext1 : Extends d1 d := Extends.of_eq (by rw [e1]) (by rw [e1]) (by rw [e1])
  have hdc := h.eok.candValid hcv
  have fd1 : d1.n = d.n ∧ d1.b = d.b ∧ d1.jr = d.jr ∧ d1.prev = d.prev ∧ d1.mem = d.mem ∧ d1.outq = d.outq ∧
      d1.pfault = d.pfault ∧ d1.phase = d.phase ∧ d1.opk = d.opk ∧ d1.agenda = d.agenda := by
    rw [e1]; exact ⟨rfl, rfl, rfl, rfl, rfl, rfl, rfl, rfl, rfl, rfl⟩
  obtain ⟨g1, g2, g3, g4, g5, g6, g7, g8, g9, g10⟩ := fd1
  have hsz := h.eok.dict.size
  have hdsz := h.dok.dict.size
  -- the common end
  have fin : ∀ t : State, step d = .next t → t.jr = false → t.prev = e.cand → t.n.toNat = e.n.toNat →
      t.outq = d1.outq ++ q.map OutItem.byte →
      (∀ c, e.firstLearned ≤ c → c < e.n.toNat → t.mem.read c = e.mem.read c) →
          t = { d1 with n := t.n, w := t.w, jr := t.jr, prev := t.prev, mem := t.mem, outq := t.outq } →
          ∃ d', ReadCandidate e d d' q more := by
    intro t s1 s2 s3 s4 s5 s6 s7
    refine ⟨t, s1, engine_step_inv h.id h.run.2.2 s1, ?_, ?_, s2, s3, s4, s6, ?_, ?_, ?_, ?_⟩
    · unfold DRun; rw [s7]; simp only; rw [g8, g9, g10]; exact h.run
    · rw [s7]; simp only; rw [g2, h.b]
    · rw [s5, g6]
    · rw [← e2]; exact payloadAhead_same (by rw [s7]) (by rw [s7]) (by rw [s7]) (by rw [s7])
    · rw [← e3]; exact blockRest_same (by rw [s7]) (by rw [s7]) (by rw [s7])
    · rw [s7]; exact g7
  by_cases hk : e.cand.toNat < d.n.toNat
  · -- known
    have hdcd : d.dataCode e.cand.toNat := by
      unfold State.dataCode at hdc ⊢; rw [clearCode_of_b h.b, eoiCode_of_b h.b]; exact ⟨hk, hdc.2⟩
    obtain ⟨i, hi, hx⟩ := data_decodes h.dok.dict hdcd
    have hdcd1 : d1.dataCode e.cand.toNat := dataCode_same hdcd g2 g1
    have hnf : ¬ (d1.tableFull ∧ d1.cfg.fullTable = .fault) := by
      intro hf
      have hf := hf.1
      unfold State.tableFull at hf
      rw [g3, g1] at hf
      rcases h.lag with ⟨hj, -⟩ | ⟨-, -, hn, -⟩
      · rw [hj] at hf; simp at hf
      · omega
    obtain ⟨f, q', t, k1, k2, k3, k4, k5, k6, k7, k8⟩ := knownEntry_runs hdok1 hdcd1 hnf
    have hq1 : seqOf e e.cand.toNat = some (f :: q') := h.ext.seqOf (hext1.seqOf k1)
    rw [hq] at hq1
    cases hq1
    have hf1 : firstOf e e.cand.toNat = some f := h.ext.firstOf (hext1.firstOf k2)
    have hs : step d = .next t := by rw [e4 i hi, hx, k3]
    rcases h.lag with ⟨hj, hn⟩ | ⟨hj, -, hn, y, g, hy, hfy⟩
    · unfold DecoderAdds at k5
      rw [if_pos (.inl (by rw [g3, hj]))] at k5
      refine fin t hs k7 k6 (by rw [k5.1, g1, hn]) k4 ?_ k8
      intro c h1 h2
      have := h.dok.freshEpoch hj
      rw [firstLearned_of_b h.b] at this
      rw [hn] at h2; omega
    · unfold DecoderAdds at k5
      rw [if_neg (by rw [g3, hj, g1]; simp; omega)] at k5
      obtain ⟨a1, -, ⟨gg, a2, a3⟩, a4⟩ := k5
      rw [g1] at a1 a3 a4
      rw [g4] at a2 a3
      refine fin t hs k7 k6 (by rw [a1, hn]) k4 ?_ k8
      intro c h1 h2
      by_cases hcn : c = d.n.toNat
      · subst hcn
        rw [hfy] at hf1; cases hf1
        obtain ⟨ent, b1, -, -, -, -, b2⟩ := h.eok.dict.entry h1 h2
        rw [hy] at b1; cases b1
        have : firstOf e d.prev.toNat = some gg := h.ext.firstOf (hext1.firstOf a2)
        rw [this] at b2; cases b2
        rw [a3, hy]
      · rw [a4 c hcn, g5]
        exact h.mem c h1 (by omega)
  · -- KwKwK
    rcases h.lag with ⟨hj, hn⟩ | ⟨hj, -, hn, y, g, hy, hfy⟩
    · have := hdc.1; rw [hn] at this; omega
    · have hce : e.cand.toNat = d.n.toNat := by have := hdc.1; omega
      obtain ⟨f, q', t, k1, k2, k3, k5, k6, k7, k8, k9, k10⟩ := notYetMaterialised_runs (c := e.cand) hdok1
          (by rw [g3, hj]) (by rw [g1, hce])
      have hs : step d = .next t := by rw [e4 _ (kwkwk_decodes h.dok.dict hce hj)]; exact k2
      have hprev : d1.prev = d.prev := g4
      have hl : e.firstLearned ≤ d.n.toNat := by rw [← firstLearned_of_b h.b]; exact hdsz.1
      obtain ⟨ent, b1, b0, b3, b4, b5, b2⟩ := h.eok.dict.entry hl (by omega)
      rw [hy] at b1; cases b1
      have hqp : seqOf e d.prev.toNat = some (f :: q') := h.ext.seqOf (hext1.seqOf (by rw [← hprev]; exact k1))
      rw [hce, b3] at hfy; have hyg : y = g := by simpa using hfy.symm
      rw [hyg] at hy b0
      have hqe : seqOf e d.n.toNat = some ((f :: q') ++ [g]) := seqOf_learned b0 b4 hqp
      have hfp : firstOf d1 d1.prev.toNat = some f := by
        obtain ⟨f2, q2, z1, z2⟩ := hdok1.dict.seq_defined (hdok1.prevValid (by rw [g3, hj]))
        rw [k1] at z2; cases z2; exact z1
      have hfe : firstOf e d.prev.toNat = some f := h.ext.firstOf (hext1.firstOf (by rw [← hprev]; exact hfp))
      rw [hfe] at b2; cases b2
      rw [hce, hqe] at hq; cases hq
      unfold DecoderAdds at k5
      rw [if_neg (by rw [g3, hj, g1]; simp; omega)] at k5
      obtain ⟨a1, -, -, a4⟩ := k5
      rw [g1] at a1 a4
      refine fin t hs k9 k8 (by rw [a1, hn]) k3 ?_ k10
      intro c h1 h2
      by_cases hcn : c = d.n.toNat
      · subst hcn
        rw [hce, g4] at k6
        rw [k6, hy]
      · rw [a4 c hcn, g5]
        exact h.mem c h1 (by omega)

end Sys2Proof.Machine
end

