-- ==== Sys2Proof/Tests/Slice0.lean ====
section
/-! SUPPORT. The author's own tests: the smoke test of the well-formedness checks, words written out from the spec's encodings,
one-step tests whose expected values are the spec's examples, and for every statement a state that meets its hypotheses. -/

namespace Sys2Proof.Tests

open Sys2Proof Sys2Proof.Machine

/-! ## The well-formedness checks refuse -/

theorem test_illFormed_subblockLen : (Instr.subblockLen 0).wellFormed = false := by decide
theorem test_illFormed_learned : (Instr.learned 5).wellFormed = false := by decide
theorem test_illFormed_kwkwk : (Instr.kwkwk 5).wellFormed = false := by decide
theorem test_illFormed_kwkwkAfterReset : (Instr.kwkwkAfterReset 0).wellFormed = false := by decide
theorem test_illFormed_invalid : (Instr.invalid 5).wellFormed = false := by decide

/-- Each kind of condition refuses a place that is not the row's. -/
theorem test_conditions_refuse :
    (Instr.cmdAck 0).condition .width = false ∧ (Instr.widthByte 2).condition .len = false ∧
    Instr.subblockTerm.condition .width = false ∧ (Instr.subblockLen 1).condition .ctrl = false ∧
    Instr.clear2.condition (.code 3 10 true) = false ∧ Instr.eoi8.condition (.code 7 130 true) = false ∧
    (Instr.literal4 0).condition .ctrl = false ∧ (Instr.learned 9).condition (.code 2 9 false) = false ∧
    (Instr.learned 8).condition (.code 9 9 false) = false ∧ (Instr.kwkwk 9).condition (.code 2 9 true) = false ∧
    (Instr.kwkwkAfterReset 6).condition (.code 2 6 false) = false ∧
    (Instr.invalid 6).condition (.code 2 6 true) = false := by decide

/-- A word in a place of another format, and a code with no base width, are rejected by name. -/
theorem test_decode_rejects :
    decode .ctrl (.byte 0) = .rejected .wrongFormat ∧ decode .width (.code 4) = .rejected .wrongFormat ∧
    decode (.code 2 6 true) (.cmd 4) = .rejected .wrongFormat ∧
    decode (.code 0 0 false) (.code 4) = .rejected .noBaseWidth ∧
    decode (.code 9 514 true) (.code 4) = .rejected .noBaseWidth := by decide

/-! ## Words written out from the encodings of R71 to R74, R76 and R83 -/

theorem test_decode_commands :
    decode .ctrl (.cmd 0b00000000000000000000000000000000#32) = .instr (.cmdAck 0) ∧
    decode .ctrl (.cmd 0b00000000000000000000000000000001#32) = .instr (.cmdEncode 0) ∧
    decode .ctrl (.cmd 0b00000000000000000000000000000110#32) = .instr (.cmdDecode 1) ∧
    decode .ctrl (.cmd 0b10000000000000000000000000000011#32) = .instr (.cmdReserved 0x20000000) := by decide

theorem test_decode_bytes :
    decode .width (.byte 0b00000010#8) = .instr (.widthByte 2) ∧
    decode .width (.byte 0b11111111#8) = .instr (.widthByte 255) ∧
    decode .len (.byte 0b00000000#8) = .instr .subblockTerm ∧
    decode .len (.byte 0b00000001#8) = .instr (.subblockLen 1) := by decide

theorem test_decode_clear_rows :
    decode (.code 2 6 true) (.code 0b000000000100#12) = .instr .clear2 ∧
    decode (.code 3 10 true) (.code 0b000000001000#12) = .instr .clear3 ∧
    decode (.code 4 18 true) (.code 0b000000010000#12) = .instr .clear4 ∧
    decode (.code 5 34 true) (.code 0b000000100000#12) = .instr .clear5 ∧
    decode (.code 6 66 true) (.code 0b000001000000#12) = .instr .clear6 ∧
    decode (.code 7 130 true) (.code 0b000010000000#12) = .instr .clear7 ∧
    decode (.code 8 258 true) (.code 0b000100000000#12) = .instr .clear8 := by decide

theorem test_decode_eoi_rows :
    decode (.code 2 4096 false) (.code 0b000000000101#12) = .instr .eoi2 ∧
    decode (.code 3 10 true) (.code 0b000000001001#12) = .instr .eoi3 ∧
    decode (.code 4 18 true) (.code 0b000000010001#12) = .instr .eoi4 ∧
    decode (.code 5 34 true) (.code 0b000000100001#12) = .instr .eoi5 ∧
    decode (.code 6 66 true) (.code 0b000001000001#12) = .instr .eoi6 ∧
    decode (.code 7 130 true) (.code 0b000010000001#12) = .instr .eoi7 ∧
    decode (.code 8 258 true) (.code 0b000100000001#12) = .instr .eoi8 := by decide

theorem test_decode_literal_rows :
    decode (.code 2 6 true) (.code 0b000000000010#12) = .instr (.literal2 0b10) ∧
    decode (.code 3 10 true) (.code 0b000000000100#12) = .instr (.literal3 0b100) ∧
    decode (.code 4 18 true) (.code 0b000000001001#12) = .instr (.literal4 0b1001) ∧
    decode (.code 5 34 true) (.code 0b000000010001#12) = .instr (.literal5 0b10001) ∧
    decode (.code 6 66 true) (.code 0b000000100001#12) = .instr (.literal6 0b100001) ∧
    decode (.code 7 130 true) (.code 0b000001000001#12) = .instr (.literal7 0b1000001) ∧
    decode (.code 8 258 true) (.code 0b000010000001#12) = .instr (.literal8 0b10000001) := by decide

theorem test_decode_learned_codes :
    decode (.code 2 8 false) (.code 0b000000000110#12) = .instr (.learned 6) ∧
    decode (.code 8 4096 false) (.code 0b111111111111#12) = .instr (.learned 4095) ∧
    decode (.code 2 6 false) (.code 0b000000000110#12) = .instr (.kwkwk 6) ∧
    decode (.code 8 258 true) (.code 0b000100000010#12) = .instr (.kwkwkAfterReset 258) ∧
    decode (.code 2 6 true) (.code 0b000000000111#12) = .instr (.invalid 7) := by decide

/-- What the host's form of a word gives, for one word of each format. -/
theorem test_decodeTableWord :
    decodeTableWord 32 2 = some (.cmdDecode 0) ∧ decodeTableWord 8 8 = some (.widthByte 8) ∧
    decodeTableWord 8 0 = some .subblockTerm ∧ decodeTableWord 8 255 = some (.subblockLen 255) ∧
    decodeTableWord 16 0x101 = some .eoi8 ∧ decodeTableWord 16 0x040 = some .clear6 ∧
    decodeTableWord 16 0x0FE = some (.literal8 0xFE) ∧ decodeTableWord 16 0x102 = some (.kwkwkAfterReset 0x102) ∧
    decodeTableWord 16 0x103 = some (.invalid 0x103) := by decide

/-! ## Helpers -/

/-- The next state of a result; a state no test expects where there is none. -/
def after : Result → State
  | .next s => s
  | .fault _ => { State.reset with palette := 511 }
  | .refused _ => { State.reset with palette := 510 }

/-- The bits of a payload that begins the unpacker's input. -/
def withBits (bs : List Bool) (s : State) : State := { s with racc := bs }

/-- A DECODE with `b = 2` right after its width byte (R183's example). -/
def freshDecoder : State :=
  { State.reset with phase := .run, opk := .decCodes, lastOp := 2, b := 2, n := 6, w := 3, jr := true }

/-- The same after its first data code `#0` (R148's example). -/
def decoderAfterZero : State := { freshDecoder with jr := false, prev := 0 }

/-- The same after `CLEAR #0 #6` (R148's example): `DICT[6] = [0, 0]`. -/
def decoderLearned : State := { freshDecoder with n := 7, jr := false, prev := 6, mem := [(6, ⟨0, 0, 0⟩)] }

/-- After `CLEAR #1 #2 #3` (R146's example): `DICT[6] = [1, 2]`, `DICT[7] = [2, 3]`, `N = 8` and so `W = 4`. -/
def decoderOneTwoThree : State :=
  { freshDecoder with n := 8, w := 4, jr := false, prev := 3, mem := [(6, ⟨1, 2, 1⟩), (7, ⟨2, 3, 2⟩)] }

/-- The state a DECODE of `02 01 2C 00` ends in (R143's example). -/
def finished : State := { State.reset with phase := .done, lastOp := 2, b := 2, n := 6, w := 3, jr := true }

/-- An ENCODE with `P = 2` after the indices `[0]` (R160's example), the leading Clear in the packer. -/
def encoderZero : State :=
  { State.reset with
    phase := .run, opk := .encIndex, lastOp := 1, b := 2, n := 6, w := 3, jr := true, pLat := 2, palette := 2
    cand := 0, candV := true, wacc := [false, false, true], wcur := 3, outq := [.byte 2] }

/-- The same after `[0, 0]` has been learned as code 6 (R163's example), the candidate 0 again. -/
def encoderLearned : State :=
  { encoderZero with n := 7, mem := [(6, ⟨0, 0, 0⟩)], wacc := [false, false, true, false, false, false], wcur := 6 }

/-- With `N = 8 = 2^W` before `EOI` (R166's example `[1, 0, 0]`): the codes `CLEAR/3 #1/3` and `#0/3` are written. -/
def encoderAtWidthEdge : State :=
  { encoderZero with
    n := 8, mem := [(6, ⟨1, 0, 1⟩), (7, ⟨0, 0, 0⟩)], opk := .encFinish
    chunk := [0x0C], wacc := [false], wcur := 9 }

/-- The pair of slot `c` in a full table of `b = 8`: every prefix is a literal below 15. -/
def fullEntry (c : Nat) : Entry :=
  ⟨BitVec.ofNat 12 ((c - 258) / 256), BitVec.ofNat 8 ((c - 258) % 256), BitVec.ofNat 8 ((c - 258) / 256)⟩

/-- A full table of `b = 8`. -/
def fullMem : Memory := (List.range' 258 3838).map (fun c => (c, fullEntry c))

/-- An encoder with a full table, the candidate 200. -/
def fullEncoder : State :=
  { encoderZero with b := 8, n := 4096, w := 12, pLat := 256, mem := fullMem, cand := 200, inq := [.byte 1] }

/-- A decoder with a full table. -/
def fullDecoder : State :=
  { freshDecoder with b := 8, n := 4096, w := 12, jr := false, prev := 0, mem := fullMem }

/-! ## One step, against the spec's examples -/

/-- R189's example: `STATUS = 0x224` after a `BAD_CODE`, `0x020` after `ACK`. -/
theorem test_ack :
    statusWord { finished with phase := .fault, err := .badCode, einfo := 7 } = 0x224 ∧
    statusWord (after (exec (.cmdAck 0) { finished with phase := .fault, err := .badCode, einfo := 7 })) = 0x020 ∧
    errInfoWord (after (exec (.cmdAck 0) { finished with phase := .fault, err := .badCode, einfo := 7 })) = 0 := by
  decide +kernel

/-- R180's example: with `P = 2` the write emits `02` and leaves 3 code bits (`CL = 4`) in `WACC`. -/
theorem test_encode_starts :
    (after (exec (.cmdEncode 0) { State.reset with palette := 2 })).outq = [.byte 2] ∧
    (after (exec (.cmdEncode 0) { State.reset with palette := 2 })).wacc = [false, false, true] ∧
    (after (exec (.cmdEncode 0) { State.reset with palette := 2 })).n = 6 := by decide +kernel

/-- R204, R134: `P = 257` faults with the latched size. -/
theorem test_encode_range :
    statusWord (after (exec (.cmdEncode 0) { State.reset with palette := 257 })) = 0x414 ∧
    errInfoWord (after (exec (.cmdEncode 0) { State.reset with palette := 257 })) = 257 ∧
    (after (exec (.cmdEncode 0) { State.reset with palette := 257 })).outq = [] := by decide +kernel

/-- R183, R33: after the command `STATUS` shows `BUSY` and `LAST_OP = 0b10`. -/
theorem test_decode_starts :
    statusWord (after (exec (.cmdDecode 0) finished)) = 0x021 ∧ (after (exec (.cmdDecode 0) finished)).n = 0 := by
  decide +kernel

/-- R190's example: from power-on, `STATUS = 0x734` and `ERR_INFO = 0`. -/
theorem test_reserved :
    statusWord (after (exec (.cmdReserved 0) State.reset)) = 0x734 ∧
    errInfoWord (after (exec (.cmdReserved 0) State.reset)) = 0 := by decide +kernel

/-- R191: a command in `RUN` is ignored. -/
theorem test_command_ignored : exec (.cmdDecode 5) freshDecoder = .next freshDecoder := rfl

/-- R183's example: the width byte `02` sets `B = 2, N = 6, W = 3, JR = 1`. -/
theorem test_width_byte :
    stateWord (after (exec (.widthByte 2) { freshDecoder with opk := .decWidth, b := 0, n := 0, w := 0, jr := false })) =
      0x01030006 ∧
    (after (exec (.widthByte 2) { freshDecoder with opk := .decWidth, b := 0, n := 0, w := 0, jr := false })).b = 2 := by
  decide +kernel

/-- R201: a width byte of 9 is `BAD_WIDTH` with 9. -/
theorem test_bad_width :
    statusWord (after (exec (.widthByte 9) { freshDecoder with opk := .decWidth })) = 0x124 ∧
    errInfoWord (after (exec (.widthByte 9) { freshDecoder with opk := .decWidth })) = 9 := by decide +kernel

/-- R105's example: on `01 2C 00` the calls return `2C`, then `EOP`; here the drain that discards them (R185). -/
theorem test_length_bytes :
    (after (step { freshDecoder with opk := .decDrain, inq := [.byte 1, .byte 0x2C, .byte 0] })).inq = [.byte 0] ∧
    (after (step { freshDecoder with opk := .decDrain, inq := [.byte 0] })).outq = [.endMark] ∧
    (after (exec (.subblockLen 255) freshDecoder)).rem = 255 ∧ (after (exec .subblockTerm freshDecoder)).pend = true := by
  decide +kernel

/-- R22, R24, R124: `N` and `W` after each Clear. -/
theorem test_clear_rows :
    [(Instr.clear2, 2#4), (.clear3, 3#4), (.clear4, 4#4), (.clear5, 5#4), (.clear6, 6#4), (.clear7, 7#4), (.clear8, 8#4)].map
      (fun x => ((after (exec x.1 { decoderLearned with b := x.2 })).n, (after (exec x.1 { decoderLearned with b := x.2 })).w)) =
    [(6, 3), (10, 4), (18, 5), (34, 6), (66, 7), (130, 8), (258, 9)] := by decide +kernel

/-- R142: a Clear sets `JR` and keeps the RAM and the output. -/
theorem test_clear_keeps :
    (after (exec .clear2 decoderLearned)).jr = true ∧ (after (exec .clear2 decoderLearned)).mem = [(6, ⟨0, 0, 0⟩)] ∧
    (after (exec .clear2 decoderLearned)).outq = [] := by decide +kernel

/-- R143: every EOI goes to the drain. -/
theorem test_eoi_rows :
    [Instr.eoi2, .eoi3, .eoi4, .eoi5, .eoi6, .eoi7, .eoi8].map (fun i => (after (exec i decoderLearned)).opk) =
      List.replicate 7 .decDrain := by decide +kernel

/-- R145's example `#3 #3 EOI` with no leading Clear: `[3, 3]`, `N = 7`, `DICT[6] = [3, 3]`. -/
theorem test_literal :
    (after (exec (.literal2 3) freshDecoder)).outq = [.byte 3] ∧ (after (exec (.literal2 3) freshDecoder)).n = 6 ∧
    (after (exec (.literal2 3) { freshDecoder with jr := false, prev := 3 })).n = 7 ∧
    (after (exec (.literal2 3) { freshDecoder with jr := false, prev := 3 })).mem = [(6, ⟨3, 3, 3⟩)] := by
  decide +kernel

/-- R145: each literal's index is its own code. -/
theorem test_literal_rows :
    [Instr.literal2 3, .literal3 7, .literal4 15, .literal5 31, .literal6 63, .literal7 127, .literal8 255].map
      (fun i => (after (exec i { freshDecoder with b := 8, n := 258, w := 9 })).prev) = [3, 7, 15, 31, 63, 127, 255] := by
  decide +kernel

/-- R146's example: after `CLEAR #1 #2 #3` the code `#6` emits `[1, 2]`; it adds `[3, 1]` as code 8. -/
theorem test_learned :
    (after (exec (.learned 6) decoderOneTwoThree)).outq = [.byte 1, .byte 2] ∧
    (after (exec (.learned 6) decoderOneTwoThree)).n = 9 ∧ (after (exec (.learned 6) decoderOneTwoThree)).w = 4 ∧
    (after (exec (.learned 6) decoderOneTwoThree)).mem.read 8 = some ⟨3, 1, 3⟩ := by decide +kernel

/-- R148's example: after `CLEAR #0` the code `#6` emits `[0, 0]`. -/
theorem test_kwkwk :
    (after (exec (.kwkwk 6) decoderAfterZero)).outq = [.byte 0, .byte 0] ∧ (after (exec (.kwkwk 6) decoderAfterZero)).n = 7 ∧
    (after (exec (.kwkwk 6) decoderAfterZero)).mem = [(6, ⟨0, 0, 0⟩)] ∧ (after (exec (.kwkwk 6) decoderAfterZero)).prev = 6 := by
  decide +kernel

/-- R128, R148: the add that makes `N = 2^W` widens the next code. -/
theorem test_kwkwk_widens :
    (after (exec (.kwkwk 7) { decoderLearned with prev := 6 })).n = 8 ∧
    (after (exec (.kwkwk 7) { decoderLearned with prev := 6 })).w = 4 := by decide +kernel

/-- R149's example, `CLEAR #6`: `BAD_CODE` with 6, held (R186). -/
theorem test_kwkwk_after_reset :
    (after (exec (.kwkwkAfterReset 6) freshDecoder)).pfault = some (.badCode, 6) ∧
    (after (exec (.kwkwkAfterReset 6) freshDecoder)).opk = .decDrain := by decide +kernel

/-- R150's example, `CLEAR #0 #7`: `BAD_CODE` with 7, held. -/
theorem test_invalid :
    (after (exec (.invalid 7) decoderAfterZero)).pfault = some (.badCode, 7) ∧
    (after (exec (.invalid 7) decoderAfterZero)).phase = .run := by decide +kernel

/-- R160, R164: a miss on candidate 0 with the index 0 writes `#0/3` and adds code 6. -/
theorem test_miss :
    (after (step { encoderZero with inq := [.byte 0] })).mem = [(6, ⟨0, 0, 0⟩)] ∧
    (after (step { encoderZero with inq := [.byte 0] })).wacc = [false, false, true, false, false, false] ∧
    (after (step { encoderZero with inq := [.byte 0] })).cand = 0 := by decide +kernel

/-- R163's example: the candidate 0 and the next index 0 give `CAND = 6`. -/
theorem test_hit : (after (step { encoderLearned with inq := [.byte 0] })).cand = 6 := by decide +kernel

/-- R166's example `[1, 0, 0]`: the block `02 02 0C 50 00`. -/
theorem test_finish :
    (after (step encoderAtWidthEdge)).outq = [.byte 2, .byte 2, .byte 0x0C, .byte 0x50, .byte 0, .endMark] ∧
    (after (step encoderAtWidthEdge)).w = 4 := by decide +kernel

/-- R134's table, at its edges. -/
theorem test_base_width :
    [0, 1, 4, 5, 8, 9, 16, 17, 32, 33, 64, 65, 128, 129, 256, 257].map baseWidth =
      [none, some 2, some 2, some 3, some 3, some 4, some 4, some 5, some 5, some 6, some 6, some 7, some 7, some 8, some 8,
        none] := by decide +kernel

/-- R110's example: `WriteBits(3, 2); WriteBits(0xABC, 12); WriteBits(7, 3); Flush()` gives the payload `F3 EA 01`. -/
theorem test_write_bits :
    (flush (writeBits 7 3 (writeBits 0xABC 12 (writeBits 3 2 State.reset)))).chunk = [0xF3, 0xEA, 0x01] := by
  decide +kernel

/-- R113's example: the first code of the payload `84 11 19 05` is 4, which is Clear for `b = 2`. -/
theorem test_read_clear :
    (after (step { freshDecoder with inq := [.byte 4, .byte 0x84, .byte 0x11, .byte 0x19, .byte 5, .byte 0] })).racc =
      [false, false, false, false, true] ∧
    (after (step { freshDecoder with inq := [.byte 4, .byte 0x84, .byte 0x11, .byte 0x19, .byte 5, .byte 0] })).rcur = 3 := by
  decide +kernel

/-- Words stored where the next step fetches run as the first instruction after reset (logs 3 and 4). -/
theorem test_withFetchWord :
    statusWord (after (step (State.reset.withFetchWord 32 3))) = 0x734 ∧
    (after (step (State.reset.withFetchWord 8 2))).n = 0 ∧ (after (step (State.reset.withFetchWord 8 8))).n = 258 ∧
    (after (step (State.reset.withFetchWord 8 0))).phase = .done ∧
    (after (step (State.reset.withFetchWord 8 9))).rem = 8 ∧
    (after (step (State.reset.withFetchWord 16 8))).n = 10 ∧
    (after (step (State.reset.withFetchWord 16 0xFE))).outq = [.byte 0xFE] ∧
    (after (step (State.reset.withFetchWord 16 0x103))).pfault = some (.badCode, 0x103) := by decide +kernel

/-! ## The sound states of the witnesses -/

theorem freshDecoder_ok : DecoderOk freshDecoder := by
  refine ⟨⟨by decide, by decide, by decide, ?_⟩, by decide +kernel, fun h => (by cases h), by decide⟩
  intro c h1 h2
  change 6 ≤ c at h1
  change c < 6 at h2
  omega

theorem decoderAfterZero_ok : DecoderOk decoderAfterZero :=
  ⟨freshDecoder_ok.dict.same rfl rfl rfl rfl, by decide +kernel, fun _ => ⟨by decide, by decide, by decide⟩, by decide⟩

theorem decoderLearned_dict : DictOk decoderLearned := by
  refine ⟨by decide, by decide, by decide, ?_⟩
  intro c h1 h2
  change 6 ≤ c at h1
  change c < 7 at h2
  obtain rfl : c = 6 := by omega
  exact ⟨⟨0, 0, 0⟩, rfl, by decide, ⟨by decide, by decide, by decide⟩, by decide⟩

theorem decoderLearned_ok : DecoderOk decoderLearned :=
  ⟨decoderLearned_dict, by decide +kernel, fun _ => ⟨by decide, by decide, by decide⟩, by decide⟩

theorem encoderZero_ok : EncoderOk encoderZero := by
  refine ⟨freshDecoder_ok.dict.same rfl rfl rfl rfl, by decide +kernel, by decide +kernel,
    fun _ => ⟨by decide, by decide, by decide⟩, ?_⟩
  intro c d e f h1 h2
  change 6 ≤ c at h1
  change c < 6 at h2
  omega

theorem encoderLearned_ok : EncoderOk encoderLearned := by
  refine ⟨decoderLearned_dict.same rfl rfl rfl rfl, by decide +kernel, by decide +kernel,
    fun _ => ⟨by decide, by decide, by decide⟩, ?_⟩
  intro c d e f h1 h2 h3 h4
  change 6 ≤ c at h1
  change c < 7 at h2
  change 6 ≤ d at h3
  change d < 7 at h4
  omega

theorem read_range (f : Nat → Entry) (k a c : Nat) (h1 : a ≤ c) (h2 : c < a + k) :
    Memory.read ((List.range' a k).map (fun c => (c, f c))) c = some (f c) := by
  induction k generalizing a with
  | zero => omega
  | succ k ih =>
    rw [List.range'_succ, List.map_cons, Memory.read_cons]
    split
    · rename_i h; rw [h]
    · exact ih (a + 1) (by omega) (by omega)

theorem fullEntry_pfx {c : Nat} (h1 : 258 ≤ c) (h2 : c < 4096) :
    (fullEntry c).pfx.toNat = (c - 258) / 256 ∧ (fullEntry c).sfx.toNat = (c - 258) % 256 ∧ (c - 258) / 256 < 15 := by
  refine ⟨?_, ?_, by omega⟩ <;> simp only [fullEntry, BitVec.toNat_ofNat] <;> omega

theorem fullMem_read {c : Nat} (h1 : 258 ≤ c) (h2 : c < 4096) : fullMem.read c = some (fullEntry c) :=
  read_range fullEntry 3838 258 c h1 (by omega)

theorem fullDecoder_dict : DictOk fullDecoder := by
  refine ⟨by decide, by decide, by decide, ?_⟩
  intro c h1 h2
  change 258 ≤ c at h1
  change c < 4096 at h2
  obtain ⟨p1, -, p2⟩ := fullEntry_pfx h1 h2
  refine ⟨fullEntry c, fullMem_read h1 h2, by omega, ⟨?_, ?_, ?_⟩, ?_⟩
  · change _ < 4096; omega
  · change _ ≠ 256; omega
  · change _ ≠ 257; omega
  · rw [firstOf_literal (by change _ < 256; omega), p1]; rfl

theorem fullDecoder_ok : DecoderOk fullDecoder :=
  ⟨fullDecoder_dict, by decide +kernel, fun _ => ⟨by decide, by decide, by decide⟩, by decide⟩

theorem fullEncoder_ok : EncoderOk fullEncoder := by
  refine ⟨fullDecoder_dict.same rfl rfl rfl rfl, by decide +kernel, by decide +kernel,
    fun _ => ⟨by decide, by decide, by decide⟩, ?_⟩
  intro c d e f h1 h2 h3 h4 he hf hp hs
  change 258 ≤ c at h1
  change c < 4096 at h2
  change 258 ≤ d at h3
  change d < 4096 at h4
  rw [show fullEncoder.mem.read c = _ from fullMem_read h1 h2] at he
  rw [show fullEncoder.mem.read d = _ from fullMem_read h3 h4] at hf
  cases he
  cases hf
  have a := congrArg BitVec.toNat hp
  have b := congrArg BitVec.toNat hs
  rw [(fullEntry_pfx h1 h2).1, (fullEntry_pfx h3 h4).1] at a
  rw [(fullEntry_pfx h1 h2).2.1, (fullEntry_pfx h3 h4).2.1] at b
  omega

theorem fullEncoder_misses : dictFind fullEncoder fullEncoder.cand 1 = none := by
  cases h : dictFind fullEncoder fullEncoder.cand 1 with
  | none => rfl
  | some c =>
    obtain ⟨h1, h2, e, he, h3, -⟩ := findEntry_some h
    change 258 ≤ c at h1
    change c < 4096 at h2
    obtain ⟨x, -, hx⟩ := List.mem_map.mp he
    cases hx
    have := (fullEntry_pfx h1 h2)
    have h4 := congrArg BitVec.toNat h3
    rw [this.1] at h4
    change (c - 258) / 256 = 200 at h4
    omega

theorem encoderZero_buffers : BufferOk encoderZero := ⟨by decide, by decide, by decide, by decide, by decide⟩

theorem fullEncoder_buffers : BufferOk fullEncoder := encoderZero_buffers.same rfl rfl rfl rfl rfl rfl

theorem encoderAtWidthEdge_buffers : BufferOk encoderAtWidthEdge := ⟨by decide, by decide, by decide, by decide, by decide⟩

theorem freshDecoder_inv : Inv freshDecoder :=
  ⟨by decide, .inr freshDecoder_ok.dict, fun _ => ⟨by decide, freshDecoder_ok⟩,
    ⟨by decide, by decide, by decide, by decide, by decide⟩, ⟨by decide, by decide, fun _ _ h => by cases h⟩⟩

theorem decoderLearned_inv : Inv decoderLearned :=
  ⟨by decide, .inr decoderLearned_dict, fun _ => ⟨by decide, decoderLearned_ok⟩,
    ⟨by decide, by decide, by decide, by decide, by decide⟩, ⟨by decide, by decide, fun _ _ h => by cases h⟩⟩

theorem encoderZero_inv : Inv encoderZero :=
  ⟨by decide, .inr encoderZero_ok.dict, fun _ => ⟨by decide, encoderZero_ok⟩, encoderZero_buffers,
    ⟨by decide, by decide, fun _ _ h => by cases h⟩⟩

theorem finished_inv : Inv finished :=
  ⟨by decide, .inr (freshDecoder_ok.dict.same rfl rfl rfl rfl), fun h => (by cases h),
    ⟨by decide, by decide, by decide, by decide, by decide⟩, ⟨by decide, by decide, fun _ _ h => by cases h⟩⟩

/-! ## For every statement, a state and operands that meet its hypotheses -/

theorem witness_DecodeEncodeAgree :
    (Instr.learned 6).wellFormed = true ∧ (Instr.learned 6).condition (.code 2 7 false) = true ∧
    (Instr.subblockLen 255).wellFormed = true ∧ (Instr.subblockLen 255).condition .len = true ∧
    (Instr.invalid 4095).wellFormed = true ∧ (Instr.invalid 4095).condition (.code 8 4094 true) = true := by decide

theorem witness_EncodeDecodeAgree :
    decode (.code 2 6 true) (.code 6) = .instr (.kwkwkAfterReset 6) ∧
    decode .ctrl (.cmd 0xFFFFFFFF) = .instr (.cmdReserved 0x3FFFFFFF) := by decide

theorem witness_CodeClassesInOrder :
    2 ≤ (2#4).toNat ∧ (2#4).toNat ≤ 8 ∧ 2 ≤ (8#4).toNat ∧ (8#4).toNat ≤ 8 := by decide

theorem witness_TableMasksMatch : 2 ≤ (2#4).toNat ∧ (2#4).toNat ≤ 8 ∧ 2 ≤ (8#4).toNat ∧ (8#4).toNat ≤ 8 := by decide

theorem witness_StepRunsDecodedInstruction :
    (∃ s : State, s.agenda = [.host (.memWrite 0 4 2)] ∧ decode .ctrl (.cmd 2) = .instr (.cmdDecode 0)) ∧
    (∃ s : State, s.engineTurn ∧ s.phase = .run ∧ s.opk = .decWidth ∧ s.inq = [.byte 8] ∧
      decode .width (.byte 8) = .instr (.widthByte 8)) ∧
    (∃ s s' : State, s.engineTurn ∧ s.phase = .run ∧ s.opk = .decCodes ∧ readBits s.w.toNat s.afterTurn = .ok 4 s' ∧
      decode (.code s'.b s'.n s'.jr) (.code (BitVec.ofNat 12 4)) = .instr .clear2) ∧
    (∃ s s' : State, s.engineTurn ∧ s.phase = .run ∧ s.opk = .decCodes ∧ readBits s.w.toNat s.afterTurn = .raised s') ∧
    (∃ s : State, s.engineTurn ∧ s.phase = .run ∧ s.opk = .decDrain ∧ s.pend = false ∧ s.rem = 0 ∧
      s.inq = [.byte 0] ∧ decode .len (.byte 0) = .instr .subblockTerm) ∧
    (∃ s : State, s.engineTurn ∧ s.phase = .run ∧ s.opk = .decDrain ∧ s.pend = false ∧ s.rem = 0 ∧
      s.inq = [.byte 255, .byte 7] ∧ decode .len (.byte 255) = .instr (.subblockLen 255)) :=
  ⟨⟨{ State.reset with agenda := [.host (.memWrite 0 4 2)] }, rfl, by decide⟩,
    ⟨{ freshDecoder with opk := .decWidth, inq := [.byte 8] }, engineTurn_nil rfl, rfl, rfl, rfl, by decide⟩,
    ⟨withBits [false, false, true] freshDecoder, _, engineTurn_nil rfl, rfl, rfl, rfl, by decide⟩,
    ⟨{ withBits [true, true] freshDecoder with inq := [.byte 0] }, _, engineTurn_nil rfl, rfl, rfl, rfl⟩,
    ⟨{ freshDecoder with opk := .decDrain, inq := [.byte 0] }, engineTurn_nil rfl, rfl, rfl, rfl, rfl, rfl, by decide⟩,
    ⟨{ freshDecoder with opk := .decDrain, inq := [.byte 255, .byte 7] }, engineTurn_nil rfl, rfl, rfl, rfl, rfl, rfl,
      by decide⟩⟩

theorem witness_EngineIdleOutsideRun : State.reset.engineTurn ∧ State.reset.phase ≠ .run :=
  ⟨engineTurn_nil rfl, by decide⟩

/-- No token at all; a length byte alone in a drain; eight bits of a nine-bit code. -/
theorem witness_MissingTokenStalls :
    (∃ s : State, s.engineTurn ∧ s.phase = .run ∧ s.inq = [] ∧ s.opk = .encIndex) ∧
    (∃ s : State, s.engineTurn ∧ s.phase = .run ∧ s.inq = [] ∧ s.opk = .decWidth) ∧
    (∃ s : State, s.engineTurn ∧ s.phase = .run ∧ s.opk = .decDrain ∧ s.pend = false ∧ s.inq = [] ∧
      s.arriving = ([], .waiting) ∧ frameGet s.afterTurn = .stall) ∧
    (∃ s : State, s.engineTurn ∧ s.phase = .run ∧ s.opk = .decDrain ∧ s.pend = false ∧ s.inq = [.byte 255] ∧
      s.arriving = ([], .waiting) ∧ frameGet s.afterTurn = .stall) ∧
    (∃ s : State, s.engineTurn ∧ s.phase = .run ∧ s.opk = .decCodes ∧ s.pend = false ∧ s.arriving = ([0x2C], .waiting) ∧
      s.racc.length + 8 * [0x2C].length < s.w.toNat ∧ readBits s.w.toNat s.afterTurn = .stall) :=
  ⟨⟨encoderZero, engineTurn_nil rfl, rfl, rfl, rfl⟩,
    ⟨{ freshDecoder with opk := .decWidth }, engineTurn_nil rfl, rfl, rfl, rfl⟩,
    ⟨{ freshDecoder with opk := .decDrain }, engineTurn_nil rfl, rfl, rfl, rfl, rfl, by decide, rfl⟩,
    ⟨{ freshDecoder with opk := .decDrain, inq := [.byte 255] }, engineTurn_nil rfl, rfl, rfl, rfl, rfl, by decide, rfl⟩,
    ⟨{ freshDecoder with w := 9, inq := [.byte 1, .byte 0x2C] }, engineTurn_nil rfl, rfl, rfl, rfl, by decide, by decide,
      rfl⟩⟩

theorem witness_CommandIgnoredWhileRunning :
    freshDecoder.phase = .run ∧
    ∃ s t : State, s.phase = .run ∧ s.agenda = [.host (.memWrite 0 4 0)] ∧ HostStep.memWrite 0 4 0 ≠ .powerOn ∧
      step s = .next t :=
  ⟨rfl, { freshDecoder with agenda := [.host (.memWrite 0 4 0)] }, _, rfl, rfl, by decide, rfl⟩

theorem witness_AckReturnsToIdle :
    (State.reset.phase ≠ .run ∧ State.reset.phase = .idle) ∧ (finished.phase ≠ .run ∧ finished.phase ≠ .idle) := by decide

theorem witness_EncodeCommandStarts :
    (∃ s : State, s.phase ≠ .run ∧ s.palette.toNat = 1) ∧ (∃ s : State, s.phase ≠ .run ∧ s.palette.toNat = 256) ∧
    (∃ s : State, s.phase ≠ .run ∧ s.palette.toNat = 0) ∧ (∃ s : State, s.phase ≠ .run ∧ 256 < s.palette.toNat) :=
  ⟨⟨{ finished with palette := 1 }, by decide, rfl⟩, ⟨{ finished with palette := 256 }, by decide, rfl⟩,
    ⟨finished, by decide, rfl⟩, ⟨{ finished with palette := 257 }, by decide, by decide⟩⟩

theorem witness_DecodeCommandStarts : finished.phase ≠ .run := by decide

theorem witness_ReservedCommandFaults : finished.phase ≠ .run := by decide

theorem witness_OperationForgetsThePast :
    State.reset.phase ≠ .run ∧ finished.phase ≠ .run ∧ State.reset.palette = finished.palette ∧
    State.reset.cfg = finished.cfg ∧ State.reset.draws = finished.draws := by decide

theorem witness_WidthByteAccepted : 2 ≤ (2#8).toNat ∧ (2#8).toNat ≤ 8 ∧ 2 ≤ (8#8).toNat ∧ (8#8).toNat ≤ 8 := by decide

theorem witness_WidthByteRejected :
    (∃ s : State, s.engineTurn ∧ s.phase = .run ∧ s.opk = .decWidth ∧ s.inq = [.byte 1] ∧ (1#8).toNat < 2) ∧
    (∃ s : State, s.engineTurn ∧ s.phase = .run ∧ s.opk = .decWidth ∧ s.inq = [.byte 9] ∧ 8 < (9#8).toNat) :=
  ⟨⟨{ freshDecoder with opk := .decWidth, inq := [.byte 1] }, engineTurn_nil rfl, rfl, rfl, rfl, by decide⟩,
    ⟨{ freshDecoder with opk := .decWidth, inq := [.byte 9] }, engineTurn_nil rfl, rfl, rfl, rfl, by decide⟩⟩

theorem witness_FrameGetCases :
    (∃ s : State, s.pend = true) ∧
    (∃ s : State, s.pend = false ∧ s.rem = 0 ∧ s.inq = [.byte 0]) ∧
    (∃ s : State, s.pend = false ∧ s.rem = 0 ∧ (1 : Byte) ≠ 0 ∧ s.inq = [.byte 1, .byte 7]) ∧
    (∃ s : State, s.pend = false ∧ s.rem ≠ 0 ∧ s.inq = [.byte 7]) ∧
    (∃ s : State, s.pend = false ∧ s.inq = [.eof]) ∧
    (∃ s : State, s.pend = false ∧ s.rem = 0 ∧ (255 : Byte) ≠ 0 ∧ s.inq = [.byte 255, .eof]) :=
  ⟨⟨{ freshDecoder with pend := true }, rfl⟩, ⟨{ freshDecoder with inq := [.byte 0] }, rfl, rfl, rfl⟩,
    ⟨{ freshDecoder with inq := [.byte 1, .byte 7] }, rfl, rfl, by decide, rfl⟩,
    ⟨{ freshDecoder with rem := 1, inq := [.byte 7] }, rfl, by decide, rfl⟩,
    ⟨{ freshDecoder with inq := [.eof] }, rfl, rfl⟩,
    ⟨{ freshDecoder with inq := [.byte 255, .eof] }, rfl, rfl, by decide, rfl⟩⟩

theorem witness_StreamedFramingIsFrame : State.reset.chunk = [] := rfl

/-- Three bits are there, and nine are not: the payload `2C` after its length byte, before the terminator, an `End` or nothing. -/
theorem witness_ReadBitsTakesNextBits :
    (∃ (s : State) (bs : List Bool), payloadAhead s = some bs ∧ 3 ≤ bs.length ∧ bs.length < 9) ∧
    (∃ s : State, s.pend = false ∧ s.arriving = ([0x2C], .terminator []) ∧ 3 ≤ s.racc.length + 8 * [0x2C].length) ∧
    (∃ s : State, s.pend = false ∧ s.arriving = ([0x2C], .endToken [.byte 5]) ∧ s.racc.length + 8 * [0x2C].length < 9) ∧
    (∃ s : State, s.pend = false ∧ s.arriving = ([0x2C], .waiting) ∧ s.racc.length + 8 * [0x2C].length < 9) :=
  ⟨⟨{ freshDecoder with inq := [.byte 1, .byte 0x2C, .byte 0] }, _, rfl, by decide, by decide⟩,
    ⟨{ freshDecoder with inq := [.byte 1, .byte 0x2C, .byte 0] }, rfl, by decide, by decide⟩,
    ⟨{ freshDecoder with inq := [.byte 2, .byte 0x2C, .eof, .byte 5] }, rfl, by decide, by decide⟩,
    ⟨{ freshDecoder with inq := [.byte 1, .byte 0x2C] }, rfl, by decide, by decide⟩⟩

theorem witness_PackerRoundTrip :
    State.reset.chunk = [] ∧ State.reset.wacc = [] ∧ State.reset.wcur = 0 ∧ (∀ c ∈ [(4, 3), (0xABC, 12)], c.1 < 2 ^ c.2) ∧
    ∃ (r : State) (p : List Byte), r.pend = false ∧ r.rem = 0 ∧ r.racc = [] ∧ r.inq = (frame p).map Token.byte ++ [.eof] :=
  ⟨rfl, rfl, rfl, by decide, { freshDecoder with inq := (frame [0xE4, 0x55]).map Token.byte ++ [.eof] }, _, rfl, rfl, rfl, rfl⟩

theorem witness_ClearResetsTheDictionary :
    (Instr.clear2, 2) ∈ [(Instr.clear2, 2), (Instr.clear3, 3), (Instr.clear4, 4), (Instr.clear5, 5), (Instr.clear6, 6),
      (Instr.clear7, 7), (Instr.clear8, 8)] ∧ freshDecoder.b.toNat = 2 ∧ fullDecoder.b.toNat = 8 :=
  ⟨by decide, rfl, rfl⟩

theorem witness_EoiStartsTheDrain :
    Instr.eoi8 ∈ [Instr.eoi2, Instr.eoi3, Instr.eoi4, Instr.eoi5, Instr.eoi6, Instr.eoi7, Instr.eoi8] := by decide

/-- With `JR = 1`, with an add, and at a full table under `TOLERATE`. -/
theorem witness_LiteralExecutes :
    (DecoderOk freshDecoder ∧ (Instr.literal2 3).literal = some (freshDecoder.b.toNat, 3) ∧
      ¬ (freshDecoder.tableFull ∧ freshDecoder.cfg.fullTable = .fault)) ∧
    (DecoderOk decoderAfterZero ∧ (Instr.literal2 0).literal = some (decoderAfterZero.b.toNat, 0) ∧
      ¬ (decoderAfterZero.tableFull ∧ decoderAfterZero.cfg.fullTable = .fault)) ∧
    (DecoderOk fullDecoder ∧ (Instr.literal8 255).literal = some (fullDecoder.b.toNat, 255) ∧
      ¬ (fullDecoder.tableFull ∧ fullDecoder.cfg.fullTable = .fault)) :=
  ⟨⟨freshDecoder_ok, rfl, fun h => by cases h.2⟩, ⟨decoderAfterZero_ok, rfl, fun h => by cases h.2⟩,
    ⟨fullDecoder_ok, rfl, fun h => by cases h.2⟩⟩

theorem witness_LearnedExecutes :
    DecoderOk decoderLearned ∧ decoderLearned.firstLearned ≤ (6 : Code).toNat ∧ (6 : Code).toNat < decoderLearned.n.toNat ∧
    ¬ (decoderLearned.tableFull ∧ decoderLearned.cfg.fullTable = .fault) :=
  ⟨decoderLearned_ok, by decide, by decide, fun h => by cases h.2⟩

theorem witness_KwkwkExecutes :
    (DecoderOk decoderAfterZero ∧ decoderAfterZero.jr = false ∧ (6 : Code).toNat = decoderAfterZero.n.toNat) ∧
    (DecoderOk decoderLearned ∧ decoderLearned.jr = false ∧ (7 : Code).toNat = decoderLearned.n.toNat) :=
  ⟨⟨decoderAfterZero_ok, rfl, rfl⟩, ⟨decoderLearned_ok, rfl, rfl⟩⟩

theorem witness_FullTablePolicy :
    (∃ s : State, DecoderOk s ∧ s.tableFull ∧ (Instr.learned 4095).knownCode s 4095 ∧ s.cfg.fullTable = .tolerate) ∧
    (∃ s : State, DecoderOk s ∧ s.tableFull ∧ (Instr.literal8 0).knownCode s 0 ∧ s.cfg.fullTable = .fault ∧
      s.phase = .run ∧ s.opk = .decCodes) :=
  ⟨⟨fullDecoder, fullDecoder_ok, ⟨rfl, rfl⟩, .inr ⟨rfl, by decide, by decide⟩, rfl⟩,
    ⟨{ fullDecoder with cfg := ⟨true, .fault⟩ }, fullDecoder_ok.same rfl rfl rfl rfl rfl rfl, ⟨rfl, rfl⟩,
      .inl ⟨0, rfl, rfl⟩, rfl, rfl, rfl⟩⟩

theorem witness_IllegalCodesAreHeld : freshDecoder.phase = .run ∧ freshDecoder.opk = .decCodes := ⟨rfl, rfl⟩

theorem witness_AddWritesOneSlot :
    (freshDecoder.n.toNat < 4096 ∧ freshDecoder.mem.wf = true) ∧
    (∃ s : State, s.n.toNat = 4095 ∧ s.mem.wf = true) :=
  ⟨by decide, { decoderLearned with n := 4095 }, rfl, by decide⟩

theorem witness_FaultEntry :
    (freshDecoder.phase = .run ∧ freshDecoder.opk = .decCodes) ∧
    ¬ (finished.phase = .run ∧ finished.opk = .decCodes ∧ (ErrCode.badCode = .badCode ∨ ErrCode.badCode = .outOfData)) ∧
    (∃ s : State, s.pfault = some (.outOfData, 0)) :=
  ⟨⟨rfl, rfl⟩, by decide, { freshDecoder with opk := .decDrain, pfault := some (.outOfData, 0) }, rfl⟩

/-- A drain that ends well, one that ends in a held fault, and the one after `OUT_OF_DATA`. -/
theorem witness_DrainConsumesThroughTerminator :
    (∃ s : State, s.agenda = [] ∧ s.phase = .run ∧ s.opk = .decDrain ∧ s.pend = false ∧
      deframe s.rem.toNat s.inq = some ([7, 8], [.eof]) ∧ s.pfault = none) ∧
    (∃ s : State, s.agenda = [] ∧ s.phase = .run ∧ s.opk = .decDrain ∧ s.pend = false ∧
      deframe s.rem.toNat s.inq = some ([], []) ∧ s.pfault = some (.badCode, 7)) ∧
    (∃ s : State, s.agenda = [] ∧ s.phase = .run ∧ s.opk = .decDrain ∧ s.pend = true ∧ s.inq = [.byte 9] ∧
      s.pfault = some (.outOfData, 0)) :=
  ⟨⟨{ freshDecoder with opk := .decDrain, rem := 1, inq := [.byte 7, .byte 1, .byte 8, .byte 0, .eof] },
      rfl, rfl, rfl, rfl, by decide, rfl⟩,
    ⟨{ freshDecoder with opk := .decDrain, inq := [.byte 0], pfault := some (.badCode, 7) }, rfl, rfl, rfl, rfl, by decide, rfl⟩,
    ⟨{ freshDecoder with opk := .decDrain, pend := true, inq := [.byte 9], pfault := some (.outOfData, 0) },
      rfl, rfl, rfl, rfl, rfl, rfl⟩⟩

theorem witness_EndTokenRaisesIoFail :
    (∃ s : State, s.engineTurn ∧ s.phase = .run ∧ s.inq = [.eof] ∧ s.opk = .decWidth) ∧
    (∃ s : State, s.engineTurn ∧ s.phase = .run ∧ s.inq = [.eof] ∧ s.opk = .decDrain ∧ s.pend = false) ∧
    (∃ s : State, s.engineTurn ∧ s.phase = .run ∧ s.inq = [.eof] ∧ s.opk = .decCodes ∧ s.pend = false ∧
      s.racc.length < s.w.toNat) ∧
    (∃ s : State, s.engineTurn ∧ s.phase = .run ∧ s.inq = [.eof] ∧ s.opk = .encIndex) ∧
    (∃ s : State, s.engineTurn ∧ s.phase = .run ∧ s.pend = false ∧ s.arriving = ([], .endToken [.byte 4]) ∧
      s.opk = .decDrain ∧ s.inq = [.byte 255, .eof, .byte 4]) ∧
    (∃ s : State, s.engineTurn ∧ s.phase = .run ∧ s.pend = false ∧ s.arriving = ([7], .endToken []) ∧
      s.opk = .decCodes ∧ s.racc.length + 8 * [7].length < s.w.toNat) :=
  ⟨⟨{ freshDecoder with opk := .decWidth, inq := [.eof] }, engineTurn_nil rfl, rfl, rfl, rfl⟩,
    ⟨{ freshDecoder with opk := .decDrain, inq := [.eof] }, engineTurn_nil rfl, rfl, rfl, rfl, rfl⟩,
    ⟨{ freshDecoder with inq := [.eof] }, engineTurn_nil rfl, rfl, rfl, rfl, rfl, by decide⟩,
    ⟨{ encoderZero with inq := [.eof] }, engineTurn_nil rfl, rfl, rfl, rfl⟩,
    ⟨{ freshDecoder with opk := .decDrain, inq := [.byte 255, .eof, .byte 4] }, engineTurn_nil rfl, rfl, rfl, by decide, rfl, rfl⟩,
    ⟨{ freshDecoder with w := 9, inq := [.byte 5, .byte 7, .eof] }, engineTurn_nil rfl, rfl, rfl, by decide, rfl, by decide⟩⟩

/-- A step that ends a run well, and one that does not end it. -/
theorem witness_EndMarkOnlyOnDone :
    (∃ s t : State, s.engineTurn ∧ s.phase = .run ∧ step s = .next t ∧ t.phase = .done) ∧
    (∃ s t : State, s.engineTurn ∧ s.phase = .run ∧ step s = .next t ∧ t.phase ≠ .done) :=
  ⟨⟨{ freshDecoder with opk := .decDrain, inq := [.byte 0] }, _, engineTurn_nil rfl, rfl, rfl, rfl⟩,
    ⟨withBits [true, false, false] freshDecoder, _, engineTurn_nil rfl, rfl, rfl, by decide⟩⟩

theorem witness_StatusFields :
    (∃ s : State, s.phase = .fault) ∧ finished.phase ≠ .fault :=
  ⟨⟨{ finished with phase := .fault }, rfl⟩, by decide⟩

theorem witness_RegisterViews :
    (∃ s : State, s.phase = .fault) ∧ finished.phase ≠ .fault ∧ finished.phase ≠ .run :=
  ⟨⟨{ finished with phase := .fault }, rfl⟩, by decide, by decide⟩

theorem witness_PaletteRegister :
    ∃ s : State, s.agenda = [.host (.memWrite 0x04 4 0xFFFFFFFF)] :=
  ⟨{ finished with agenda := [.host (.memWrite 0x04 4 0xFFFFFFFF)] }, rfl⟩

theorem witness_OtherOffsetsInert :
    (∃ s : State, 0x08 % 4 = 0 ∧ 0x08 ≤ 0xFC ∧ s.agenda = [.host (.memWrite 0x08 4 1)]) ∧
    (∃ s : State, 0xFC % 4 = 0 ∧ 0xFC ≤ 0xFC ∧ s.agenda = [.host (.memWrite 0xFC 4 1)]) :=
  ⟨⟨{ finished with agenda := [.host (.memWrite 0x08 4 1)] }, rfl, by decide, rfl⟩,
    ⟨{ finished with agenda := [.host (.memWrite 0xFC 4 1)] }, rfl, by decide, rfl⟩⟩

theorem witness_BadAccessRefused :
    (∃ s : State, s.agenda = [.host (.memWrite 0 2 1)] ∧ (2 : Nat) ≠ 4) ∧
    (∃ s : State, s.agenda = [.host (.memRead 6 4)] ∧ 6 % 4 ≠ 0) :=
  ⟨⟨{ finished with agenda := [.host (.memWrite 0 2 1)] }, rfl, by decide⟩,
    ⟨{ finished with agenda := [.host (.memRead 6 4)] }, rfl, by decide⟩⟩

theorem witness_HostSteps :
    (∃ s : State, s.agenda = [.host (.push .eof)]) ∧
    (∃ s : State, s.agenda = [.host .pop] ∧ s.outq = [.endMark]) ∧
    (∃ s : State, s.agenda = [.host .discard] ∧ s.phase ≠ .run) ∧
    (∃ s : State, 0xFC % 4 = 0 ∧ s.agenda = [.host (.memRead 0xFC 4)]) :=
  ⟨⟨{ finished with agenda := [.host (.push .eof)] }, rfl⟩,
    ⟨{ finished with agenda := [.host .pop], outq := [.endMark] }, rfl, rfl⟩,
    ⟨{ finished with agenda := [.host .discard] }, rfl, by decide⟩,
    ⟨{ finished with agenda := [.host (.memRead 0xFC 4)] }, rfl, rfl⟩⟩

theorem witness_PowerOnResets : ∃ s : State, s.phase = .run ∧ s.agenda = [.host .powerOn] :=
  ⟨{ decoderLearned with agenda := [.host .powerOn] }, rfl, rfl⟩

theorem witness_IndexOutOfRange :
    ∃ s : State, s.takesIndex 4 [.eof] ∧ 2 ^ s.b.toNat ≤ (4#8).toNat :=
  ⟨{ encoderZero with inq := [.byte 4, .eof] }, ⟨engineTurn_nil rfl, rfl, rfl, rfl⟩, by decide⟩

theorem witness_CandidateGrows :
    (∃ s : State, s.takesIndex 3 [] ∧ (3#8).toNat < 2 ^ s.b.toNat ∧ s.candV = false) ∧
    (∃ s : State, s.takesIndex 0 [] ∧ (0#8).toNat < 2 ^ s.b.toNat ∧ s.mem.wf = true ∧ s.candV = true ∧ EncoderOk s ∧
      s.firstLearned ≤ 6 ∧ 6 < s.n.toNat ∧ s.mem.read 6 = some ⟨s.cand, 0, 0⟩) :=
  ⟨⟨{ encoderZero with candV := false, inq := [.byte 3] }, ⟨engineTurn_nil rfl, rfl, rfl, rfl⟩, by decide, rfl⟩,
    ⟨{ encoderLearned with inq := [.byte 0] }, ⟨engineTurn_nil rfl, rfl, rfl, rfl⟩, by decide, by decide, rfl,
      encoderLearned_ok.same rfl rfl rfl rfl rfl (fun _ => ⟨by decide, by decide, by decide⟩), by decide, by decide, rfl⟩⟩

theorem witness_EncoderMiss :
    ∃ s : State, s.takesIndex 3 [] ∧ (3#8).toNat < 2 ^ s.b.toNat ∧ BufferOk s ∧ EncoderOk s ∧ s.candV = true ∧
      dictFind s s.cand 3 = none ∧ s.n.toNat < 4096 :=
  ⟨{ encoderZero with inq := [.byte 3] }, ⟨engineTurn_nil rfl, rfl, rfl, rfl⟩, by decide,
    encoderZero_buffers.same rfl rfl rfl rfl rfl rfl,
    encoderZero_ok.same rfl rfl rfl rfl rfl (fun _ => ⟨by decide, by decide, by decide⟩), rfl, rfl, by decide⟩

theorem witness_EncoderMissFull :
    fullEncoder.takesIndex 1 [] ∧ (1#8).toNat < 2 ^ fullEncoder.b.toNat ∧ BufferOk fullEncoder ∧ EncoderOk fullEncoder ∧
    fullEncoder.candV = true ∧ dictFind fullEncoder fullEncoder.cand 1 = none ∧ fullEncoder.n.toNat = 4096 :=
  ⟨⟨engineTurn_nil rfl, rfl, rfl, rfl⟩, by decide, fullEncoder_buffers, fullEncoder_ok, rfl, fullEncoder_misses, rfl⟩

theorem witness_EncoderFinish :
    encoderAtWidthEdge.engineTurn ∧ encoderAtWidthEdge.phase = .run ∧ encoderAtWidthEdge.opk = .encFinish ∧
    BufferOk encoderAtWidthEdge ∧ encoderAtWidthEdge.n.toNat = 2 ^ encoderAtWidthEdge.w.toNat :=
  ⟨engineTurn_nil rfl, rfl, rfl, encoderAtWidthEdge_buffers, rfl⟩

theorem witness_LookupIsExact :
    encoderLearned.mem.wf = true ∧ EncoderOk encoderLearned ∧ encoderLearned.dataCode (0 : Code).toNat :=
  ⟨by decide, encoderLearned_ok, ⟨by decide, by decide, by decide⟩⟩

theorem witness_EncoderCodesFit :
    EncoderOk encoderLearned ∧ encoderLearned.candV = true ∧ EncoderOk fullEncoder ∧ fullEncoder.candV = true :=
  ⟨encoderLearned_ok, rfl, fullEncoder_ok, rfl⟩

theorem witness_StepKeepsInvariant :
    (∃ s t : State, Inv s ∧ step s = .next t) ∧ (∃ s t : State, Inv s ∧ s.phase = .run ∧ step s = .next t) :=
  ⟨⟨finished, _, finished_inv, rfl⟩, ⟨freshDecoder, _, freshDecoder_inv, rfl, rfl⟩⟩

/-- A turn that stops and one that does not. -/
theorem witness_InvariantNeverStops :
    (∃ s : State, Inv s ∧ ∀ h rest, s.agenda = .host h :: rest → h.admitted s) ∧
    (∃ s : State, Inv s ∧ s.agenda = [.host .pop] ∧ ¬ HostStep.pop.admitted s) :=
  ⟨⟨decoderLearned, decoderLearned_inv, fun _ _ h => by cases h⟩,
    ⟨{ finished with agenda := [.host .pop] }, finished_inv.of_ports rfl, rfl, fun h => h rfl⟩⟩

theorem witness_StaleSlotsNeverRead :
    ∃ s t : State, s.mem.wf = true ∧ t.mem.wf = true ∧ SameButStale s t ∧ s ≠ t := by
  refine ⟨decoderLearned, { decoderLearned with mem := [(6, ⟨0, 0, 0⟩), (7, ⟨3, 3, 3⟩)] }, by decide, by decide, ⟨rfl, ?_⟩,
    by decide⟩
  intro c h1 h2
  change 6 ≤ c at h1
  change c < 7 at h2
  obtain rfl : c = 6 := by omega
  rfl

theorem witness_DecoderInvariants :
    (Inv freshDecoder ∧ freshDecoder.phase = .run ∧ freshDecoder.opk = .decCodes) ∧
    (Inv decoderLearned ∧ decoderLearned.phase = .run ∧ decoderLearned.opk = .decCodes ∧ decoderLearned.jr = false ∧
      decoderLearned.firstLearned ≤ 6 ∧ 6 < decoderLearned.n.toNat) :=
  ⟨⟨freshDecoder_inv, rfl, rfl⟩, ⟨decoderLearned_inv, rfl, rfl, rfl, by decide, by decide⟩⟩

theorem witness_SequenceLengths :
    (DictOk decoderLearned ∧ decoderLearned.dataCode 3 ∧ 3 < decoderLearned.clearCode) ∧
    (DictOk decoderLearned ∧ decoderLearned.dataCode 6 ∧ decoderLearned.firstLearned ≤ 6) :=
  ⟨⟨decoderLearned_dict, ⟨by decide, by decide, by decide⟩, by decide⟩,
    ⟨decoderLearned_dict, ⟨by decide, by decide, by decide⟩, by decide⟩⟩

/-- A KwKwK code that widens `W`. -/
theorem witness_WidthLaws :
    ∃ s t : State, Inv s ∧ s.engineTurn ∧ s.phase = .run ∧ s.opk ≠ .decWidth ∧ step s = .next t ∧ t.w ≠ s.w :=
  ⟨withBits [true, true, true] decoderLearned, _,
    ⟨by decide, .inr (decoderLearned_dict.same rfl rfl rfl rfl),
      fun _ => ⟨by decide, decoderLearned_ok.same rfl rfl rfl rfl rfl rfl⟩,
      ⟨by decide, by decide, by decide, by decide, by decide⟩, ⟨by decide, by decide, fun _ _ h => by cases h⟩⟩,
    engineTurn_nil rfl, rfl, by decide, rfl, by decide +kernel⟩

theorem witness_EngineStepsTerminate :
    ∃ s t : State, Inv s ∧ s.engineTurn ∧ s.phase = .run ∧ step s = .next t ∧ t ≠ s.afterTurn :=
  ⟨{ encoderZero with inq := [.eof] }, _, encoderZero_inv.of_ports rfl, engineTurn_nil rfl, rfl, rfl, by decide⟩

/-- The block `02 01 2C 00` (R183's example) and one byte behind it; the same block with an `End` for its terminator. -/
theorem witness_DecodeConsumesItsBlock :
    (∃ s : State, Inv s ∧ s.phase ≠ .run ∧ s.agenda = [] ∧ s.inq = .byte 2 :: [.byte 1, .byte 0x2C, .byte 0, .byte 9] ∧
      2 ≤ (2#8).toNat ∧ (2#8).toNat ≤ 8 ∧ deframe 0 [.byte 1, .byte 0x2C, .byte 0, .byte 9] = some ([0x2C], [.byte 9])) ∧
    (∃ s : State, Inv s ∧ s.phase ≠ .run ∧ s.agenda = [] ∧ s.inq = .byte 2 :: [.byte 1, .byte 0x2C, .eof, .byte 9] ∧
      2 ≤ (2#8).toNat ∧ (2#8).toNat ≤ 8 ∧ arriving 0 [.byte 1, .byte 0x2C, .eof, .byte 9] = ([0x2C], .endToken [.byte 9])) :=
  ⟨⟨{ finished with inq := .byte 2 :: [.byte 1, .byte 0x2C, .byte 0, .byte 9] }, finished_inv.of_ports rfl, by decide, rfl,
      rfl, by decide, by decide, by decide⟩,
    ⟨{ finished with inq := .byte 2 :: [.byte 1, .byte 0x2C, .eof, .byte 9] }, finished_inv.of_ports rfl, by decide, rfl,
      rfl, by decide, by decide, by decide⟩⟩

theorem witness_EncodeEndsOnItsInput :
    (∃ s t : State, Inv s ∧ s.phase ≠ .run ∧ s.agenda = [] ∧ 1 ≤ s.palette.toNat ∧ s.palette.toNat ≤ 256 ∧
      exec (.cmdEncode 0) s = .next t ∧ (∀ x ∈ ([3, 0] : List Byte), x.toNat < 2 ^ t.b.toNat) ∧
      s.inq = ([3, 0] : List Byte).map Token.byte ++ .eof :: []) ∧
    (∃ s t : State, Inv s ∧ s.phase ≠ .run ∧ s.agenda = [] ∧ 1 ≤ s.palette.toNat ∧ s.palette.toNat ≤ 256 ∧
      exec (.cmdEncode 0) s = .next t ∧ (∀ x ∈ ([0] : List Byte), x.toNat < 2 ^ t.b.toNat) ∧
      2 ^ t.b.toNat ≤ (4#8).toNat ∧ s.inq = ([0] : List Byte).map Token.byte ++ .byte 4 :: [.eof]) :=
  ⟨⟨{ finished with palette := 1, inq := [.byte 3, .byte 0, .eof] }, _, finished_inv.of_ports rfl, by decide, rfl, by decide,
      by decide, rfl, by decide +kernel, rfl⟩,
    ⟨{ finished with palette := 4, inq := [.byte 0, .byte 4, .eof] }, _, finished_inv.of_ports rfl, by decide, rfl, by decide,
      by decide, rfl, by decide +kernel, by decide +kernel, rfl⟩⟩

theorem witness_PortRoundTrip :
    (∃ s t : State, s.phase ≠ .run ∧ s.agenda = [] ∧ s.mem.wf = true ∧ 1 ≤ s.palette.toNat ∧ s.palette.toNat ≤ 256 ∧
      s.inq = ([0, 0, 0, 3] : List Byte).map Token.byte ++ .eof :: [] ∧ exec (.cmdEncode 0) s = .next t ∧
      ∀ x ∈ ([0, 0, 0, 3] : List Byte), x.toNat < 2 ^ t.b.toNat) ∧
    (∃ (r : State) (block : List Byte), r.phase ≠ .run ∧ r.agenda = [] ∧ r.mem.wf = true ∧
      r.inq = block.map Token.byte ++ [.eof]) :=
  ⟨⟨{ finished with palette := 4, inq := [.byte 0, .byte 0, .byte 0, .byte 3, .eof] }, _, by decide, rfl, by decide, by decide,
      by decide, rfl, rfl, by decide +kernel⟩,
    ⟨{ finished with inq := ([2, 1, 0x2C, 0] : List Byte).map Token.byte ++ [.eof] }, [2, 1, 0x2C, 0], by decide, rfl,
      by decide, rfl⟩⟩

end Sys2Proof.Tests
end

section
/-! The family of the machine's state (10_state.md): the invariant is kept by every step, an operation starts alike whatever
stood in the state before, and what reset and the host's register accesses give. -/

namespace Sys2Proof.Machine

/-! ## The invariant -/

/-- Whoever's turn it is, what the fetch settles at once and what the fetched instruction answers keep the invariant. -/
theorem fetch_inv {s : State} (h : Inv s) :
    (∀ t, fetch s = .settled (.next t) → Inv t) ∧
      ∀ i s' t, fetch s = .instr i s' → exec i s' = .next t → Inv t := by
  unfold fetch
  split
  · exact fetchEngine_inv h
  · exact fetchEngine_inv (h.of_ports rfl)
  · exact fetchHost_inv (h.of_ports rfl)

/-- Settles O51: a step is either settled by its fetch or the fetched instruction's meaning, and both keep the invariant. -/
theorem stepKeepsInvariant : Obligations.StepKeepsInvariant := by
  unfold Obligations.StepKeepsInvariant
  intro s t h he
  obtain ⟨hsettled, hinstr⟩ := fetch_inv h
  unfold step at he
  split at he
  case h_1 r hf => exact hsettled t (hf.trans (congrArg Fetched.settled he))
  case h_2 i s' hf => exact hinstr i s' t hf he

/-- Settles O50: at reset no base width is established, no operation runs, every buffer is empty and no fault is held. -/
theorem resetMeetsInvariant : Obligations.ResetMeetsInvariant := by
  unfold Obligations.ResetMeetsInvariant
  have hbuffers : BufferOk State.reset := ⟨by decide, by decide, rfl, by decide, fun _ => rfl⟩
  have hlatch : LatchOk State.reset := ⟨by decide, fun _ => rfl, fun _ _ h => nomatch h⟩
  exact ⟨rfl, .inl ⟨rfl, rfl, rfl, rfl⟩, fun h => (nomatch h), hbuffers, hlatch⟩

/-! ## The start of an operation (R180, R183, R232) -/

theorem exec_cmdDecode {s : State} (w : BitVec 30) (h : s.phase ≠ .run) :
    exec (.cmdDecode w) s = .next (startDecode s) := if_neg h

theorem exec_cmdEncode {s : State} (w : BitVec 30) (h : s.phase ≠ .run) :
    exec (.cmdEncode w) s = .next (startEncode s) := if_neg h

/-- R204: an illegal palette size is the fault entry of `RANGE_PALETTE`. -/
theorem startEncode_illegal {s : State} (h : baseWidth s.palette.toNat = none) :
    startEncode s = { encodePrologue s with
      err := .rangePalette, einfo := s.palette.setWidth 16, pfault := none, phase := .fault } := by
  have hb : baseWidth (encodePrologue s).pLat.toNat = none := h
  unfold startEncode
  rw [hb]
  exact raise_taken (by simp)

theorem startEncode_legal {s : State} {b : Nat} (h : baseWidth s.palette.toNat = some b) :
    startEncode s = startEncoding b (encodePrologue s) := by
  have hb : baseWidth (encodePrologue s).pLat.toNat = some b := h
  unfold startEncode
  rw [hb]

/-- What the leading Clear does depends on the parameters, `B`, `W` and the code stream's own registers only. -/
theorem leadingClear_local (cfg : Config.Params) (b w : BitVec 4) (ch : List Byte) (wa : List Bool) :
    ∃ C A k out, ∀ s : State, s.cfg = cfg → s.b = b → s.w = w → s.chunk = ch → s.wacc = wa →
      leadingClear s =
        { s with chunk := C, wacc := A, wcur := s.wcur + k, outq := s.outq ++ List.map OutItem.byte out } := by
  by_cases hc : cfg.leadingClear = true
  · obtain ⟨C, A, out, hw⟩ := writeBits_local (2 ^ b.toNat) w.toNat ch wa
    refine ⟨C, A, w.toNat, out, ?_⟩
    rintro s rfl rfl rfl hch hwa
    unfold leadingClear
    rw [if_pos hc]
    exact hw s hch hwa
  · refine ⟨ch, wa, 0, [], ?_⟩
    rintro s rfl - - rfl rfl
    simp [leadingClear, hc]

/-- From its prologue on, ENCODE sets its registers and its first output from the base width, the parameters and the draw
counter alone. -/
theorem startEncoding_local (b : Nat) (cfg : Config.Params) :
    ∃ C A k out, ∀ s : State, s.cfg = cfg → startEncoding b (encodePrologue s) =
      { encodePrologue s with
        opk := .encIndex, b := BitVec.ofNat 4 b, n := BitVec.ofNat 13 (2 ^ (BitVec.ofNat 4 b).toNat + 2)
        w := BitVec.ofNat 4 b + 1, jr := true, prev := Config.unspecifiedPrev (s.draws + 1), draws := s.draws + 2
        chunk := C, wacc := A, wcur := k, outq := s.outq ++ out } := by
  obtain ⟨C, A, k, out, h⟩ := leadingClear_local cfg (BitVec.ofNat 4 b) (BitVec.ofNat 4 b + 1) [] []
  refine ⟨C, A, k, .byte (BitVec.ofNat 8 b) :: out.map .byte, ?_⟩
  intro s hcfg
  have hclear := h (dictReset (outPut (BitVec.ofNat 8 b) { encodePrologue s with b := BitVec.ofNat 4 b })) hcfg rfl rfl
    rfl rfl
  rw [startEncoding, hclear]
  simp [encodePrologue, State.firstLearned, dictReset, outPut, opInit]

/-- Settles O14: what either command writes is a function of the palette size, the parameters and the draw counter; for
ENCODE by whether the palette size has a base width. -/
theorem operationForgetsThePast : Obligations.OperationForgetsThePast := by
  unfold Obligations.OperationForgetsThePast
  intro s₁ s₂ w₁ w₂ h₁ h₂ hpal hcfg hdraws
  refine ⟨⟨_, _, exec_cmdDecode w₁ h₁, exec_cmdDecode w₂ h₂, rfl, ?_⟩, ?_⟩
  · simp [startDecode, opInit, hpal, hcfg, hdraws]
  cases hb : baseWidth s₁.palette.toNat with
  | none =>
    refine ⟨_, _, [], exec_cmdEncode w₁ h₁, exec_cmdEncode w₂ h₂, ?_⟩
    rw [startEncode_illegal hb, startEncode_illegal (hpal ▸ hb)]
    simp [encodePrologue, opInit, hpal, hcfg, hdraws]
  | some b =>
    obtain ⟨C, A, k, out, h⟩ := startEncoding_local b s₁.cfg
    refine ⟨_, _, out, exec_cmdEncode w₁ h₁, exec_cmdEncode w₂ h₂, ?_⟩
    rw [startEncode_legal hb, startEncode_legal (hpal ▸ hb), h s₁ rfl, h s₂ hcfg.symm]
    simp [encodePrologue, opInit, hpal, hcfg, hdraws]

/-! ## The register words, field by field (R32 to R36) -/

/-- R208: the codes 8 to 15 are never raised. -/
theorem ErrCode.bits_lt (c : ErrCode) : c.bits.toNat < 8 := by cases c <;> decide

theorem statusWord_err (s : State) :
    (statusWord s).extractLsb' 8 4 = if s.phase = .fault then s.err.bits else 0#4 := by
  simp only [statusWord, BitVec.extractLsb'_append_eq_ite]
  simp

theorem statusWord_lastOp (s : State) : (statusWord s).extractLsb' 4 2 = s.lastOp := by
  simp only [statusWord, BitVec.extractLsb'_append_eq_ite]
  simp

theorem statusWord_flags (s : State) :
    ((statusWord s).getLsbD 0 = true ↔ s.phase = .run) ∧ ((statusWord s).getLsbD 1 = true ↔ s.phase = .done) ∧
      ((statusWord s).getLsbD 2 = true ↔ s.phase = .fault) := by
  simp only [statusWord, BitVec.getLsbD_append]
  simp

theorem statusWord_reserved (s : State) :
    (statusWord s).getLsbD 3 = false ∧ (statusWord s).extractLsb' 6 2 = 0#2 ∧
      (statusWord s).extractLsb' 12 20 = 0#20 := by
  simp only [statusWord, BitVec.extractLsb'_append_eq_ite, BitVec.getLsbD_append]
  simp

theorem errInfoWord_toNat (s : State) : (errInfoWord s).toNat = if s.phase = .fault then s.einfo.toNat else 0 := by
  rw [errInfoWord, append_toNat]
  split <;> simp

theorem paletteWord_toNat (s : State) : (paletteWord s).toNat = s.palette.toNat := by
  rw [paletteWord, append_toNat]
  simp

theorem baseWord_toNat (s : State) : (baseWord s).toNat = s.b.toNat := by
  rw [baseWord, append_toNat]
  simp

theorem stateWord_fields (s : State) :
    (stateWord s).extractLsb' 0 13 = s.n ∧ (stateWord s).extractLsb' 16 4 = s.w ∧
      (stateWord s).getLsbD 24 = s.jr := by
  simp only [stateWord, BitVec.extractLsb'_append_eq_ite, BitVec.getLsbD_append]
  simp

theorem stateWord_reserved (s : State) :
    (stateWord s).extractLsb' 13 3 = 0#3 ∧ (stateWord s).extractLsb' 20 4 = 0#4 ∧
      (stateWord s).extractLsb' 25 7 = 0#7 := by
  simp only [stateWord, BitVec.extractLsb'_append_eq_ite]
  simp

theorem readRegister_base {s : State} (h : s.phase ≠ .run) : readRegister 0x10 s = baseWord s := if_neg h

theorem readRegister_state {s : State} (h : s.phase ≠ .run) : readRegister 0x14 s = stateWord s := if_neg h

/-- R31, R42: `CTRL` and the unmapped offsets read 0. -/
theorem readRegister_unmapped {off : Nat} (h : off = 0 ∨ 0x18 ≤ off) (s : State) : readRegister off s = 0 := by
  unfold readRegister
  split
  case h_6 => rfl
  all_goals omega

/-- Settles O35: register 0x08 is `statusWord`, whose fields are read off one by one. -/
theorem statusFields : Obligations.StatusFields := by
  unfold Obligations.StatusFields
  refine ⟨rfl, fun s => ?_⟩
  have hread : readRegister 0x08 s = statusWord s := rfl
  have herr := statusWord_err s
  have hlt : ((statusWord s).extractLsb' 8 4).toNat < 8 := by
    rw [herr]
    split
    · exact s.err.bits_lt
    · decide
  obtain ⟨hbusy, hdone, hfault⟩ := statusWord_flags s
  obtain ⟨h3, h6, h12⟩ := statusWord_reserved s
  rw [hread]
  exact ⟨hlt, hbusy, hdone, hfault, h3, statusWord_lastOp s, h6,
    fun h => herr.trans (if_pos h), fun h => herr.trans (if_neg h), h12⟩

/-- Settles O36: outside RUN the registers are their words, with no free value. -/
theorem registerViews : Obligations.RegisterViews := by
  unfold Obligations.RegisterViews
  intro s
  have hinfo : (readRegister 0x0C s).toNat = if s.phase = .fault then s.einfo.toNat else 0 := errInfoWord_toNat s
  obtain ⟨hn, hw, hjr⟩ := stateWord_fields s
  obtain ⟨h13, h20, h25⟩ := stateWord_reserved s
  refine ⟨fun h => hinfo.trans (if_pos h), fun h => hinfo.trans (if_neg h), fun h => ?_, fun h => ?_, fun h => ?_,
    fun h => ?_, fun h => ?_, fun h => ?_, fun h => ?_⟩
  · rw [readRegister_base h, baseWord_toNat]
  all_goals rw [readRegister_state h]; assumption

/-! ## The host's register writes and the power-on reset (R42, R57, R230) -/

theorem writeRegister_inert {off : Nat} (h : off ≠ 0x04) (v : HostWord) (s : State) : writeRegister off v s = s := by
  unfold writeRegister
  split
  · exact absurd rfl h
  · rfl

/-- An accepted write anywhere but `CTRL`. -/
theorem step_memWrite {s : State} {off : Nat} {v : HostWord} {rest : List Turn} (hm : off % 4 = 0) (hle : off ≤ 0xFC)
    (h0 : off ≠ 0) (h : s.agenda = .host (.memWrite off 4 v) :: rest) :
    step s = .next (writeRegister off v { s with agenda := rest }) := by
  have hok : accessOk off 4 = true := by simp [accessOk, hm, hle]
  rw [host_step h]
  simp [fetchHost, hok, h0]

theorem step_powerOn {s : State} {rest : List Turn} (h : s.agenda = .host .powerOn :: rest) :
    step s = .next (powerOnReset { s with agenda := rest }) := by
  rw [host_step h]
  rfl

/-- Settles O37: the write is accepted and takes the low 9 bits; the read pads `SIZE` with zeros. -/
theorem paletteRegister : Obligations.PaletteRegister := by
  unfold Obligations.PaletteRegister
  refine ⟨fun s v rest h => ⟨_, step_memWrite rfl (by decide) (by decide) h, ?_, rfl⟩, paletteWord_toNat⟩
  simp [writeRegister]

/-- Settles O38: the write is accepted and then ignored. -/
theorem otherOffsetsInert : Obligations.OtherOffsetsInert := by
  unfold Obligations.OtherOffsetsInert
  intro s off v rest hm hle
  refine ⟨fun h0 h4 ha => ?_, fun h => readRegister_unmapped h s⟩
  rw [step_memWrite hm hle h0 ha, writeRegister_inert h4]

/-- Settles O41: every piece is a closed fact about the one state `State.reset`. -/
theorem resetState : Obligations.ResetState := by
  unfold Obligations.ResetState
  decide

/-- Settles O42: the step is `powerOnReset`, whatever the phase. -/
theorem powerOnResets : Obligations.PowerOnResets := by
  unfold Obligations.PowerOnResets
  intro s rest h
  exact ⟨_, step_powerOn h, rfl, rfl⟩

end Sys2Proof.Machine
end

section
/-! The family of the machine's ports and RAM (10_state.md, 40_framer.md, 41_bit_packer.md): no step reads a stale RAM slot,
what `ReadBits` takes from the input port, when the end marker is output, and the host's steps. -/

namespace Sys2Proof.Machine

/-! ## Stale RAM slots (R66, R125) -/

section
variable {s t : State}

/-- `t` is `s` with another RAM, one that holds the same learned entries of the epoch. -/
theorem SameButStale.exists_ram (h : SameButStale s t) : ∃ m, t = { s with mem := m } ∧
    ∀ c, s.firstLearned ≤ c → c < s.n.toNat → s.mem.read c = m.read c :=
  ⟨t.mem, h.1, h.2⟩

theorem SameButStale.symm (h : SameButStale s t) : SameButStale t s := by
  obtain ⟨m, rfl, hm⟩ := h.exists_ram
  exact ⟨rfl, fun c h1 h2 => (hm c h1 h2).symm⟩

theorem SameButStale.extends (h : SameButStale s t) : Extends s t := by
  obtain ⟨m, rfl, hm⟩ := h.exists_ram
  exact ⟨rfl, le_rfl, fun c h1 h2 => (hm c h1 h2).symm⟩

/-- An epoch that has learned nothing has no slot to read. -/
theorem sameButStale_of_fresh {m : Memory} (h : s.n.toNat ≤ s.firstLearned) : SameButStale s { s with mem := m } :=
  ⟨rfl, fun _ h1 h2 => absurd (h1.trans_lt h2) h.not_gt⟩

theorem firstOf_alike (h : SameButStale s t) (c : Nat) : firstOf t c = firstOf s c :=
  Option.ext fun _ => ⟨h.symm.extends.firstOf, h.extends.firstOf⟩

theorem seqOf_alike (h : SameButStale s t) (c : Nat) : seqOf t c = seqOf s c :=
  Option.ext fun _ => ⟨h.symm.extends.seqOf, h.extends.seqOf⟩

theorem raise_alike (c : ErrCode) (i : BitVec 16) (h : SameButStale s t) : SameButStale (raise c i s) (raise c i t) := by
  obtain ⟨m, rfl, hm⟩ := h.exists_ram
  simp only [raise]
  split <;> exact ⟨rfl, hm⟩

/-- R124: an epoch reset leaves no learned code. -/
theorem dictReset_fresh (s : State) : (dictReset s).n.toNat ≤ (dictReset s).firstLearned :=
  BitVec.toNat_ofNat .. ▸ Nat.mod_le _ _

theorem dictReset_alike (h : SameButStale s t) : SameButStale (dictReset s) (dictReset t) := by
  obtain ⟨m, rfl, -⟩ := h.exists_ram
  exact sameButStale_of_fresh (dictReset_fresh s)

theorem endDataCode_alike (c : Code) (h : SameButStale s t) : SameButStale (endDataCode c s) (endDataCode c t) := by
  obtain ⟨m, rfl, hm⟩ := h.exists_ram
  exact ⟨rfl, hm⟩

theorem withCand_alike (c : Code) (h : SameButStale s t) :
    SameButStale { s with cand := c } { t with cand := c } := by
  obtain ⟨m, rfl, hm⟩ := h.exists_ram
  exact ⟨rfl, hm⟩

theorem outPutAll_alike (vs : List Byte) (h : SameButStale s t) : SameButStale (outPutAll vs s) (outPutAll vs t) := by
  obtain ⟨m, rfl, hm⟩ := h.exists_ram
  exact ⟨rfl, hm⟩

/-- The slot an add writes becomes a slot of the epoch, with the same entry in both RAMs. -/
theorem dictAdd_alike (p : Code) (x f : Byte) (hn : s.n.toNat < 4096) (h : SameButStale s t) :
    SameButStale (dictAdd p x f s) (dictAdd p x f t) := by
  obtain ⟨m, rfl, hm⟩ := h.exists_ram
  refine ⟨rfl, fun c h1 h2 => ?_⟩
  simp only [dictAdd_mem, dictAdd_n, n_succ hn] at h2 ⊢
  by_cases hc : c = s.n.toNat
  · subst hc
    rw [Memory.read_write_same, Memory.read_write_same]
  · rw [Memory.read_write_other _ _ hc, Memory.read_write_other _ _ hc]
    exact hm c h1 (by omega)

theorem decoderGrowth_alike (h : SameButStale s t) : SameButStale (decoderGrowth s) (decoderGrowth t) := by
  obtain ⟨m, rfl, hm⟩ := h.exists_ram
  simp only [decoderGrowth]
  split <;> exact ⟨rfl, hm⟩

theorem encoderGrowth_alike (h : SameButStale s t) : SameButStale (encoderGrowth s) (encoderGrowth t) := by
  obtain ⟨m, rfl, hm⟩ := h.exists_ram
  simp only [encoderGrowth]
  split <;> exact ⟨rfl, hm⟩

theorem finalGrowth_alike (h : SameButStale s t) : SameButStale (finalGrowth s) (finalGrowth t) := by
  obtain ⟨m, rfl, hm⟩ := h.exists_ram
  simp only [finalGrowth]
  split <;> exact ⟨rfl, hm⟩

/-! ### The encoder's output side -/

theorem writeBits_alike (v w : Nat) (h : SameButStale s t) : SameButStale (writeBits v w s) (writeBits v w t) := by
  obtain ⟨m, rfl, hm⟩ := h.exists_ram
  obtain ⟨C, A, out, hw⟩ := writeBits_local v w s.chunk s.wacc
  rw [hw s rfl rfl, hw { s with mem := m } rfl rfl]
  exact ⟨rfl, hm⟩

theorem flush_alike (h : SameButStale s t) : SameButStale (flush s) (flush t) := by
  obtain ⟨m, rfl, hm⟩ := h.exists_ram
  obtain ⟨C, A, out, hw⟩ := writeBitList_local (List.replicate (8 - s.wacc.length) false) s.chunk s.wacc
  simp only [flush, hw s rfl rfl, hw { s with mem := m } rfl rfl]
  split <;> exact ⟨rfl, hm⟩

theorem frameEnd_alike (h : SameButStale s t) : SameButStale (frameEnd s) (frameEnd t) := by
  obtain ⟨m, rfl, hm⟩ := h.exists_ram
  rw [frameEnd_eq, frameEnd_eq]
  exact ⟨rfl, hm⟩

theorem finalCandidate_alike (h : SameButStale s t) : SameButStale (finalCandidate s) (finalCandidate t) := by
  have hw := writeBits_alike s.cand.toNat s.w.toNat h
  obtain ⟨m, rfl, -⟩ := h.exists_ram
  simp only [finalCandidate]
  split
  · exact hw
  · exact h

theorem writeEoi_alike (h : SameButStale s t) : SameButStale (writeEoi s) (writeEoi t) := by
  have hw := writeBits_alike s.eoiCode s.w.toNat h
  obtain ⟨m, rfl, -⟩ := h.exists_ram
  exact hw

theorem encodeFinish_alike (h : SameButStale s t) : SameButStale (encodeFinish s) (encodeFinish t) :=
  flush_alike (writeEoi_alike (finalGrowth_alike (finalCandidate_alike h)))

/-! ### The commands -/

theorem acknowledge_alike (h : SameButStale s t) : SameButStale (acknowledge s) (acknowledge t) := by
  obtain ⟨m, rfl, hm⟩ := h.exists_ram
  simp only [acknowledge]
  split <;> exact ⟨rfl, hm⟩

theorem startDecode_alike (h : SameButStale s t) : SameButStale (startDecode s) (startDecode t) := by
  obtain ⟨m, rfl, -⟩ := h.exists_ram
  exact sameButStale_of_fresh (Nat.zero_le _)

/-- ENCODE sets `N` to 0 or to the first learned code of its base width before anything can be read. -/
theorem startEncode_alike (h : SameButStale s t) : SameButStale (startEncode s) (startEncode t) := by
  obtain ⟨m, rfl, -⟩ := h.exists_ram
  cases hb : baseWidth s.palette.toNat with
  | none =>
    rw [startEncode_illegal hb, startEncode_illegal (s := { s with mem := m }) hb]
    exact sameButStale_of_fresh (Nat.zero_le _)
  | some b =>
    obtain ⟨C, A, k, out, he⟩ := startEncoding_local b s.cfg
    rw [startEncode_legal hb, startEncode_legal (s := { s with mem := m }) hb, he s rfl, he { s with mem := m } rfl]
    exact sameButStale_of_fresh (BitVec.toNat_ofNat .. ▸ Nat.mod_le _ _)

theorem reservedCommand_alike (h : SameButStale s t) : SameButStale (reservedCommand s) (reservedCommand t) := by
  obtain ⟨m, rfl, hm⟩ := h.exists_ram
  exact raise_alike .illegalCmd 0 ⟨rfl, hm⟩

/-! ### The input side -/

/-- Two takings of operands that end alike, in states alike but for stale slots. -/
inductive FlowAlike {α : Type} : Flow α → Flow α → Prop
  | ok (a : α) {s t : State} (h : SameButStale s t) : FlowAlike (.ok a s) (.ok a t)
  | stall : FlowAlike .stall .stall
  | raised {s t : State} (h : SameButStale s t) : FlowAlike (.raised s) (.raised t)

theorem takeChunkByte_alike (h : SameButStale s t) : FlowAlike (takeChunkByte s) (takeChunkByte t) := by
  obtain ⟨m, rfl, hm⟩ := h.exists_ram
  simp only [takeChunkByte]
  split
  · exact .stall
  · exact .raised (raise_alike .ioFail 0 ⟨rfl, hm⟩)
  · exact .ok _ ⟨rfl, hm⟩

theorem frameGet_alike (h : SameButStale s t) : FlowAlike (frameGet s) (frameGet t) := by
  have hchunk := takeChunkByte_alike h
  obtain ⟨m, rfl, hm⟩ := h.exists_ram
  simp only [frameGet]
  split
  · exact .ok none h
  split
  · split
    · exact .stall
    · exact .raised (raise_alike .ioFail 0 ⟨rfl, hm⟩)
    · split
      · exact .ok none ⟨rfl, hm⟩
      · exact takeChunkByte_alike ⟨rfl, hm⟩
  · exact hchunk

theorem fillBits_alike (w fuel : Nat) (h : SameButStale s t) : FlowAlike (fillBits w fuel s) (fillBits w fuel t) := by
  induction fuel generalizing s t with
  | zero => exact .ok () h
  | succ fuel ih =>
    have hget := frameGet_alike h
    have hracc : t.racc = s.racc := by rw [h.1]
    rw [fillBits, fillBits, hracc]
    split
    · exact .ok () h
    · generalize frameGet s = x, frameGet t = y at hget
      cases hget with
      | stall => exact .stall
      | raised h' => exact .raised h'
      | ok o h' =>
        cases o with
        | none => exact .raised (raise_alike .outOfData 0 h')
        | some v =>
          obtain ⟨m, rfl, hm⟩ := h'.exists_ram
          exact ih ⟨rfl, hm⟩

theorem readBits_alike (w : Nat) (h : SameButStale s t) : FlowAlike (readBits w s) (readBits w t) := by
  have hfill := fillBits_alike w w h
  unfold readBits
  generalize fillBits w w s = x, fillBits w w t = y at hfill
  cases hfill with
  | stall => exact .stall
  | raised h' => exact .raised h'
  | ok _ h' =>
    obtain ⟨m, rfl, hm⟩ := h'.exists_ram
    exact .ok _ ⟨rfl, hm⟩

theorem endDrain_alike (h : SameButStale s t) : SameButStale (endDrain s) (endDrain t) := by
  obtain ⟨m, rfl, hm⟩ := h.exists_ram
  simp only [endDrain, finishFault]
  split
  · exact ⟨rfl, hm⟩
  · split <;> exact ⟨rfl, hm⟩

theorem drainStep_alike (h : SameButStale s t) : SameButStale (drainStep s) (drainStep t) := by
  have hget := frameGet_alike h
  unfold drainStep
  generalize frameGet s = x, frameGet t = y at hget
  cases hget with
  | stall => exact h
  | raised h' => exact h'
  | ok o h' =>
    cases o with
    | none => exact endDrain_alike h'
    | some _ => exact h'

/-! ### What a step answers -/

/-- Two steps that answer next states alike but for stale slots, or that stop for the same reason. -/
inductive ResultAlike : Result → Result → Prop
  | next {s t : State} (h : SameButStale s t) : ResultAlike (.next s) (.next t)
  | fault (f : Fault) : ResultAlike (.fault f) (.fault f)
  | refused (r : Refusal) : ResultAlike (.refused r) (.refused r)

theorem command_alike {effect : State → State} (he : SameButStale (effect s) (effect t)) (h : SameButStale s t) :
    ResultAlike (command effect s) (command effect t) := by
  obtain ⟨m, rfl, -⟩ := h.exists_ram
  simp only [command]
  split
  · exact .next h
  · exact .next he

theorem execWidthByte_alike (v : Byte) (h : SameButStale s t) :
    ResultAlike (execWidthByte v s) (execWidthByte v t) := by
  unfold execWidthByte
  split
  · exact .next (raise_alike .badWidth _ h)
  · obtain ⟨m, rfl, -⟩ := h.exists_ram
    exact .next (sameButStale_of_fresh (dictReset_fresh { s with b := v.setWidth 4 }))

theorem badCode_alike (c : Code) (h : SameButStale s t) : ResultAlike (badCode c s) (badCode c t) :=
  .next (raise_alike .badCode _ h)

theorem addAfterPrevious_alike (f : Byte) (hn : s.n.toNat < 4096) (h : SameButStale s t) :
    Option.Rel SameButStale (addAfterPrevious f s) (addAfterPrevious f t) := by
  have hfirst := firstOf_alike h
  obtain ⟨m, rfl, -⟩ := h.exists_ram
  simp only [addAfterPrevious, hfirst]
  split
  · exact .none
  · exact .some (decoderGrowth_alike (dictAdd_alike _ _ _ hn h))

theorem knownEntry_alike (c : Code) (h : SameButStale s t) : ResultAlike (knownEntry c s) (knownEntry c t) := by
  have hseq := seqOf_alike h
  have hfirst := firstOf_alike h
  obtain ⟨m, rfl, -⟩ := h.exists_ram
  simp only [knownEntry, hseq, hfirst]
  split
  · exact badCode_alike c h
  split
  · rename_i q f _ _
    split
    · rename_i hadd
      have hrel := addAfterPrevious_alike (s := outPutAll q s) f hadd.2 (outPutAll_alike q h)
      generalize addAfterPrevious f (outPutAll q s) = x, addAfterPrevious f (outPutAll q { s with mem := m }) = y at hrel
      cases hrel with
      | none => exact .fault _
      | some h' => exact .next (endDataCode_alike c h')
    · exact .next (endDataCode_alike c (outPutAll_alike q h))
  · exact .fault _

theorem notYetMaterialised_alike (c : Code) (h : SameButStale s t) :
    ResultAlike (notYetMaterialised c s) (notYetMaterialised c t) := by
  have hseq := seqOf_alike h
  have hfirst := firstOf_alike h
  obtain ⟨m, rfl, -⟩ := h.exists_ram
  simp only [notYetMaterialised, hseq, hfirst]
  split
  · exact .fault _
  split
  · rename_i hlt _ _ q f _ _
    have hadd := dictAdd_alike s.prev f f (by omega) h
    exact .next (endDataCode_alike c (outPutAll_alike _ (decoderGrowth_alike hadd)))
  · exact .fault _

/-- Every instruction runs alike: only `KnownEntry` and `ExecKwKwK` read the RAM, and they read it at valid codes. -/
theorem exec_alike (i : Instr) (h : SameButStale s t) : ResultAlike (exec i s) (exec i t) := by
  cases i with
  | cmdAck _ => exact command_alike (acknowledge_alike h) h
  | cmdEncode _ => exact command_alike (startEncode_alike h) h
  | cmdDecode _ => exact command_alike (startDecode_alike h) h
  | cmdReserved _ => exact command_alike (reservedCommand_alike h) h
  | widthByte v => exact execWidthByte_alike v h
  | subblockTerm | subblockLen _ | eoi2 | eoi3 | eoi4 | eoi5 | eoi6 | eoi7 | eoi8 =>
    obtain ⟨m, rfl, hm⟩ := h.exists_ram
    exact .next ⟨rfl, hm⟩
  | clear2 | clear3 | clear4 | clear5 | clear6 | clear7 | clear8 => exact .next (dictReset_alike h)
  | literal2 _ | literal3 _ | literal4 _ | literal5 _ | literal6 _ | literal7 _ | literal8 _ | learned _ =>
    exact knownEntry_alike _ h
  | kwkwk c => exact notYetMaterialised_alike c h
  | kwkwkAfterReset c | invalid c => exact badCode_alike c h

/-! ### The encoder's lookup -/

/-- In a canonical RAM the search answers the least slot of the range that holds the pair. -/
theorem findEntry_least {lo hi : Nat} {p : Code} {i : Byte} {m : Memory} (hm : m.wf = true) {c : Nat}
    (h : findEntry lo hi p i m = some c) {d : Nat} {e : Entry} (hd : (d, e) ∈ m) (hlo : lo ≤ d) (hhi : d < hi)
    (hpair : e.pfx = p ∧ e.sfx = i) : c ≤ d := by
  induction m with
  | nil => cases hd
  | cons x m ih =>
    obtain ⟨a, y⟩ := x
    obtain ⟨-, hlt, hw⟩ := (Memory.wf_cons a y m).mp hm
    unfold findEntry at h
    split at h
    · obtain rfl := Option.some.inj h
      rcases List.mem_cons.mp hd with hd | hd
      · exact (Prod.mk.inj hd).1.ge
      · exact (hlt _ hd).le
    · rename_i hno
      rcases List.mem_cons.mp hd with hd | hd
      · obtain ⟨rfl, rfl⟩ := Prod.mk.inj hd
        exact absurd ⟨hlo, hhi, hpair⟩ hno
      · exact ih hw h hd

/-- A hit in one RAM is a hit in the other, at the same code or below. -/
theorem dictFind_le {p : Code} {i : Byte} {c : Nat} (hs : s.mem.wf = true) (ht : t.mem.wf = true)
    (h : SameButStale s t) (hc : dictFind s p i = some c) : ∃ d, dictFind t p i = some d ∧ d ≤ c := by
  obtain ⟨h1, h2, e, he, hpair⟩ := dictFind_some hs hc
  have hte : (c, e) ∈ t.mem := Memory.mem_of_read (h.2 c h1 h2 ▸ he)
  have hlo : t.firstLearned ≤ c := by rw [h.1]; exact h1
  have hhi : c < t.n.toNat := by rw [h.1]; exact h2
  cases hd : dictFind t p i with
  | none => exact absurd hpair (findEntry_none hd hte hlo hhi)
  | some d => exact ⟨d, rfl, findEntry_least ht hd hte hlo hhi hpair⟩

theorem dictFind_alike (hs : s.mem.wf = true) (ht : t.mem.wf = true) (h : SameButStale s t) (p : Code) (i : Byte) :
    dictFind t p i = dictFind s p i := by
  cases hc : dictFind s p i with
  | none =>
    cases hd : dictFind t p i with
    | none => rfl
    | some d =>
      obtain ⟨c, hc', -⟩ := dictFind_le ht hs h.symm hd
      cases hc.symm.trans hc'
  | some c =>
    obtain ⟨d, hd, hle⟩ := dictFind_le hs ht h hc
    obtain ⟨c', hc', hge⟩ := dictFind_le ht hs h.symm hd
    obtain rfl := Option.some.inj (hc.symm.trans hc')
    rw [hd, hle.antisymm hge]

theorem encMiss_alike (i : Byte) (hn : s.n.toNat < 4096) (h : SameButStale s t) :
    ResultAlike (encMiss i s) (encMiss i t) := by
  have hfirst := firstOf_alike h
  have hwrite := writeBits_alike s.cand.toNat s.w.toNat h
  obtain ⟨m, rfl, -⟩ := h.exists_ram
  simp only [encMiss, hfirst]
  split
  · exact .fault _
  · rename_i f _
    have hadd := encoderGrowth_alike (dictAdd_alike s.cand i f (by simpa using hn) hwrite)
    exact .next (withCand_alike _ hadd)

theorem encMissFull_alike (i : Byte) (h : SameButStale s t) : ResultAlike (encMissFull i s) (encMissFull i t) := by
  have hwrite := writeBits_alike s.clearCode s.w.toNat (writeBits_alike s.cand.toNat s.w.toNat h)
  obtain ⟨m, rfl, -⟩ := h.exists_ram
  exact .next (withCand_alike _ (dictReset_alike hwrite))

theorem encodeIndex_alike (i : Byte) (hs : s.mem.wf = true) (ht : t.mem.wf = true) (h : SameButStale s t) :
    ResultAlike (encodeIndex i s) (encodeIndex i t) := by
  have hfind := dictFind_alike hs ht h
  have hclear : t.clearCode = s.clearCode := clearCode_of_b (by rw [h.1])
  obtain ⟨m, rfl, hm⟩ := h.exists_ram
  simp only [encodeIndex, hfind, hclear]
  split
  · exact .next (raise_alike .rangeIndex _ h)
  split
  · exact .next ⟨rfl, hm⟩
  split
  · exact .next (withCand_alike _ h)
  split
  · exact encMiss_alike i ‹_› h
  · exact encMissFull_alike i h

theorem encIndexStep_alike (hs : s.mem.wf = true) (ht : t.mem.wf = true) (h : SameButStale s t) :
    ResultAlike (encIndexStep s) (encIndexStep t) := by
  obtain ⟨m, rfl, hm⟩ := h.exists_ram
  simp only [encIndexStep]
  split
  · exact .next h
  · exact .next ⟨rfl, hm⟩
  · exact encodeIndex_alike _ hs ht ⟨rfl, hm⟩

theorem encFinishStep_alike (h : SameButStale s t) : ResultAlike (encFinishStep s) (encFinishStep t) := by
  have hend := frameEnd_alike (encodeFinish_alike h)
  unfold encFinishStep
  generalize frameEnd (encodeFinish s) = u, frameEnd (encodeFinish t) = v at hend
  obtain ⟨m, rfl, hm⟩ := hend.exists_ram
  exact .next ⟨rfl, hm⟩

/-! ### The fetch, and the step -/

/-- Two fetches that settle their steps alike, or that answer the same instruction to run. -/
inductive FetchedAlike : Fetched → Fetched → Prop
  | settled {r r' : Result} (h : ResultAlike r r') : FetchedAlike (.settled r) (.settled r')
  | instr (i : Instr) {s t : State} (h : SameButStale s t) : FetchedAlike (.instr i s) (.instr i t)

theorem ofDecoded_alike (d : Decoded) (h : SameButStale s t) :
    FetchedAlike (Fetched.ofDecoded d s) (Fetched.ofDecoded d t) := by
  cases d with
  | instr i => exact .instr i h
  | rejected r => exact .settled (.refused _)

theorem fetchWidth_alike (h : SameButStale s t) : FetchedAlike (fetchWidth s) (fetchWidth t) := by
  obtain ⟨m, rfl, hm⟩ := h.exists_ram
  simp only [fetchWidth]
  split
  · exact .settled (.next h)
  · exact .settled (.next (raise_alike .ioFail 0 ⟨rfl, hm⟩))
  · exact ofDecoded_alike _ ⟨rfl, hm⟩

theorem fetchCode_alike (h : SameButStale s t) : FetchedAlike (fetchCode s) (fetchCode t) := by
  have hw : t.w = s.w := by rw [h.1]
  have hread := readBits_alike s.w.toNat h
  unfold fetchCode
  rw [hw]
  generalize readBits s.w.toNat s = x, readBits s.w.toNat t = y at hread
  cases hread with
  | stall => exact .settled (.next h)
  | raised h' => exact .settled (.next h')
  | ok c h' =>
    rename_i s' t'
    have hctx : t'.codeContext = s'.codeContext := by rw [h'.1]; rfl
    simp only [hctx]
    exact ofDecoded_alike _ h'

theorem fetchEngine_alike (hs : s.mem.wf = true) (ht : t.mem.wf = true) (h : SameButStale s t) :
    FetchedAlike (fetchEngine s) (fetchEngine t) := by
  have hphase : t.phase = s.phase := by rw [h.1]
  have hopk : t.opk = s.opk := by rw [h.1]
  unfold fetchEngine
  rw [hphase, hopk]
  cases s.phase with
  | idle | done | fault => exact .settled (.next h)
  | run =>
    cases s.opk with
    | encIndex => exact .settled (encIndexStep_alike hs ht h)
    | encFinish => exact .settled (encFinishStep_alike h)
    | decWidth => exact fetchWidth_alike h
    | decCodes => exact fetchCode_alike h
    | decDrain => exact .settled (.next (drainStep_alike h))

theorem readRegister_alike (off : Nat) (h : SameButStale s t) : readRegister off t = readRegister off s := by
  obtain ⟨m, rfl, -⟩ := h.exists_ram
  rfl

theorem fetchHost_alike (hs : HostStep) (h : SameButStale s t) : FetchedAlike (fetchHost hs s) (fetchHost hs t) := by
  have hread (off : Nat) := readRegister_alike off h
  obtain ⟨m, rfl, hm⟩ := h.exists_ram
  cases hs with
  | memWrite off size v =>
    simp only [fetchHost, writeRegister]
    split
    · exact .settled (.refused _)
    split
    · exact ofDecoded_alike _ h
    · split
      · exact .settled (.next ⟨rfl, hm⟩)
      · exact .settled (.next h)
  | memRead off size =>
    simp only [fetchHost, hostRead, hread]
    split
    · exact .settled (.refused _)
    · exact .settled (.next ⟨rfl, hm⟩)
  | push tok => exact .settled (.next ⟨rfl, hm⟩)
  | pop =>
    simp only [fetchHost]
    split
    · exact .settled (.refused _)
    · exact .settled (.next ⟨rfl, hm⟩)
  | discard =>
    simp only [fetchHost]
    split
    · exact .settled (.refused _)
    · exact .settled (.next ⟨rfl, hm⟩)
  | powerOn => exact .settled (.next (sameButStale_of_fresh (Nat.zero_le _)))

theorem fetch_alike (hs : s.mem.wf = true) (ht : t.mem.wf = true) (h : SameButStale s t) :
    FetchedAlike (fetch s) (fetch t) := by
  obtain ⟨m, rfl, hm⟩ := h.exists_ram
  simp only [fetch]
  split
  · exact fetchEngine_alike hs ht h
  · exact fetchEngine_alike hs ht ⟨rfl, hm⟩
  · exact fetchHost_alike _ ⟨rfl, hm⟩

theorem step_alike (hs : s.mem.wf = true) (ht : t.mem.wf = true) (h : SameButStale s t) :
    ResultAlike (step s) (step t) := by
  have hfetch := fetch_alike hs ht h
  unfold step
  generalize fetch s = x, fetch t = y at hfetch
  cases hfetch with
  | settled hr => exact hr
  | instr i h' => exact exec_alike i h'

end

/-- Settles O53: the engine reads the RAM through `seq`, `first` and `DictFind` alone, which look at the learned codes of the
epoch only, and every operation that changes `B` or `N` leaves slots that both RAMs hold alike. -/
theorem staleSlotsNeverRead : Obligations.StaleSlotsNeverRead := by
  unfold Obligations.StaleSlotsNeverRead
  intro s t hs ht h
  have hstep := step_alike hs ht h
  generalize step s = x, step t = y at hstep
  cases hstep with
  | next h' => exact .inl ⟨_, _, rfl, rfl, h'⟩
  | fault f => exact .inr (.inl ⟨f, rfl, rfl⟩)
  | refused r => exact .inr (.inr ⟨r, rfl, rfl⟩)

/-! ## The unpacker's reads (R113, R114, R103, R181) -/

/-- Settles O21: both parts are what `ReadBits` makes of the stream ahead, by `deframe` and by `arriving`. -/
theorem readBitsTakesNextBits : Obligations.ReadBitsTakesNextBits := by
  unfold Obligations.ReadBitsTakesNextBits
  intro s w
  refine ⟨fun bs h => ?_, fun p c hp ha => readBits_arriving hp ha⟩
  obtain ⟨henough, hfew⟩ := readBits_ahead (w := w) h
  refine ⟨fun hw => ?_, fun hw => ?_⟩
  · obtain ⟨t, hread, hahead, -, hsame⟩ := henough hw
    obtain ⟨-, -, hrcur, -⟩ := readBits_ok hread
    exact ⟨t, hread, hahead, hrcur, hsame⟩
  · obtain ⟨t, hread, hpend, hahead, -, hsame⟩ := hfew hw
    exact ⟨t, hread, hpend, hahead, hsame⟩

/-! ## The end marker (R60, R185, R213) -/

section
variable {s t u : State}

/-- `t`'s output is `s`'s and bytes behind it. -/
def AppendsBytes (s t : State) : Prop := ∃ out : List Byte, t.outq = s.outq ++ out.map OutItem.byte

theorem AppendsBytes.of_eq (h : t.outq = s.outq) : AppendsBytes s t := ⟨[], by simp [h]⟩

theorem AppendsBytes.trans (h1 : AppendsBytes s t) (h2 : AppendsBytes t u) : AppendsBytes s u := by
  obtain ⟨a, ha⟩ := h1
  obtain ⟨b, hb⟩ := h2
  exact ⟨a ++ b, by rw [hb, ha, List.map_append, List.append_assoc]⟩

theorem Wrote.appends {bits : List Bool} (h : Wrote bits s t) : AppendsBytes s t := by
  obtain ⟨cs, -, hout, -⟩ := h.stream
  exact ⟨_, hout⟩

theorem flush_appends (s : State) : AppendsBytes s (flush s) := by
  unfold flush
  split
  · exact (writeBitList_wrote _ s).appends
  · exact .of_eq rfl

theorem frameEnd_appends (s : State) : AppendsBytes s (frameEnd s) := ⟨_, congrArg State.outq (frameEnd_eq s)⟩

theorem encodeFinish_appends (s : State) : AppendsBytes s (encodeFinish s) := by
  have hcand : AppendsBytes s (finalCandidate s) := by
    unfold finalCandidate
    split
    · exact (writeBits_wrote _ _ s).appends
    · exact .of_eq rfl
  have hgrow : AppendsBytes (finalCandidate s) (finalGrowth (finalCandidate s)) := .of_eq (by simp)
  exact ((hcand.trans hgrow).trans (writeBits_wrote _ _ _).appends).trans (flush_appends _)

theorem encodeIndex_appends {x : Byte} (h : encodeIndex x s = .next t) : AppendsBytes s t := by
  unfold encodeIndex at h
  split at h
  · cases h
    exact .of_eq (by simp)
  split at h
  · cases h
    exact .of_eq rfl
  split at h
  · cases h
    exact .of_eq rfl
  split at h
  · unfold encMiss at h
    split at h
    · cases h
    · cases h
      exact (writeBits_wrote s.cand.toNat s.w.toNat s).appends.trans (.of_eq (by simp))
  · cases h
    exact ((writeBits_wrote _ _ s).appends.trans (writeBits_wrote _ _ _).appends).trans (.of_eq rfl)

theorem addAfterPrevious_some {f : Byte} (h : addAfterPrevious f s = some t) :
    ∃ g, t = decoderGrowth (dictAdd s.prev f g s) := by
  unfold addAfterPrevious at h
  split at h
  · cases h
  · exact ⟨_, (Option.some.inj h).symm⟩

theorem knownEntry_appends {c : Code} (h : knownEntry c s = .next t) : AppendsBytes s t := by
  unfold knownEntry at h
  split at h
  · cases h
    exact .of_eq (by simp)
  split at h
  · rename_i q f _ _
    split at h
    · split at h
      · cases h
      · rename_i hadd
        cases h
        obtain ⟨g, rfl⟩ := addAfterPrevious_some hadd
        exact ⟨q, by simp⟩
    · cases h
      exact ⟨q, rfl⟩
  · cases h

theorem notYetMaterialised_appends {c : Code} (h : notYetMaterialised c s = .next t) : AppendsBytes s t := by
  unfold notYetMaterialised at h
  split at h
  · cases h
  split at h
  · rename_i q f _ _
    cases h
    exact ⟨q ++ [f], by simp⟩
  · cases h

/-- A code outputs bytes only. -/
theorem exec_code_appends {c : Code} {b n jr} {i : Instr} (hi : decodeCode b n jr c = .instr i)
    (h : exec i s = .next t) : AppendsBytes s t := by
  obtain ⟨-, hc⟩ := decodeCode_cases hi
  rcases hc with ⟨-, hr⟩ | ⟨-, hr⟩ | ⟨hlt, hr⟩ | ⟨-, -, rfl⟩ | ⟨-, -, -, rfl⟩ | ⟨-, -, -, rfl⟩ | ⟨-, -, rfl⟩
  · rw [exec_clearRow hr] at h
    cases h
    exact .of_eq rfl
  · rw [exec_eoiRow hr] at h
    cases h
    exact .of_eq rfl
  · rw [exec_literalRow hr hlt] at h
    exact knownEntry_appends h
  · exact knownEntry_appends h
  · exact notYetMaterialised_appends h
  · cases h
    exact .of_eq (by simp)
  · cases h
    exact .of_eq (by simp)

/-- What an engine step does to the output port: it ends the operation well with the end marker behind its bytes, or it
outputs bytes only and does not end it well. -/
def EndsWellOrAppends (s t : State) : Prop :=
  (t.phase = .done ∧ ∃ u, AppendsBytes s u ∧ t.outq = u.outq ++ [.endMark]) ∨ (t.phase ≠ .done ∧ AppendsBytes s t)

theorem EndsWellOrAppends.appends (hp : t.phase ≠ .done) (h : AppendsBytes s t) : EndsWellOrAppends s t := .inr ⟨hp, h⟩

theorem raise_phase_ne_done (c : ErrCode) (i : BitVec 16) (h : s.phase ≠ .done) : (raise c i s).phase ≠ .done := by
  unfold raise
  split
  · exact h
  · simp

/-- Raising a fault ends no operation well and outputs nothing. -/
theorem raise_appends (c : ErrCode) (i : BitVec 16) (hp : t.phase ≠ .done) (h : t.outq = s.outq) :
    EndsWellOrAppends s (raise c i t) :=
  .appends (raise_phase_ne_done c i hp) (.of_eq (by simp [h]))

theorem encIndexStep_output (hp : s.phase = .run) (ho : s.opk = .encIndex) (h : encIndexStep s = .next t) :
    EndsWellOrAppends s t := by
  unfold encIndexStep at h
  split at h
  · cases h
    exact .appends (by simp [hp]) (.of_eq rfl)
  · cases h
    exact .appends (by simp [hp]) (.of_eq rfl)
  · rename_i i q _
    obtain ⟨-, hstage⟩ := encodeIndex_stage (s := { s with inq := q }) hp ho h
    have hout := encodeIndex_appends h
    refine .appends ?_ hout
    rcases hstage with ⟨hrun, -⟩ | hfault
    · simp [hrun]
    · simp [hfault]

theorem encFinishStep_output (h : encFinishStep s = .next t) : EndsWellOrAppends s t := by
  cases h
  exact .inl ⟨rfl, _, (encodeFinish_appends s).trans (frameEnd_appends _), rfl⟩

theorem execWidthByte_output {v : Byte} (hp : s.phase = .run) (h : execWidthByte v s = .next t) :
    EndsWellOrAppends s t := by
  unfold execWidthByte at h
  split at h
  · cases h
    exact raise_appends _ _ (by simp [hp]) rfl
  · cases h
    exact .appends (by simp [hp]) (.of_eq rfl)

/-- What depends on the output port's content before the step only. -/
theorem EndsWellOrAppends.of_eq (h : u.outq = s.outq) (ht : EndsWellOrAppends u t) : EndsWellOrAppends s t := by
  rcases ht with ⟨hp, v, hv, ht⟩ | ⟨hp, ht⟩
  · exact .inl ⟨hp, v, (AppendsBytes.of_eq h).trans hv, ht⟩
  · exact .inr ⟨hp, (AppendsBytes.of_eq h).trans ht⟩

theorem endDrain_output (s : State) : EndsWellOrAppends s (endDrain s) := by
  unfold endDrain
  split
  case h_1 => exact .inl ⟨rfl, s, .of_eq rfl, rfl⟩
  case h_2 p hheld =>
    refine .appends ?_ (.of_eq (by simp))
    simp [finishFault, hheld]

theorem drainStep_output (hp : s.phase = .run) : EndsWellOrAppends s (drainStep s) := by
  unfold drainStep
  split
  case h_1 => exact .appends (by simp [hp]) (.of_eq rfl)
  case h_2 s' hget =>
    obtain ⟨u, htook, -, -, rfl⟩ := frameGet_raised hget
    exact raise_appends _ _ (by simp [htook.fields, hp]) (by simp [htook.fields])
  case h_3 s' hget => exact .of_eq (by simp [(frameGet_took hget).fields]) (endDrain_output s')
  case h_4 v s' hget =>
    have htook := frameGet_took hget
    exact .appends (by simp [htook.fields, hp]) (.of_eq (by simp [htook.fields]))

/-- What a step that was fetched so answers. -/
def Fetched.answer : Fetched → Result
  | .settled r => r
  | .instr i s => exec i s

theorem step_eq_answer (h : s.engineTurn) : step s = (fetchEngine s.afterTurn).answer := engine_step h

theorem fetchWidth_output (hp : s.phase = .run) (h : (fetchWidth s).answer = .next t) : EndsWellOrAppends s t := by
  unfold fetchWidth at h
  split at h
  · cases h
    exact .appends (by simp [hp]) (.of_eq rfl)
  · cases h
    exact raise_appends _ _ (by simp [hp]) rfl
  · rename_i v q _
    exact .of_eq rfl (execWidthByte_output (s := { s with inq := q }) hp h)

theorem fetchCode_output (hp : s.phase = .run) (ho : s.opk = .decCodes) (h : (fetchCode s).answer = .next t) :
    EndsWellOrAppends s t := by
  unfold fetchCode at h
  split at h
  case h_1 =>
    cases h
    exact .appends (by simp [hp]) (.of_eq rfl)
  case h_2 s' hread =>
    cases h
    obtain ⟨u, htook, -, hraise⟩ := readBits_raised hread
    rcases hraise with rfl | ⟨-, rfl⟩
    all_goals exact raise_appends _ _ (by simp [htook.fields, hp]) (by simp [htook.fields])
  case h_3 c s' hread =>
    obtain ⟨htook, -⟩ := readBits_ok hread
    cases hdec : decode s'.codeContext (.code (BitVec.ofNat 12 c)) with
    | rejected r =>
      rw [hdec] at h
      cases h
    | instr i =>
      rw [hdec] at h
      obtain ⟨hrun, -⟩ := exec_code_stage (by simp [htook.fields, hp]) (by simp [htook.fields, ho]) hdec h
      exact .of_eq (by simp [htook.fields]) (.appends (by simp [hrun]) (exec_code_appends hdec h))

theorem fetchEngine_output (hp : s.phase = .run) (h : (fetchEngine s).answer = .next t) : EndsWellOrAppends s t := by
  unfold fetchEngine at h
  rw [hp] at h
  cases ho : s.opk with
  | encIndex => exact encIndexStep_output hp ho (by rwa [ho] at h)
  | encFinish => exact encFinishStep_output (by rwa [ho] at h)
  | decWidth => exact fetchWidth_output hp (by rwa [ho] at h)
  | decCodes => exact fetchCode_output hp ho (by rwa [ho] at h)
  | decDrain =>
    rw [ho] at h
    cases h
    exact drainStep_output hp

end

/-- Settles O34: by the running operation's stage, every step ends the operation well or outputs bytes only. -/
theorem endMarkOnlyOnDone : Obligations.EndMarkOnlyOnDone := by
  unfold Obligations.EndMarkOnlyOnDone
  intro s t hturn hp h
  rw [step_eq_answer hturn] at h
  have hout : EndsWellOrAppends s t := .of_eq rfl (fetchEngine_output (s := s.afterTurn) hp h)
  rcases hout with ⟨hdone, u, ⟨out, hu⟩, ht⟩ | ⟨hrun, out, ht⟩
  · exact ⟨out, fun _ => by rw [ht, hu], fun hne => absurd hdone hne⟩
  · exact ⟨out, fun hd => absurd hd hrun, fun _ => ht⟩

/-! ## The host's steps (R56, R57, R192) -/

/-- R56: an access of another width or alignment is not admitted. -/
theorem accessOk_of_bad {off size : Nat} (h : size ≠ 4 ∨ off % 4 ≠ 0) : accessOk off size = false := by
  rcases h with h | h <;> simp [accessOk, h]

/-- Settles O39: the access is turned away before its offset is looked at. -/
theorem badAccessRefused : Obligations.BadAccessRefused := by
  unfold Obligations.BadAccessRefused
  intro s off size v rest hbad
  have hno := accessOk_of_bad hbad
  refine ⟨fun h => ?_, fun h => ?_⟩
  all_goals
    rw [host_step h]
    simp [fetchHost, hno]

theorem step_memRead {s : State} {off : Nat} {rest : List Turn} (hm : off % 4 = 0) (hle : off ≤ 0xFC)
    (h : s.agenda = .host (.memRead off 4) :: rest) : step s = .next (hostRead off { s with agenda := rest }) := by
  have hok : accessOk off 4 = true := by simp [accessOk, hm, hle]
  rw [host_step h]
  simp [fetchHost, hok]

/-- What a register reads does not depend on the turns to come. -/
theorem readRegister_agenda (off : Nat) (s : State) (rest : List Turn) :
    readRegister off { s with agenda := rest } = readRegister off s := rfl

/-- Settles O40: each host step whose precondition holds is its one update. -/
theorem hostSteps : Obligations.HostSteps := by
  unfold Obligations.HostSteps
  intro s rest
  refine ⟨fun tok h => ?_, fun x q h hq => ?_, fun h hp => ?_, fun off hm hle h => ?_⟩
  · rw [host_step h]
    rfl
  · rw [host_step h]
    simp [fetchHost, hq]
  · rw [host_step h]
    simp [fetchHost, hp]
  · rw [step_memRead hm hle h, hostRead, readRegister_agenda]

end Sys2Proof.Machine
end

section
/-! The family of the encodings (30_encoding.md): decoder and encoder agree, the classes and masks of a code, what the width
byte and the length bytes do, and an ENCODE from its command to its end. -/

namespace Sys2Proof.Machine

/-! ## The decoder, by the class of the code (R76) -/

section
variable {b : BitVec 4} {n : BitVec 13} {jr : Bool} {c : Code} {i : Instr} {ctx : Context} {k : Nat}

theorem baseWidthOk_iff : baseWidthOk b = true ↔ 2 ≤ b.toNat ∧ b.toNat ≤ 8 := by simp [baseWidthOk]

theorem decodeCode_clear (hb : baseWidthOk b = true) (hc : c.toNat = 2 ^ b.toNat) :
    decodeCode b n jr c = ofRow (clearRow b.toNat) := by
  simp [decodeCode, hb, hc]

theorem decodeCode_eoi (hb : baseWidthOk b = true) (hc : c.toNat = 2 ^ b.toNat + 1) :
    decodeCode b n jr c = ofRow (eoiRow b.toNat) := by
  simp [decodeCode, hb, hc]

theorem decodeCode_literal (hb : baseWidthOk b = true) (hc : c.toNat < 2 ^ b.toNat) :
    decodeCode b n jr c = ofRow (literalRow c b.toNat) := by
  have hne : c.toNat ≠ 2 ^ b.toNat ∧ c.toNat ≠ 2 ^ b.toNat + 1 := by omega
  simp [decodeCode, hb, hc, hne]

/-- From `S0` up a code is compared with `N` (R76). -/
theorem decodeCode_from_firstLearned (hb : baseWidthOk b = true) (hc : 2 ^ b.toNat + 2 ≤ c.toNat) :
    decodeCode b n jr c =
      if c.toNat < n.toNat then .instr (.learned c)
      else if c.toNat = n.toNat then if jr then .instr (.kwkwkAfterReset c) else .instr (.kwkwk c)
      else .instr (.invalid c) := by
  have hne : c.toNat ≠ 2 ^ b.toNat ∧ c.toNat ≠ 2 ^ b.toNat + 1 ∧ ¬ c.toNat < 2 ^ b.toNat := by omega
  simp [decodeCode, hb, hne]

/-! ## The rows of a base width, in their context -/

theorem hasBase_iff : ctx.hasBase k = true ↔ ∃ b n jr, ctx = .code b n jr ∧ b.toNat = k := by
  cases ctx <;> simp [Context.hasBase]

theorem clearRow_base (h : clearRow k = some i) : 2 ≤ k ∧ k ≤ 8 := by
  unfold clearRow at h
  split at h <;> simp at h ⊢

theorem eoiRow_base (h : eoiRow k = some i) : 2 ≤ k ∧ k ≤ 8 := by
  unfold eoiRow at h
  split at h <;> simp at h ⊢

theorem literalRow_base (h : literalRow c k = some i) : 2 ≤ k ∧ k ≤ 8 := by
  unfold literalRow at h
  split at h <;> simp at h ⊢

theorem decode_clearRow (hctx : ctx.hasBase k = true) (hrow : clearRow k = some i) (hc : c.toNat = 2 ^ k) :
    decode ctx (.code c) = .instr i := by
  obtain ⟨b, n, jr, rfl, rfl⟩ := hasBase_iff.mp hctx
  exact (decodeCode_clear (baseWidthOk_iff.mpr (clearRow_base hrow)) hc).trans (congrArg ofRow hrow)

theorem decode_eoiRow (hctx : ctx.hasBase k = true) (hrow : eoiRow k = some i) (hc : c.toNat = 2 ^ k + 1) :
    decode ctx (.code c) = .instr i := by
  obtain ⟨b, n, jr, rfl, rfl⟩ := hasBase_iff.mp hctx
  exact (decodeCode_eoi (baseWidthOk_iff.mpr (eoiRow_base hrow)) hc).trans (congrArg ofRow hrow)

/-- A literal's index comes back from the low bits of its code (R145). -/
theorem decode_literalRow {row : BitVec k → Instr} (hctx : ctx.hasBase k = true)
    (hrow : ∀ c, literalRow c k = some (row (c.extractLsb' 0 k))) (x : BitVec k) :
    decode ctx (.code (x.setWidth 12)) = .instr (row x) := by
  obtain ⟨b, n, jr, rfl, rfl⟩ := hasBase_iff.mp hctx
  have hbase := literalRow_base (hrow (x.setWidth 12))
  obtain ⟨hx, hlt⟩ := literal_toNat hbase.2 x
  have hlow : (x.setWidth 12).extractLsb' 0 b.toNat = x := by
    apply BitVec.eq_of_toNat_eq
    rw [BitVec.extractLsb'_toNat, Nat.shiftRight_zero, hx, Nat.mod_eq_of_lt hlt]
  have hdec := decodeCode_literal (n := n) (jr := jr) (baseWidthOk_iff.mpr hbase) (hx ▸ hlt)
  rw [hrow, hlow] at hdec
  exact hdec

/-! ## Commands (R31, R74) -/

/-- The two fields of a command word, `OP` and the ignored bits. -/
theorem command_fields (ignored : BitVec 30) (op : BitVec 2) :
    (ignored ++ op).extractLsb' 2 30 = ignored ∧ (ignored ++ op).extractLsb' 0 2 = op :=
  ⟨BitVec.extractLsb'_append_eq_left, BitVec.extractLsb'_append_eq_right⟩

theorem decodeCommand_ack (ignored : BitVec 30) : decodeCommand (ignored ++ 0#2) = .cmdAck ignored := by
  simp [decodeCommand, command_fields]

theorem decodeCommand_encode (ignored : BitVec 30) : decodeCommand (ignored ++ 1#2) = .cmdEncode ignored := by
  simp [decodeCommand, command_fields]

theorem decodeCommand_decode (ignored : BitVec 30) : decodeCommand (ignored ++ 2#2) = .cmdDecode ignored := by
  simp [decodeCommand, command_fields]

theorem decodeCommand_reserved (ignored : BitVec 30) : decodeCommand (ignored ++ 3#2) = .cmdReserved ignored := by
  simp [decodeCommand, command_fields]

end

/-- Settles O2: by the instruction. The rows of a base width are read by the code's place among Clear, EOI and the literals,
the four others by comparing the code with `N`. -/
theorem decodeEncodeAgree : Obligations.DecodeEncodeAgree := by
  unfold Obligations.DecodeEncodeAgree
  intro ctx i hwf hctx
  cases i with
  | cmdAck ignored => rw [eq_of_beq hctx]; exact congrArg Decoded.instr (decodeCommand_ack ignored)
  | cmdEncode ignored => rw [eq_of_beq hctx]; exact congrArg Decoded.instr (decodeCommand_encode ignored)
  | cmdDecode ignored => rw [eq_of_beq hctx]; exact congrArg Decoded.instr (decodeCommand_decode ignored)
  | cmdReserved ignored => rw [eq_of_beq hctx]; exact congrArg Decoded.instr (decodeCommand_reserved ignored)
  | widthByte v => rw [eq_of_beq hctx]; rfl
  | subblockTerm => rw [eq_of_beq hctx]; rfl
  | subblockLen len =>
    rw [eq_of_beq hctx]
    exact congrArg Decoded.instr (if_neg (by simpa [Instr.wellFormed] using hwf))
  | clear2 => exact decode_clearRow hctx rfl rfl
  | clear3 => exact decode_clearRow hctx rfl rfl
  | clear4 => exact decode_clearRow hctx rfl rfl
  | clear5 => exact decode_clearRow hctx rfl rfl
  | clear6 => exact decode_clearRow hctx rfl rfl
  | clear7 => exact decode_clearRow hctx rfl rfl
  | clear8 => exact decode_clearRow hctx rfl rfl
  | eoi2 => exact decode_eoiRow hctx rfl rfl
  | eoi3 => exact decode_eoiRow hctx rfl rfl
  | eoi4 => exact decode_eoiRow hctx rfl rfl
  | eoi5 => exact decode_eoiRow hctx rfl rfl
  | eoi6 => exact decode_eoiRow hctx rfl rfl
  | eoi7 => exact decode_eoiRow hctx rfl rfl
  | eoi8 => exact decode_eoiRow hctx rfl rfl
  | literal2 x => exact decode_literalRow hctx (fun _ => rfl) x
  | literal3 x => exact decode_literalRow hctx (fun _ => rfl) x
  | literal4 x => exact decode_literalRow hctx (fun _ => rfl) x
  | literal5 x => exact decode_literalRow hctx (fun _ => rfl) x
  | literal6 x => exact decode_literalRow hctx (fun _ => rfl) x
  | literal7 x => exact decode_literalRow hctx (fun _ => rfl) x
  | literal8 x => exact decode_literalRow hctx (fun _ => rfl) x
  | learned c =>
    cases ctx <;> simp [Instr.condition] at hctx
    obtain ⟨⟨hb, hge⟩, hlt⟩ := hctx
    exact (decodeCode_from_firstLearned hb hge).trans (by simp [hlt])
  | kwkwk c =>
    cases ctx <;> simp [Instr.condition] at hctx
    obtain ⟨⟨⟨hb, hge⟩, heq⟩, hjr⟩ := hctx
    exact (decodeCode_from_firstLearned hb hge).trans (by simp [heq, hjr])
  | kwkwkAfterReset c =>
    cases ctx <;> simp [Instr.condition] at hctx
    obtain ⟨⟨⟨hb, hge⟩, heq⟩, hjr⟩ := hctx
    exact (decodeCode_from_firstLearned hb hge).trans (by simp [heq, hjr])
  | invalid c =>
    cases ctx <;> simp [Instr.condition] at hctx
    obtain ⟨⟨hb, hge⟩, hgt⟩ := hctx
    exact (decodeCode_from_firstLearned hb hge).trans (by simp [Nat.not_lt_of_gt hgt, Nat.ne_of_gt hgt])

/-! ## What a word decodes to -/

section
variable {b : BitVec 4} {n : BitVec 13} {jr : Bool} {c : Code} {i : Instr} {k : Nat}

/-- An instruction of a row of base width `k`: well formed, read at that base width and nowhere else, the code `v` its word. -/
def IsRow (k v : Nat) (i : Instr) : Prop :=
  i.wellFormed = true ∧ (∀ ctx : Context, i.condition ctx = ctx.hasBase k) ∧ encode i = .code (BitVec.ofNat 12 v)

theorem clearRow_isRow (h : clearRow k = some i) : IsRow k (2 ^ k) i := by
  unfold clearRow at h
  split at h <;> cases h <;> exact ⟨rfl, fun _ => rfl, rfl⟩

theorem eoiRow_isRow (h : eoiRow k = some i) : IsRow k (2 ^ k + 1) i := by
  unfold eoiRow at h
  split at h <;> cases h <;> exact ⟨rfl, fun _ => rfl, rfl⟩

theorem literalRow_isRow (h : literalRow c k = some i) (hc : c.toNat < 2 ^ k) : IsRow k c.toNat i := by
  have hword : WireWord.code ((c.extractLsb' 0 k).setWidth 12) = .code (BitVec.ofNat 12 c.toNat) := by
    rw [setWidth_extract hc, BitVec.ofNat_toNat, BitVec.setWidth_eq]
  unfold literalRow at h
  split at h <;> cases h <;> exact ⟨rfl, fun _ => rfl, hword⟩

theorem IsRow.agree {v : Nat} (h : IsRow b.toNat v i) (hc : c.toNat = v) :
    i.wellFormed = true ∧ i.condition (.code b n jr) = true ∧ encode i = .code c := by
  obtain ⟨hwf, hcond, henc⟩ := h
  refine ⟨hwf, (hcond _).trans (by simp [Context.hasBase]), ?_⟩
  rw [henc, ← hc, BitVec.ofNat_toNat, BitVec.setWidth_eq]

theorem decodeCode_agrees (h : decodeCode b n jr c = .instr i) :
    i.wellFormed = true ∧ i.condition (.code b n jr) = true ∧ encode i = .code c := by
  obtain ⟨⟨h2, h8⟩, hcase⟩ := decodeCode_cases h
  have hok := baseWidthOk_iff.mpr ⟨h2, h8⟩
  have hpow : 2 ^ 2 ≤ 2 ^ b.toNat := Nat.pow_le_pow_right (by omega) h2
  rcases hcase with ⟨hc, hr⟩ | ⟨hc, hr⟩ | ⟨hc, hr⟩ | ⟨hge, hc, rfl⟩ | ⟨hge, hc, hj, rfl⟩ | ⟨hge, hc, hj, rfl⟩ |
    ⟨hge, hc, rfl⟩
  · exact (clearRow_isRow hr).agree hc
  · exact (eoiRow_isRow hr).agree hc
  · exact (literalRow_isRow hr hc).agree rfl
  all_goals refine ⟨decide_eq_true (show 6 ≤ c.toNat by omega), ?_, rfl⟩
  · simp [Instr.condition, hok, hge, hc]
  · simp [Instr.condition, hok, hj, hc, hc ▸ hge]
  · simp [Instr.condition, hok, hj, hc, hc ▸ hge]
  · simp [Instr.condition, hok, hge, hc]

theorem decodeCommand_agrees (v : HostWord) : (decodeCommand v).wellFormed = true ∧
    (decodeCommand v).condition .ctrl = true ∧ encode (decodeCommand v) = .cmd v := by
  obtain ⟨ignored, op, rfl⟩ : ∃ (ignored : BitVec 30) (op : BitVec 2), v = ignored ++ op :=
    ⟨v.extractLsb' (0 + 2) 30, v.extractLsb' 0 2, by
      rw [BitVec.extractLsb'_append_extractLsb'_eq_extractLsb' rfl, BitVec.extractLsb'_eq_self]⟩
  have hop : op = 0#2 ∨ op = 1#2 ∨ op = 2#2 ∨ op = 3#2 := by revert op; decide
  rcases hop with rfl | rfl | rfl | rfl
  · rw [decodeCommand_ack]; exact ⟨rfl, rfl, rfl⟩
  · rw [decodeCommand_encode]; exact ⟨rfl, rfl, rfl⟩
  · rw [decodeCommand_decode]; exact ⟨rfl, rfl, rfl⟩
  · rw [decodeCommand_reserved]; exact ⟨rfl, rfl, rfl⟩

theorem decodeLength_agrees (v : Byte) : (decodeLength v).wellFormed = true ∧
    (decodeLength v).condition .len = true ∧ encode (decodeLength v) = .byte v := by
  by_cases h : v = 0
  · subst h; exact ⟨rfl, rfl, rfl⟩
  · rw [decodeLength, if_neg h]; exact ⟨by simpa [Instr.wellFormed] using h, rfl, rfl⟩

end

/-- Settles O3: by the format that the context reads. -/
theorem encodeDecodeAgree : Obligations.EncodeDecodeAgree := by
  unfold Obligations.EncodeDecodeAgree
  intro ctx w i h
  cases ctx <;> cases w <;> simp only [decode, reduceCtorEq, Decoded.instr.injEq] at h
  case ctrl.cmd v => subst h; exact decodeCommand_agrees v
  case width.byte v => subst h; exact ⟨rfl, rfl, rfl⟩
  case len.byte v => subst h; exact decodeLength_agrees v
  case code.code b n jr c => exact decodeCode_agrees h

/-! ## Classes and masks (R76, R83) -/

/-- The base width in the row of a class, where the class has a row for each base width (R83). -/
def CodeClass.rowBase (b : Nat) : CodeClass → Option Nat
  | .clear => some b
  | .eoi => some b
  | .literal => some b
  | .learned => none
  | .kwkwk => none
  | .kwkwkAfterReset => none
  | .invalid => none

section
variable {b : BitVec 4} {n : BitVec 13} {jr : Bool} {c : Code} {i : Instr} {k : Nat}

theorem clearRow_codeClass (h : clearRow k = some i) : i.codeClass = some (.clear, some k) := by
  obtain ⟨h2, h8⟩ := clearRow_base h
  obtain ⟨j, hj, hclass⟩ := clearRow_class h2 h8
  exact Option.some.inj (hj.symm.trans h) ▸ hclass

theorem eoiRow_codeClass (h : eoiRow k = some i) : i.codeClass = some (.eoi, some k) := by
  obtain ⟨h2, h8⟩ := eoiRow_base h
  obtain ⟨j, hj, hclass⟩ := eoiRow_class h2 h8
  exact Option.some.inj (hj.symm.trans h) ▸ hclass

theorem literalRow_codeClass (h : literalRow c k = some i) : i.codeClass = some (.literal, some k) := by
  obtain ⟨h2, h8⟩ := literalRow_base h
  obtain ⟨j, hj, hclass⟩ := literalRow_class c h2 h8
  exact Option.some.inj (hj.symm.trans h) ▸ hclass

/-- The decoded instruction is in a row of the code's class, the one of the base width where there is one. -/
theorem decodeCode_codeClass (h : decodeCode b n jr c = .instr i) :
    i.codeClass = some (codeClassAt b.toNat n.toNat jr c.toNat,
      (codeClassAt b.toNat n.toNat jr c.toNat).rowBase b.toNat) := by
  obtain ⟨-, hcase⟩ := decodeCode_cases h
  rcases hcase with ⟨hc, hr⟩ | ⟨hc, hr⟩ | ⟨hc, hr⟩ | ⟨hge, hc, rfl⟩ | ⟨hge, hc, hj, rfl⟩ | ⟨hge, hc, hj, rfl⟩ |
    ⟨hge, hc, rfl⟩
  · have hclass : codeClassAt b.toNat n.toNat jr c.toNat = .clear := if_pos hc
    rw [hclass, clearRow_codeClass hr]; rfl
  · have hclass : codeClassAt b.toNat n.toNat jr c.toNat = .eoi := by simp [codeClassAt, hc]
    rw [hclass, eoiRow_codeClass hr]; rfl
  · have hclass : codeClassAt b.toNat n.toNat jr c.toNat = .literal := by
      rw [codeClassAt, if_neg (by omega), if_neg (by omega), if_pos hc]
    rw [hclass, literalRow_codeClass hr]; rfl
  all_goals
    rw [codeClassAt, if_neg (by omega), if_neg (by omega), if_neg (by omega)]
  · rw [if_pos hc]; rfl
  · rw [if_neg (by omega), if_pos hc, hj]; rfl
  · rw [if_neg (by omega), if_pos hc, hj]; rfl
  · rw [if_neg (by omega), if_neg (by omega)]; rfl

/-- A code is in the row of a class at the base width exactly when it has that class. -/
theorem in_row_iff {cls : CodeClass} (h2 : 2 ≤ b.toNat) (h8 : b.toNat ≤ 8) (hcls : cls.rowBase b.toNat = some b.toNat) :
    (∃ i, decode (.code b n jr) (.code c) = .instr i ∧ i.codeClass = some (cls, some b.toNat)) ↔
      codeClassAt b.toNat n.toNat jr c.toNat = cls := by
  constructor
  · rintro ⟨i, hdec, hi⟩
    rw [decodeCode_codeClass hdec] at hi
    exact congrArg Prod.fst (Option.some.inj hi)
  · intro h
    obtain ⟨i, hdec⟩ := decodeCode_total (n := n) (jr := jr) (c := c) h2 h8
    exact ⟨i, hdec, by rw [decodeCode_codeClass hdec, h, hcls]⟩

theorem codeClassAt_clear_iff {b n c : Nat} : codeClassAt b n jr c = .clear ↔ c = 2 ^ b := by
  unfold codeClassAt
  split_ifs <;> simp_all

theorem codeClassAt_eoi_iff {b n c : Nat} : codeClassAt b n jr c = .eoi ↔ c = 2 ^ b + 1 := by
  unfold codeClassAt
  split_ifs <;> simp_all

theorem codeClassAt_literal_iff {b n c : Nat} : codeClassAt b n jr c = .literal ↔ c < 2 ^ b := by
  unfold codeClassAt
  split_ifs <;> simp_all

/-- Under the full mask a code matches itself only. -/
theorem and_full_mask_eq_iff {v : Nat} (hv : v < 4096) : c &&& 0xFFF#12 = BitVec.ofNat 12 v ↔ c.toNat = v := by
  rw [show (0xFFF#12 : Code) = BitVec.allOnes 12 from rfl, BitVec.and_allOnes, ← BitVec.toNat_inj, BitVec.toNat_ofNat,
    Nat.mod_eq_of_lt hv]

/-- Above its low `k` bits a code is kept by the mask of the bits from `k` up. -/
theorem and_high_mask_div (hk : k ≤ 12) : (c.toNat &&& (2 ^ 12 - 2 ^ k)) / 2 ^ k = c.toNat / 2 ^ k := by
  have hsplit : 2 ^ 12 = 2 ^ (12 - k) * 2 ^ k := by rw [← Nat.pow_add, Nat.sub_add_cancel hk]
  have hmask : (2 ^ 12 - 2 ^ k) / 2 ^ k = 2 ^ (12 - k) - 1 := by
    rw [hsplit, ← Nat.sub_one_mul, Nat.mul_div_cancel _ (Nat.two_pow_pos k)]
  have hlt : c.toNat / 2 ^ k < 2 ^ (12 - k) := Nat.div_lt_of_lt_mul (by rw [Nat.mul_comm, ← hsplit]; exact c.isLt)
  rw [Nat.and_div_two_pow, hmask, Nat.and_two_pow_sub_one_eq_mod, Nat.mod_eq_of_lt hlt]

/-- Under the mask of the bits from `k` up, the codes below `2^k` match 0. -/
theorem and_high_mask_eq_zero_iff (hk : k ≤ 12) : c &&& BitVec.ofNat 12 (2 ^ 12 - 2 ^ k) = 0#12 ↔ c.toNat < 2 ^ k := by
  have hpos := Nat.two_pow_pos k
  have hval : (BitVec.ofNat 12 (2 ^ 12 - 2 ^ k)).toNat = 2 ^ 12 - 2 ^ k := Nat.mod_eq_of_lt (by omega)
  rw [← BitVec.toNat_inj, BitVec.toNat_and, hval, BitVec.toNat_zero]
  constructor
  · intro h
    have hdiv := and_high_mask_div (c := c) hk
    rw [h, Nat.zero_div] at hdiv
    exact Nat.lt_of_div_eq_zero hpos hdiv.symm
  · intro h
    have hlow := Laws.TableRow.low_bits (c.extractLsb' 0 k) hk
    rwa [setWidth_extract h] at hlow

end

/-- Settles O4: the decoder is total, and its answer's row is that of the class. -/
theorem codeClassesInOrder : Obligations.CodeClassesInOrder := by
  unfold Obligations.CodeClassesInOrder
  intro b n jr c h2 h8
  obtain ⟨i, hdec⟩ := decodeCode_total (n := n) (jr := jr) (c := c) h2 h8
  refine ⟨i, hdec, ?_⟩
  rw [decodeCode_codeClass hdec]
  cases codeClassAt b.toNat n.toNat jr c.toNat <;> simp [CodeClass.rowBase]

/-- Settles O5: each row of a base width is a class, each class a range of codes, each range a mask and a match. -/
theorem tableMasksMatch : Obligations.TableMasksMatch := by
  unfold Obligations.TableMasksMatch
  intro b n jr c h2 h8
  have hpow : 2 ^ b.toNat ≤ 2 ^ 8 := Nat.pow_le_pow_right (by omega) h8
  refine ⟨?_, ?_, ?_⟩
  · rw [in_row_iff h2 h8 rfl, codeClassAt_clear_iff, and_full_mask_eq_iff (by omega)]
  · rw [in_row_iff h2 h8 rfl, codeClassAt_eoi_iff, and_full_mask_eq_iff (by omega)]
  · rw [in_row_iff h2 h8 rfl, codeClassAt_literal_iff]
    exact (and_high_mask_eq_zero_iff (by omega)).symm

/-- Settles O1: each word is evaluated by the decoder. -/
theorem writtenOutWordsDecode : Obligations.WrittenOutWordsDecode := by
  unfold Obligations.WrittenOutWordsDecode
  refine ⟨rfl, rfl, rfl, rfl, rfl, rfl, rfl, rfl, rfl, rfl, rfl, rfl⟩

/-! ## Width byte and length bytes (R71, R72, R183) -/

/-- Settles O15: the accepted byte is `B`, and `DictReset()` gives the rest. -/
theorem widthByteAccepted : Obligations.WidthByteAccepted := by
  unfold Obligations.WidthByteAccepted
  intro s v h2 h8
  have hexec : exec (.widthByte v) s = .next { dictReset { s with b := v.setWidth 4 } with opk := .decCodes } :=
    if_neg (by omega)
  have hb : (v.setWidth 4).toNat = v.toNat := by rw [BitVec.toNat_setWidth]; omega
  have hrange : 2 ≤ (v.setWidth 4).toNat ∧ (v.setWidth 4).toNat ≤ 8 := by omega
  refine ⟨_, hexec, hb, ?_, ?_, rfl, rfl, rfl⟩
  · exact (dictReset_n_toNat (s := { s with b := v.setWidth 4 }) hrange).trans (by rw [State.firstLearned, hb])
  · exact (dictReset_w_toNat (s := { s with b := v.setWidth 4 }) hrange).trans (congrArg (· + 1) hb)

/-- Settles O17: either meaning is its one register update. -/
theorem lengthBytesExecute : Obligations.LengthBytesExecute := by
  unfold Obligations.LengthBytesExecute
  exact fun s v => ⟨rfl, rfl⟩

/-! ## The encoder (R132, R182, R188) -/

/-- Settles O49: all three codes are below `N` or below the first learned code, and `N` fits the width. -/
theorem encoderCodesFit : Obligations.EncoderCodesFit := by
  unfold Obligations.EncoderCodesFit
  intro s h
  have hfits := h.fits
  obtain ⟨hsize, -⟩ := h.dict.size
  have hclear := clearCode_lt_firstLearned s
  refine ⟨fun hv => Nat.lt_of_lt_of_le (h.candValid hv).1 hfits, by omega, ?_⟩
  have heoi : s.eoiCode < s.firstLearned := Nat.lt_succ_self _
  omega

section
variable {s t u : State} {x : Byte} {q : List Token}

/-- `t`'s output is `s`'s and whole chunks of the code stream behind it; the chunk that is left is none (R101). -/
structure OutputsChunks (s t : State) : Prop where
  left : s.chunk.length < 255 → t.chunk.length < 255
  out : ∃ cs : List (List Byte), (∀ c ∈ cs, c.length = 255) ∧ t.outq = s.outq ++ (fullChunks cs).map OutItem.byte

theorem OutputsChunks.of_eq (hc : t.chunk = s.chunk) (ho : t.outq = s.outq) : OutputsChunks s t :=
  ⟨fun h => hc ▸ h, [], by simp, by simp [ho, fullChunks]⟩

theorem OutputsChunks.trans (h1 : OutputsChunks s t) (h2 : OutputsChunks t u) : OutputsChunks s u := by
  obtain ⟨c1, l1, o1⟩ := h1.out
  obtain ⟨c2, l2, o2⟩ := h2.out
  refine ⟨fun h => h2.left (h1.left h), c1 ++ c2, fun c hc => (List.mem_append.mp hc).elim (l1 c) (l2 c), ?_⟩
  rw [o2, o1, fullChunks_append, List.map_append, List.append_assoc]

theorem Wrote.outputsChunks {bits : List Bool} (h : Wrote bits s t) : OutputsChunks s t := by
  obtain ⟨cs, hlen, hout, -⟩ := h.stream
  exact ⟨h.chunk, cs, hlen, hout⟩

/-- What an index below `2^b` leaves: the operation goes on, and only whole chunks are output (R162 to R165). -/
structure TakesIndex (s t : State) : Prop where
  phase : t.phase = s.phase
  opk : t.opk = s.opk
  agenda : t.agenda = s.agenda
  inq : t.inq = s.inq
  base : t.b = s.b
  chunks : OutputsChunks s t

theorem encodeIndex_takes (hx : x.toNat < 2 ^ s.b.toNat) (h : encodeIndex x s = .next t) : TakesIndex s t := by
  unfold encodeIndex at h
  rw [if_neg (show ¬ s.clearCode ≤ x.toNat from Nat.not_le_of_lt hx)] at h
  split at h
  · cases h
    exact ⟨rfl, rfl, rfl, rfl, rfl, .of_eq rfl rfl⟩
  split at h
  · cases h
    exact ⟨rfl, rfl, rfl, rfl, rfl, .of_eq rfl rfl⟩
  split at h
  · unfold encMiss at h
    split at h
    · cases h
    · cases h
      exact ⟨by simp, by simp, by simp, by simp, by simp,
        (writeBits_wrote s.cand.toNat s.w.toNat s).outputsChunks.trans (.of_eq (by simp) (by simp))⟩
  · cases h
    exact ⟨by simp, by simp, by simp, by simp, by simp,
      ((writeBits_wrote _ _ s).trans (writeBits_wrote _ _ _)).outputsChunks.trans (.of_eq rfl rfl)⟩

/-- An ENCODE between two indices, no turn listed, with `q` as its input. -/
structure AwaitsIndex (s : State) (q : List Token) : Prop where
  inv : Inv s
  phase : s.phase = .run
  opk : s.opk = .encIndex
  agenda : s.agenda = []
  inq : s.inq = q

theorem AwaitsIndex.step_eq (h : AwaitsIndex s q) : step s = encIndexStep s := by
  rw [engine_step_nil h.agenda]
  simp only [fetchEngine, h.phase, h.opk]

theorem AwaitsIndex.encoderOk (h : AwaitsIndex s q) : EncoderOk s := by
  have hstage := h.inv.stage h.phase
  simp only [StageOk, h.opk] at hstage
  exact hstage.2

theorem AwaitsIndex.step_index (h : AwaitsIndex s (.byte x :: q)) : step s = encodeIndex x { s with inq := q } := by
  rw [h.step_eq, encIndexStep, h.inq]

theorem AwaitsIndex.takes_index (h : AwaitsIndex s (.byte x :: q)) (hx : x.toNat < 2 ^ s.b.toNat) :
    ∃ t, step s = .next t ∧ AwaitsIndex t q ∧ t.b = s.b ∧ OutputsChunks s t := by
  obtain ⟨t, ht⟩ := encIndex_next h.encoderOk
  have hstep := h.step_eq.trans ht
  obtain ⟨hphase, hopk, hagenda, hinq, hbase, hchunks⟩ :=
    encodeIndex_takes (s := { s with inq := q }) hx (h.step_index.symm.trans hstep)
  refine ⟨t, hstep, ⟨encIndex_inv h.inv h.phase h.opk ht, hphase.trans h.phase, hopk.trans h.opk,
    hagenda.trans h.agenda, hinq⟩, hbase, ?_⟩
  have htoken : OutputsChunks s { s with inq := q } := .of_eq rfl rfl
  exact htoken.trans hchunks

/-- Indices below `2^b` take one step each (R182). -/
theorem AwaitsIndex.takes_indices {xs : List Byte} (h : AwaitsIndex s (xs.map Token.byte ++ q))
    (hxs : ∀ x ∈ xs, x.toNat < 2 ^ s.b.toNat) :
    ∃ t, runSteps xs.length s = .next t ∧ AwaitsIndex t q ∧ t.b = s.b ∧ OutputsChunks s t := by
  induction xs generalizing s with
  | nil => exact ⟨s, rfl, h, rfl, .of_eq rfl rfl⟩
  | cons x xs ih =>
    obtain ⟨t, hstep, ht, hb, hout⟩ := h.takes_index (hxs x (by simp))
    obtain ⟨u, hrun, hu, hb', hout'⟩ := ih ht (fun y hy => hb ▸ hxs y (by simp [hy]))
    exact ⟨u, (runSteps_succ _ _ _ hstep).trans hrun, hu, hb'.trans hb, hout.trans hout'⟩

/-- An index of `2^b` or more ends the operation in `RANGE_INDEX` (R161, R205). -/
theorem AwaitsIndex.refuses_index (h : AwaitsIndex s (.byte x :: q)) (hx : 2 ^ s.b.toNat ≤ x.toNat) :
    step s = .next { s with inq := q, err := .rangeIndex, einfo := x.setWidth 16, pfault := none, phase := .fault } := by
  have hx' : ({ s with inq := q } : State).clearCode ≤ x.toNat := hx
  rw [h.step_index, encodeIndex, if_pos hx', raise_taken (by simp)]

/-! ### The end of an ENCODE (R104, R166) -/

theorem encodeFinish_chunks (s : State) : OutputsChunks s (encodeFinish s) := by
  have hcand : OutputsChunks s (finalCandidate s) := by
    unfold finalCandidate
    split
    · exact (writeBits_wrote _ _ s).outputsChunks
    · exact .of_eq rfl rfl
  have hgrow : OutputsChunks (finalCandidate s) (finalGrowth (finalCandidate s)) := .of_eq (by simp) (by simp)
  have hflush : ∀ s : State, OutputsChunks s (flush s) := by
    intro s
    unfold flush
    split
    · exact (writeBitList_wrote _ s).outputsChunks
    · exact .of_eq rfl rfl
  exact ((hcand.trans hgrow).trans (writeBits_wrote _ _ _).outputsChunks).trans (hflush _)

/-- Whole chunks and what `FrameEnd()` adds are the framing of one payload (R100, R104). -/
theorem OutputsChunks.framed (h : OutputsChunks s t) (hs : s.chunk.length < 255) :
    ∃ p, (frameEnd t).outq = s.outq ++ (frame p).map OutItem.byte := by
  obtain ⟨cs, hlen, hout⟩ := h.out
  refine ⟨cs.flatten ++ t.chunk, ?_⟩
  rw [frame_chunks hlen (h.left hs), List.map_append, ← List.append_assoc, ← hout]
  exact congrArg State.outq (frameEnd_eq t)

theorem encodeFinish_inq (s : State) : (encodeFinish s).inq = s.inq := by
  have hcand : (finalCandidate s).inq = s.inq := by
    unfold finalCandidate
    split <;> simp
  simp [encodeFinish, writeEoi, hcand]

/-- `End` and the finishing step behind it end the operation well (R166, R182). -/
theorem AwaitsIndex.finishes (h : AwaitsIndex t (.eof :: q)) (hout : OutputsChunks s t) (hs : s.chunk.length < 255) :
    ∃ u p, runSteps 2 t = .next u ∧ u.phase = .done ∧ u.inq = q ∧
      u.outq = s.outq ++ (frame p).map OutItem.byte ++ [.endMark] := by
  have hend : step t = .next { t with inq := q, opk := .encFinish } := by rw [h.step_eq, encIndexStep, h.inq]
  generalize ht' : { t with inq := q, opk := .encFinish } = t' at hend
  have hagenda : t'.agenda = [] := by rw [← ht']; exact h.agenda
  have hphase : t'.phase = .run := by rw [← ht']; exact h.phase
  have hopk : t'.opk = .encFinish := by rw [← ht']
  have hinq : t'.inq = q := by rw [← ht']
  have hsame : OutputsChunks t t' := .of_eq (by rw [← ht']) (by rw [← ht'])
  have hfin : step t' = encFinishStep t' := by
    rw [engine_step_nil hagenda]
    simp only [fetchEngine, hphase, hopk]
  obtain ⟨p, hp⟩ := ((hout.trans hsame).trans (encodeFinish_chunks t')).framed hs
  refine ⟨_, p, (runSteps_succ 1 _ _ hend).trans (runSteps_one hfin), rfl, ?_, congrArg (· ++ [OutItem.endMark]) hp⟩
  simp [encodeFinish_inq, hinq]

/-! ### The start of an ENCODE (R180) -/

theorem leadingClear_wrote (s : State) : ∃ bits, Wrote bits s (leadingClear s) := by
  unfold leadingClear
  split
  · exact ⟨_, writeBits_wrote _ _ _⟩
  · exact ⟨_, .nil _⟩

/-- With a legal palette size, the command leaves the width byte output and the operation waiting for its first index. -/
theorem startEncode_awaits {b : Nat} (hinv : Inv s) (hagenda : s.agenda = [])
    (hb : baseWidth s.palette.toNat = some b) :
    AwaitsIndex (startEncode s) s.inq ∧ (startEncode s).b = BitVec.ofNat 4 b ∧
      OutputsChunks (outPut (BitVec.ofNat 8 b) (encodePrologue s)) (startEncode s) := by
  have hkeep := startEncode_inv hinv
  rw [startEncode_legal hb] at hkeep ⊢
  obtain ⟨C, A, k, out, hlocal⟩ := startEncoding_local b s.cfg
  have hfields := hlocal s rfl
  obtain ⟨bits, hclear⟩ := leadingClear_wrote
    (dictReset (outPut (BitVec.ofNat 8 b) { encodePrologue s with b := BitVec.ofNat 4 b }))
  refine ⟨⟨hkeep, ?_, ?_, ?_, ?_⟩, ?_, ?_⟩
  · rw [hfields]; rfl
  · rw [hfields]
  · rw [hfields]; exact hagenda
  · rw [hfields]; rfl
  · rw [hfields]
  · refine .trans (.trans (.of_eq ?_ ?_) hclear.outputsChunks) (.of_eq ?_ ?_)
    all_goals rfl

end

/-- Settles O59: by induction on the indices the operation outputs whole chunks behind the width byte, one step an index; then
`End` and the finishing step make them the framing of one payload, or an index out of range ends it in the fault. -/
theorem encodeEndsOnItsInput : Obligations.EncodeEndsOnItsInput := by
  unfold Obligations.EncodeEndsOnItsInput
  intro s w xs rest hinv hrun hagenda h1 h256
  obtain ⟨b, hb⟩ : ∃ b, baseWidth s.palette.toNat = some b := ⟨_, if_neg (by omega)⟩
  obtain ⟨hstart, hbase, hwidth⟩ := startEncode_awaits hinv hagenda hb
  obtain ⟨h2, h8, -⟩ := baseWidth_range hb
  have hbyte : (startEncode s).b.setWidth 8 = BitVec.ofNat 8 b := by
    apply BitVec.eq_of_toNat_eq
    rw [hbase, BitVec.toNat_setWidth, BitVec.toNat_ofNat, BitVec.toNat_ofNat]
    omega
  refine ⟨_, exec_cmdEncode w hrun, fun hxs => ⟨fun hinq => ?_, fun y hy hinq => ?_⟩⟩
  · obtain ⟨t, hrun1, ht, -, hout⟩ := (hinq ▸ hstart).takes_indices hxs
    obtain ⟨u, p, hrun2, hdone, hleft, houtq⟩ := ht.finishes (hwidth.trans hout) (by simp [encodePrologue])
    refine ⟨u, p, runSteps_add hrun1 hrun2, hdone, hleft, ?_⟩
    rw [houtq, hbyte]
    simp [encodePrologue]
  · obtain ⟨t, hrun1, ht, htb, hout⟩ := (hinq ▸ hstart).takes_indices hxs
    obtain ⟨cs, -, houtq⟩ := (hwidth.trans hout).out
    refine ⟨_, BitVec.ofNat 8 b :: fullChunks cs,
      runSteps_add hrun1 (runSteps_one (ht.refuses_index (htb ▸ hy))), rfl, rfl, rfl, rfl, ?_⟩
    simp [houtq, encodePrologue]

end Sys2Proof.Machine
end

section
/-! The family of the framer (40_framer.md): framing and deframing, every case of `FrameGet`, a token that is missing
and an `End` that comes too early, the end of an ENCODE, and a DECODE that consumes exactly its block. -/

namespace Sys2Proof.Machine

/-! ## Framing and deframing (R100 to R107) -/

/-- Full chunks are deframed one by one (R102). -/
theorem deframe_fullChunks {cs : List (List Byte)} (hc : ∀ c ∈ cs, c.length = 255) (q : List Token) :
    deframe 0 ((fullChunks cs).map Token.byte ++ q) = (deframe 0 q).map (fun x => (cs.flatten ++ x.1, x.2)) := by
  induction cs with
  | nil => simp [fullChunks]
  | cons c cs ih =>
    have hlen : c.length = 255 := hc c (by simp)
    have hne : c ≠ [] := List.ne_nil_of_length_pos (by omega)
    have hsplit : (fullChunks (c :: cs)).map Token.byte ++ q =
        .byte (BitVec.ofNat 8 c.length) :: (c.map Token.byte ++ ((fullChunks cs).map Token.byte ++ q)) := by
      simp [fullChunks, hlen]
    rw [hsplit, deframe_block hne (by omega), ih (fun x hx => hc x (by simp [hx]))]
    simp [Function.comp_def]

/-- The rest of a payload, a chunk where it is not empty, and the terminator (R102, R104). -/
theorem deframe_last {p : List Byte} (hp : p.length < 255) (q : List Token) :
    deframe 0 (((if 0 < p.length then BitVec.ofNat 8 p.length :: p else []) ++ [0]).map Token.byte ++ q) =
      some (p, q) := by
  split
  · rename_i hpos
    have hblock := deframe_block (List.ne_nil_of_length_pos hpos) (by omega) (.byte 0 :: q)
    rw [deframe_terminator] at hblock
    simpa using hblock
  · have hnil : p = [] := List.length_eq_zero_iff.mp (by omega)
    subst hnil
    exact deframe_terminator q

/-- Settles O19: a payload is full chunks and a rest, and each part of its framing is deframed to itself. -/
theorem frameRoundTrip : Obligations.FrameRoundTrip := by
  unfold Obligations.FrameRoundTrip
  intro p rest
  obtain ⟨cs, r, hcs, hr, rfl⟩ := split_chunks p
  rw [frame_chunks hcs hr, List.map_append, List.append_assoc, deframe_fullChunks hcs, deframe_last hr]
  rfl

theorem framePut_full {v : Byte} {s : State} (h : (s.chunk ++ [v]).length = 255) :
    framePut v s = { s with chunk := [], outq := s.outq ++ (fullChunks [s.chunk ++ [v]]).map OutItem.byte } := by
  rw [framePut, if_pos h]
  simp [outPutAll, fullChunks]

theorem framePut_room {v : Byte} {s : State} (h : (s.chunk ++ [v]).length ≠ 255) :
    framePut v s = { s with chunk := s.chunk ++ [v] } := by
  rw [framePut, if_neg h]

theorem frame_last {p : List Byte} (h : p.length < 255) :
    frame p = (if 0 < p.length then BitVec.ofNat 8 p.length :: p else []) ++ [0] := frameUpTo_last h

/-- Framing byte by byte goes on from what the buffer holds (R101, R104). -/
theorem frameEnd_framePuts (p : List Byte) (s : State) (h : s.chunk.length < 255) :
    frameEnd (p.foldl (fun t v => framePut v t) s) =
      { s with chunk := [], outq := s.outq ++ (frame (s.chunk ++ p)).map OutItem.byte } := by
  induction p generalizing s with
  | nil =>
    rw [List.foldl_nil, frameEnd_eq, List.append_nil, frame_last h]
  | cons v p ih =>
    have hassoc : s.chunk ++ v :: p = (s.chunk ++ [v]) ++ p := by simp
    rw [List.foldl_cons, hassoc]
    by_cases hfull : (s.chunk ++ [v]).length = 255
    · have hprefix := frame_prefix [s.chunk ++ [v]] (by simpa using hfull) p
      rw [List.flatten_singleton] at hprefix
      rw [framePut_full hfull, ih _ (by simp), hprefix]
      simp
    · rw [framePut_room hfull, ih]
      simp only [List.length_append, List.length_singleton] at hfull ⊢
      omega

/-- Settles O20: from an empty buffer the streamed framing is the framing of the whole payload. -/
theorem streamedFramingIsFrame : Obligations.StreamedFramingIsFrame := by
  unfold Obligations.StreamedFramingIsFrame
  intro s p h
  rw [frameEnd_framePuts p s (by simp [h])]
  simp [h]

/-! ## `FrameGet`, case by case (R103, R105) -/

section
variable {s t : State} {u v : Byte} {q : List Token}

theorem takeChunkByte_byte (h : s.inq = .byte u :: q) :
    takeChunkByte s = .ok (some u) { s with inq := q, rem := s.rem - 1 } := by rw [takeChunkByte, h]

theorem takeChunkByte_eof (h : s.inq = .eof :: q) :
    takeChunkByte s = .raised (raise .ioFail 0 { s with inq := q }) := by rw [takeChunkByte, h]

theorem frameGet_pend (h : s.pend = true) : frameGet s = .ok none s := by rw [frameGet, if_pos h]

theorem frameGet_in_chunk (hp : s.pend = false) (hr : s.rem ≠ 0) : frameGet s = takeChunkByte s := by
  rw [frameGet, if_neg (by simp [hp]), if_neg hr]

theorem frameGet_terminator (hp : s.pend = false) (hr : s.rem = 0) (h : s.inq = .byte 0 :: q) :
    frameGet s = .ok none { s with inq := q, pend := true } := by
  rw [frameGet, if_neg (by simp [hp]), if_pos hr, h]
  rfl

theorem frameGet_length (hp : s.pend = false) (hr : s.rem = 0) (hv : v ≠ 0) (h : s.inq = .byte v :: q) :
    frameGet s = takeChunkByte { s with inq := q, rem := v } := by
  rw [frameGet, if_neg (by simp [hp]), if_pos hr, h]
  exact if_neg hv

theorem frameGet_eof (hp : s.pend = false) (h : s.inq = .eof :: q) :
    frameGet s = .raised (raise .ioFail 0 { s with inq := q }) := by
  by_cases hr : s.rem = 0
  · rw [frameGet, if_neg (by simp [hp]), if_pos hr, h]
  · rw [frameGet_in_chunk hp hr, takeChunkByte_eof h]

/-- Settles O18: by `PEND`, `REM` and the tokens at the head of the queue. -/
theorem frameGetCases : Obligations.FrameGetCases := by
  unfold Obligations.FrameGetCases
  intro s u v q
  refine ⟨frameGet_pend, frameGet_terminator, fun hp hr hv h => ?_, fun hp hr h => ?_, frameGet_eof,
    fun hp hr hv h => ?_⟩
  · rw [frameGet_length hp hr hv h, takeChunkByte_byte rfl]
  · rw [frameGet_in_chunk hp hr, takeChunkByte_byte h]
  · rw [frameGet_length hp hr hv h, takeChunkByte_eof rfl]

end

/-! ## A step, by the stage of the operation (R182 to R185) -/

section
variable {s t : State}

theorem step_encIndex (h : s.engineTurn) (hp : s.phase = .run) (ho : s.opk = .encIndex) :
    step s = encIndexStep s.afterTurn := by
  have hp' : s.afterTurn.phase = .run := hp
  have ho' : s.afterTurn.opk = .encIndex := ho
  rw [step_eq_answer h, fetchEngine, hp', ho']
  rfl

theorem step_encFinish (h : s.engineTurn) (hp : s.phase = .run) (ho : s.opk = .encFinish) :
    step s = encFinishStep s.afterTurn := by
  have hp' : s.afterTurn.phase = .run := hp
  have ho' : s.afterTurn.opk = .encFinish := ho
  rw [step_eq_answer h, fetchEngine, hp', ho']
  rfl

theorem step_decWidth (h : s.engineTurn) (hp : s.phase = .run) (ho : s.opk = .decWidth) :
    step s = (fetchWidth s.afterTurn).answer := by
  have hp' : s.afterTurn.phase = .run := hp
  have ho' : s.afterTurn.opk = .decWidth := ho
  rw [step_eq_answer h, fetchEngine, hp', ho']

theorem step_decCodes (h : s.engineTurn) (hp : s.phase = .run) (ho : s.opk = .decCodes) :
    step s = (fetchCode s.afterTurn).answer := engine_codes h hp ho

theorem fetchWidth_empty (h : s.inq = []) : (fetchWidth s).answer = .next s := by
  rw [fetchWidth, h]
  rfl

theorem fetchWidth_eof {q : List Token} (h : s.inq = .eof :: q) :
    (fetchWidth s).answer = .next (raise .ioFail 0 { s with inq := q }) := by
  rw [fetchWidth, h]
  rfl

theorem fetchWidth_byte {v : Byte} {q : List Token} (h : s.inq = .byte v :: q) :
    (fetchWidth s).answer = execWidthByte v { s with inq := q } := by
  rw [fetchWidth, h]
  rfl

theorem fetchCode_raised (h : readBits s.w.toNat s = .raised t) : (fetchCode s).answer = .next t := by
  rw [fetchCode, h]
  rfl

theorem fetchCode_stall (h : readBits s.w.toNat s = .stall) : (fetchCode s).answer = .next s := by
  rw [fetchCode, h]
  rfl

theorem drainStep_raised (h : frameGet s = .raised t) : drainStep s = t := by rw [drainStep, h]

theorem drainStep_stall (h : frameGet s = .stall) : drainStep s = s := by rw [drainStep, h]

end

/-! ## A missing token, and an `End` that comes too early (R103, R181, R206) -/

/-- Settles O8: with no token at hand, and wherever `FrameGet` or `ReadBits(W)` waits, the step answers the state it
found. -/
theorem missingTokenStalls : Obligations.MissingTokenStalls := by
  unfold Obligations.MissingTokenStalls
  intro s hturn hp
  have hdrain : s.opk = .decDrain → frameGet s.afterTurn = .stall → step s = .next s.afterTurn :=
    fun ho hget => by rw [engine_drain hturn hp ho, drainStep_stall hget]
  have hcodes : s.opk = .decCodes → readBits s.w.toNat s.afterTurn = .stall → step s = .next s.afterTurn :=
    fun ho hread => by rw [step_decCodes hturn hp ho, fetchCode_stall hread]
  refine ⟨fun ho hq => ?_, fun ho hpend ha => ?_, fun p ho hpend ha hlt => ?_, hdrain, hcodes⟩
  · have hq' : s.afterTurn.inq = [] := hq
    rcases ho with ho | ho
    · rw [step_encIndex hturn hp ho, encIndexStep, hq']
    · rw [step_decWidth hturn hp ho, fetchWidth_empty hq']
  · exact hdrain ho ((frameGet_arriving (s := s.afterTurn) hpend).2.2 ha)
  · exact hcodes ho (((readBits_arriving (s := s.afterTurn) hpend ha).2 hlt).2 rfl)

/-- `IO_FAIL` is never held (R186, R206). -/
theorem raise_ioFail (s : State) :
    raise .ioFail 0 s = { s with err := .ioFail, einfo := 0, pfault := none, phase := .fault } := raise_taken (by simp)

/-- A fault at the first payload byte that a code needs. -/
theorem readBits_raised_at_once {w : Nat} {s t : State} (hw : s.racc.length < w) (h : frameGet s = .raised t) :
    readBits w s = .raised t := by
  obtain ⟨k, rfl⟩ := Nat.exists_eq_add_of_lt hw
  rw [readBits, fillBits, if_neg (by omega), h]

/-- Settles O33: wherever a stage needs a token and meets `End`, what takes the token raises `IO_FAIL` behind it. -/
theorem endTokenRaisesIoFail : Obligations.EndTokenRaisesIoFail := by
  unfold Obligations.EndTokenRaisesIoFail
  intro s q hturn hp
  refine ⟨fun hq => ⟨fun hstage => ?_, fun ho => ?_⟩, fun p hpend ha hstage => ?_⟩
  · have hq' : s.afterTurn.inq = .eof :: q := hq
    rcases hstage with ho | ⟨ho, hpend⟩ | ⟨ho, hpend, hlt⟩
    · rw [step_decWidth hturn hp ho, fetchWidth_eof hq', raise_ioFail]
    · have hget := frameGet_eof (s := s.afterTurn) hpend hq'
      rw [engine_drain hturn hp ho, drainStep_raised hget, raise_ioFail]
    · have hread := readBits_raised_at_once (s := s.afterTurn) hlt (frameGet_eof hpend hq')
      rw [step_decCodes hturn hp ho, fetchCode_raised hread, raise_ioFail]
  · have hq' : s.afterTurn.inq = .eof :: q := hq
    rw [step_encIndex hturn hp ho, encIndexStep, hq']
  · rcases hstage with ⟨ho, rfl⟩ | ⟨ho, hlt⟩
    · obtain ⟨r, hget⟩ := (frameGet_arriving (s := s.afterTurn) hpend).2.1 q ha
      refine ⟨r, s.racc, ?_⟩
      rw [engine_drain hturn hp ho, drainStep_raised hget, raise_ioFail]
      rfl
    · obtain ⟨r, a, hread⟩ := ((readBits_arriving (s := s.afterTurn) hpend ha).2 hlt).1 q rfl
      refine ⟨r, a, ?_⟩
      rw [step_decCodes hturn hp ho, fetchCode_raised hread, raise_ioFail]

/-! ## The end of an ENCODE (R104, R111, R166, R182) -/

section
variable {s t : State}

theorem finalCandidate_wrote (s : State) :
    Wrote (if s.candV then bitsOf s.cand.toNat s.w.toNat else []) s (finalCandidate s) := by
  unfold finalCandidate
  split
  · exact writeBits_wrote _ _ s
  · exact .nil s

theorem finalGrowth_same (s : State) : finalGrowth s = { s with w := (finalGrowth s).w } := by
  unfold finalGrowth
  split <;> rfl

/-- The width of `EOI` by the registers before the candidate goes out (R166). -/
theorem eoiWidth (s : State) : (finalGrowth (finalCandidate s)).w.toNat =
    if s.n.toNat = 2 ^ s.w.toNat ∧ s.w.toNat < 12 then s.w.toNat + 1 else s.w.toNat := by
  have hfields := (finalCandidate_wrote s).fields
  simp [finalGrowth_w, hfields]

/-- What `EncodeFinish()` writes: the candidate, `EOI` at its width, and fewer than 8 zero bits up to a byte
boundary. -/
theorem encodeFinish_gains (h : BufferOk s) : ∃ pad, pad < 8 ∧
    StreamGains ((if s.candV then bitsOf s.cand.toNat s.w.toNat else []) ++
      bitsOf s.eoiCode (finalGrowth (finalCandidate s)).w.toNat ++ List.replicate pad false) s (encodeFinish s) ∧
    (encodeFinish s).wacc = [] := by
  have hcand := finalCandidate_wrote s
  have hbuf : BufferOk (finalGrowth (finalCandidate s)) :=
    (hcand.bufferOk h).same (by simp) (by simp) (by simp) (by simp) (by simp) (by simp)
  have hgrown : StreamGains _ s (finalGrowth (finalCandidate s)) :=
    (hcand.gains h.chunk h.wacc).same (by simp) (by simp) (by simp) (by simp)
  have heoi := writeBits_wrote s.eoiCode (finalGrowth (finalCandidate s)).w.toNat (finalGrowth (finalCandidate s))
  have hcode : (finalGrowth (finalCandidate s)).eoiCode = s.eoiCode := eoiCode_of_b (by simp [hcand.fields])
  rw [← hcode] at heoi ⊢
  have hbuf' := heoi.bufferOk hbuf
  have hflush := flush_wrote (writeEoi (finalGrowth (finalCandidate s))) hbuf'.wacc
  have hgains := (hgrown.trans (heoi.gains hbuf.chunk hbuf.wacc)).trans (hflush.gains hbuf'.chunk hbuf'.wacc)
  exact ⟨_, Nat.mod_lt _ (by omega), hgains, flush_wacc _ hbuf'.wcur hbuf'.wacc⟩

/-- What `EncodeFinish()` leaves unchanged. -/
theorem encodeFinish_same (h : BufferOk s) : encodeFinish s = { s with
    w := (finalGrowth (finalCandidate s)).w, chunk := (encodeFinish s).chunk, wacc := (encodeFinish s).wacc
    wcur := (encodeFinish s).wcur, outq := (encodeFinish s).outq } := by
  have hcand := finalCandidate_wrote s
  have hgrown := finalGrowth_same (finalCandidate s)
  have heoi := writeBits_wrote (finalGrowth (finalCandidate s)).eoiCode (finalGrowth (finalCandidate s)).w.toNat
    (finalGrowth (finalCandidate s))
  have hflush := flush_wrote (writeEoi (finalGrowth (finalCandidate s))) (heoi.wacc (by simpa using hcand.wacc h.wacc))
  have hsame := (heoi.trans hflush).same
  have hcand' := hcand.same
  change flush (writeEoi (finalGrowth (finalCandidate s))) = { s with
    w := _, chunk := (flush (writeEoi _)).chunk, wacc := (flush (writeEoi _)).wacc
    wcur := (flush (writeEoi _)).wcur, outq := (flush (writeEoi _)).outq }
  generalize flush (writeEoi (finalGrowth (finalCandidate s))) = t at hsame ⊢
  generalize finalGrowth (finalCandidate s) = g at hgrown hsame ⊢
  generalize finalCandidate s = f at hcand' hgrown
  rw [hsame, hgrown, hcand']

/-- Where the code stream ends on a byte boundary, what it gained and what was pending are the payload that `FrameEnd()`
has framed (R100, R104). -/
theorem StreamGains.framed {bits : List Bool} (h : StreamGains bits s t) (hw : t.wacc = []) :
    ∃ p, payloadBits p = pendingBits s ++ bits ∧ (frameEnd t).outq = s.outq ++ (frame p).map OutItem.byte := by
  obtain ⟨cs, hcs, hout, hpayload, -, hchunk, -⟩ := h
  refine ⟨cs.flatten ++ t.chunk, ?_, ?_⟩
  · rw [← hpayload, pendingBits, hw, payloadBits_append, List.append_nil]
  · rw [frame_chunks hcs hchunk, List.map_append, ← List.append_assoc]
    exact (congrArg State.outq (frameEnd_eq t)).trans (congrArg (· ++ _) hout)

/-- Settles O47: what `EncodeFinish()` writes ends on a byte boundary, so that `FrameEnd()` closes the framing of it
all. -/
theorem encoderFinish : Obligations.EncoderFinish := by
  unfold Obligations.EncoderFinish
  intro s hturn hp ho hbuf
  have hbuf' : BufferOk s.afterTurn := hbuf.same rfl rfl rfl rfl rfl rfl
  obtain ⟨pad, hpad, hgains, hwacc⟩ := encodeFinish_gains hbuf'
  obtain ⟨p, hpayload, hout⟩ := hgains.framed hwacc
  have hsame := encodeFinish_same hbuf'
  have hstep := step_encFinish hturn hp ho
  have hwidth := eoiWidth s.afterTurn
  unfold encFinishStep at hstep
  generalize encodeFinish s.afterTurn = e at hwacc hout hsame hstep
  generalize (finalGrowth (finalCandidate s.afterTurn)).w = w at hwidth hpayload hsame
  rw [frameEnd_eq] at hout hstep
  have hw : e.w = w := congrArg State.w hsame
  refine ⟨_, p, pad, hstep, rfl, ?_, ?_, hpad, congrArg (· ++ [OutItem.endMark]) hout, rfl, hwacc, ?_⟩
  · exact (congrArg BitVec.toNat hw).trans hwidth
  · rw [hpayload, ← hw]
    simp only [List.append_assoc]
    rfl
  · rw [hsame]
    rfl

end

/-! ## What taking tokens makes of the block ahead (R103, R105, R113, R181) -/

/-- What ends the block that a running decoder reads: the terminator it has consumed, or what ends the bytes at hand. -/
def State.cutoff (s : State) : Cutoff := if s.pend then .terminator s.inq else s.arriving.2

section
variable {s t u : State} {α : Type}

theorem cutoff_of_eq (hi : t.inq = s.inq) (hr : t.rem = s.rem) (hp : t.pend = s.pend) : t.cutoff = s.cutoff := by
  unfold State.cutoff State.arriving
  rw [hi, hr, hp]

theorem cutoff_of_pend (h : s.pend = true) : s.cutoff = .terminator s.inq := if_pos h

theorem cutoff_of_arriving {p : List Byte} {c : Cutoff} (hp : s.pend = false) (ha : s.arriving = (p, c)) :
    s.cutoff = c := by
  unfold State.cutoff
  rw [hp, ha]
  rfl

/-- How taking operands from `s` can end by the tokens at hand, short of the end of the payload: with a value, the block
ahead still ended by the same; waiting where the tokens run out; in `IO_FAIL` behind an `End` that comes too early. -/
inductive TakesFrom (s : State) : Flow α → Prop
  | ok (a : α) {t : State} (took : Took s t) (ahead : t.cutoff = s.cutoff) : TakesFrom s (.ok a t)
  | stall (ahead : s.cutoff = .waiting) : TakesFrom s .stall
  | ioFail {t : State} (took : Took s t) (ahead : s.cutoff = .endToken t.inq) :
      TakesFrom s (.raised (raise .ioFail 0 t))

/-- Taking operands from `s` ends in `OUT_OF_DATA` behind the terminator (R114). -/
def RunsOut (s : State) (x : Flow α) : Prop :=
  ∃ t, x = .raised (raise .outOfData 0 t) ∧ Took s t ∧ t.pend = true ∧ t.cutoff = s.cutoff

theorem TakesFrom.after {x : Flow α} (htook : Took s t) (hcut : t.cutoff = s.cutoff) (h : TakesFrom t x) :
    TakesFrom s x := by
  cases h with
  | ok a took ahead => exact .ok a (htook.trans took) (ahead.trans hcut)
  | stall ahead => exact .stall (hcut.symm.trans ahead)
  | ioFail took ahead => exact .ioFail (htook.trans took) (hcut.symm.trans ahead)

theorem RunsOut.after {x : Flow α} (htook : Took s t) (hcut : t.cutoff = s.cutoff) (h : RunsOut t x) :
    RunsOut s x := by
  obtain ⟨u, hx, took, hpend, ahead⟩ := h
  exact ⟨u, hx, htook.trans took, hpend, ahead.trans hcut⟩

/-- `FrameGet` by what ends the block ahead (R105). -/
theorem frameGet_takes (s : State) : TakesFrom s (frameGet s) := by
  cases hp : s.pend with
  | true =>
    exact frameGet_pend hp ▸ .ok none (.refl s) rfl
  | false =>
    obtain ⟨hbyte, hend, hwait⟩ := frameGet_arriving hp
    rcases ha : s.arriving with ⟨_ | ⟨v, p⟩, c⟩
    · have hcut := cutoff_of_arriving hp ha
      cases c with
      | terminator q =>
        obtain ⟨-, hget⟩ := frameGet_deframe_nil hp (arriving_terminator.mp ha)
        have htook := frameGet_took hget
        exact hget ▸ .ok none htook (hcut ▸ cutoff_of_pend rfl)
      | endToken q =>
        obtain ⟨r, hget⟩ := hend q ha
        obtain ⟨u, htook, -, -, hu⟩ := frameGet_raised hget
        have hinq : u.inq = q := by simpa using (congrArg State.inq hu).symm
        rw [hget, hu]
        exact .ioFail htook (hinq ▸ hcut)
      | waiting => exact hwait ha ▸ .stall hcut
    · obtain ⟨t, hget, hat, hpt, -⟩ := hbyte v p c ha
      have hcut := (cutoff_of_arriving hpt hat).trans (cutoff_of_arriving hp ha).symm
      exact hget ▸ .ok (some v) (frameGet_took hget) hcut

/-- A payload byte that the unpacker has gathered (R113). -/
theorem frameGet_gathers {v : Byte} (h : frameGet s = .ok (some v) t) :
    Took s { t with racc := t.racc ++ bitsOf v.toNat 8 } := by
  obtain ⟨-, hpend, hracc, -, -, htokens, hlen⟩ := frameGet_byte h
  refine ⟨?_, htokens, ?_, fun _ hp => ?_⟩
  · rw [(frameGet_took h).same]
  · simp only [List.length_append, bitsOf_length, hracc]
    omega
  · rw [hpend] at hp
    cases hp

/-- The loop of `ReadBits(w)` by what ends the block ahead (R113, R114). -/
theorem fillBits_takes (w fuel : Nat) (s : State) :
    TakesFrom s (fillBits w fuel s) ∨ RunsOut s (fillBits w fuel s) := by
  induction fuel generalizing s with
  | zero => exact .inl (.ok () (.refl s) rfl)
  | succ fuel ih =>
    have hget := frameGet_takes s
    rw [fillBits]
    split
    · exact .inl (.ok () (.refl s) rfl)
    split
    case h_1 hx =>
      rw [hx] at hget
      cases hget with
      | stall ahead => exact .inl (.stall ahead)
    case h_2 s' hx =>
      rw [hx] at hget
      cases hget with
      | ioFail took ahead => exact .inl (.ioFail took ahead)
    case h_3 t hx =>
      rw [hx] at hget
      cases hget with
      | ok _ took ahead => exact .inr ⟨t, rfl, took, (frameGet_eop hx).1, ahead⟩
    case h_4 v t hx =>
      rw [hx] at hget
      cases hget with
      | ok _ _ ahead => exact (ih _).imp (.after (frameGet_gathers hx) ahead) (.after (frameGet_gathers hx) ahead)

/-- `ReadBits(w)` by what ends the block ahead (R113, R114). -/
theorem readBits_takes (w : Nat) (s : State) : TakesFrom s (readBits w s) ∨ RunsOut s (readBits w s) := by
  have hfill := fillBits_takes w w s
  cases hx : fillBits w w s with
  | ok _ u =>
    have hread : readBits w s =
        .ok (ofBits (u.racc.take w)) { u with racc := u.racc.drop w, rcur := u.rcur + w } := by rw [readBits, hx]
    obtain ⟨htook, -⟩ := readBits_ok hread
    rw [hx] at hfill
    rcases hfill with h | ⟨_, h, -⟩ <;> cases h
    case ok _ ahead => exact .inl (hread ▸ .ok _ htook ahead)
  | stall =>
    have hread : readBits w s = .stall := by rw [readBits, hx]
    rw [hx] at hfill
    rcases hfill with h | ⟨_, h, -⟩ <;> cases h
    case stall ahead => exact .inl (hread ▸ .stall ahead)
  | raised s' =>
    have hread : readBits w s = .raised s' := by rw [readBits, hx]
    rw [hx] at hfill
    rw [hread]
    rcases hfill with h | ⟨t, h, hout⟩ <;> cases h
    case ioFail took ahead => exact .inl (.ioFail took ahead)
    case refl => exact .inr ⟨t, rfl, hout⟩

end

/-! ## A DECODE and its block (R185, R186, R187, R206, R210) -/

section
variable {s t u : State} {c : Cutoff}

/-- A DECODE that reads a block ended by `c`, in its code loop or in a drain, no turn listed; a fault it holds is one that
it may end in. -/
structure ReadsBlock (s : State) (c : Cutoff) : Prop where
  inv : Inv s
  phase : s.phase = .run
  stage : s.opk = .decCodes ∨ s.opk = .decDrain
  agenda : s.agenda = []
  ahead : s.cutoff = c
  held : ∀ f i, s.pfault = some (f, i) → f = .badCode ∨ (f = .outOfData ∧ i = 0)

/-- How a DECODE of a block ended by `c` may end: it has consumed exactly the tokens through that end. -/
def EndsBlock (u : State) : Cutoff → Prop
  | .terminator rest => u.inq = rest ∧
      (u.phase = .done ∨ (u.phase = .fault ∧ (u.err = .badCode ∨ (u.err = .outOfData ∧ u.einfo = 0))))
  | .endToken rest => u.inq = rest ∧ u.phase = .fault ∧ u.err = .ioFail ∧ u.einfo = 0 ∧ u.pfault = none
  | .waiting => False

theorem endsBlock_ioFail (h : s.cutoff = .endToken t.inq) : EndsBlock (raise .ioFail 0 t) s.cutoff := by
  rw [h, raise_ioFail]
  exact ⟨rfl, rfl, rfl, rfl, rfl⟩

/-- The end of a drain behind the terminator (R185). -/
theorem endsBlock_endDrain (hpend : t.pend = true)
    (held : ∀ f i, t.pfault = some (f, i) → f = .badCode ∨ (f = .outOfData ∧ i = 0)) :
    EndsBlock (endDrain t) t.cutoff := by
  rw [cutoff_of_pend hpend, endDrain]
  cases hf : t.pfault with
  | none => exact ⟨rfl, .inl rfl⟩
  | some x =>
    rw [finishFault, hf]
    exact ⟨rfl, .inr ⟨rfl, held x.1 x.2 hf⟩⟩

/-- A step of a drain ends the operation or takes a payload byte. -/
theorem ReadsBlock.drains (h : ReadsBlock s c) (hc : c ≠ .waiting) (ho : s.opk = .decDrain) :
    ∃ t, step s = .next t ∧ (EndsBlock t c ∨ (ReadsBlock t c ∧ workLeft t < workLeft s)) := by
  have hstep := drain_step h.agenda h.phase ho
  have hinv := engine_step_inv h.inv h.agenda hstep
  refine ⟨_, hstep, ?_⟩
  have htakes := frameGet_takes s
  obtain rfl := h.ahead
  unfold drainStep at hinv ⊢
  cases hget : frameGet s with
  | stall =>
    rw [hget] at htakes
    cases htakes with
    | stall ahead => exact absurd ahead hc
  | raised s' =>
    rw [hget] at htakes
    cases htakes with
    | ioFail _ ahead => exact .inl (endsBlock_ioFail ahead)
  | ok o t =>
    rw [hget] at htakes hinv
    cases htakes with
    | ok _ took ahead =>
      have hheld : t.pfault = s.pfault := by simp [took.fields]
      cases o with
      | none => exact .inl (ahead ▸ endsBlock_endDrain (frameGet_eop hget).1 (hheld ▸ h.held))
      | some v =>
        have hphase : t.phase = .run := by simp [took.fields, h.phase]
        have hopk : t.opk = .decDrain := by simp [took.fields, ho]
        obtain ⟨-, -, -, -, -, -, hlen⟩ := frameGet_byte hget
        refine .inr ⟨⟨hinv, hphase, .inr hopk, ?_, ahead, hheld ▸ h.held⟩, ?_⟩
        · simp [took.fields, h.agenda]
        · rw [workLeft_run hphase, workLeft_run h.phase, hopk, ho]
          dsimp only
          omega

theorem step_decCodes_nil (ha : s.agenda = []) (hp : s.phase = .run) (ho : s.opk = .decCodes) :
    step s = (fetchCode s).answer := by
  have hturn := step_decCodes (engineTurn_nil ha) hp ho
  rwa [afterTurn_nil ha] at hturn

/-- A code that has been read runs the instruction it decodes to (R140, R184). -/
theorem fetchCode_runs {v : Nat} (hread : readBits s.w.toNat s = .ok v u) (h : (fetchCode s).answer = .next t) :
    ∃ i, decodeCode u.b u.n u.jr (BitVec.ofNat 12 v) = .instr i ∧ exec i u = .next t := by
  unfold fetchCode at h
  rw [hread] at h
  cases hdec : decode u.codeContext (.code (BitVec.ofNat 12 v)) with
  | instr i =>
    simp only [hdec] at h
    exact ⟨i, hdec, h⟩
  | rejected r =>
    simp only [hdec] at h
    cases h

/-- A code that has been read goes on to the next code or to a drain, with fewer bits ahead. -/
theorem ReadsBlock.runs_code {v : Nat} (h : ReadsBlock s c) (ho : s.opk = .decCodes)
    (hread : readBits s.w.toNat s = .ok v u) (hcut : u.cutoff = s.cutoff) (hstep : step s = .next t) :
    ReadsBlock t c ∧ workLeft t < workLeft s := by
  obtain ⟨took, -, -, hbits, -⟩ := readBits_ok hread
  have hanswer := step_decCodes_nil h.agenda h.phase ho
  have hphase : u.phase = .run := by simp [took.fields, h.phase]
  have hopk : u.opk = .decCodes := by simp [took.fields, ho]
  have hfault : u.pfault = none := by simp [took.fields, held_none h.inv (by simp [ho])]
  have hagenda : u.agenda = [] := by simp [took.fields, h.agenda]
  obtain ⟨i, hdec, hexec⟩ := fetchCode_runs hread (hanswer.symm.trans hstep)
  obtain ⟨tphase, tinq, tracc, topk⟩ := exec_code_stage hphase hopk hdec hexec
  obtain ⟨trem, tpend, tagenda, tfault⟩ := exec_code_framer hphase hopk hdec hexec
  refine ⟨⟨engine_step_inv h.inv h.agenda hstep, tphase, topk, tagenda.trans hagenda, ?_, ?_⟩, ?_⟩
  · exact (cutoff_of_eq tinq trem tpend).trans (hcut.trans h.ahead)
  · intro f j hf
    rcases tfault with hkept | ⟨k, hbad⟩
    · rw [hkept, hfault] at hf
      cases hf
    · rw [hbad] at hf
      cases hf
      exact .inl rfl
  · have hwidth : 1 ≤ s.w.toNat := by
      have hstage := h.inv.stage h.phase
      simp only [StageOk, ho] at hstage
      have := hstage.2.dict.width
      omega
    rw [workLeft_run tphase, workLeft_run h.phase, ho, tinq, tracc]
    rcases topk with topk | topk
    all_goals
      rw [topk]
      dsimp only
      omega

/-- With too few bits before the terminator the drain begins, `OUT_OF_DATA` held and the terminator consumed (R114,
R186). -/
theorem ReadsBlock.runs_out (h : ReadsBlock s c) (ho : s.opk = .decCodes) (took : Took s u) (hcut : u.cutoff = s.cutoff)
    (hstep : step s = .next (raise .outOfData 0 u)) :
    ReadsBlock (raise .outOfData 0 u) c ∧ workLeft (raise .outOfData 0 u) < workLeft s := by
  have hinv := engine_step_inv h.inv h.agenda hstep
  have hphase : u.phase = .run := by simp [took.fields, h.phase]
  rw [raise_held hphase (by simp [took.fields, ho]) (.inr rfl)] at hinv ⊢
  refine ⟨⟨hinv, hphase, .inr rfl, by simp [took.fields, h.agenda], hcut.trans h.ahead, fun f i hf => ?_⟩, ?_⟩
  · cases hf
    exact .inr ⟨rfl, rfl⟩
  · obtain ⟨q, hq⟩ := took.tokens
    have hlen := congrArg List.length hq
    rw [List.length_append] at hlen
    simp only [workLeft, hphase, h.phase, ho]
    omega

/-- A step of the code loop ends the operation, runs a code, or goes to the drain. -/
theorem ReadsBlock.reads_code (h : ReadsBlock s c) (hc : c ≠ .waiting) (ho : s.opk = .decCodes) :
    ∃ t, step s = .next t ∧ (EndsBlock t c ∨ (ReadsBlock t c ∧ workLeft t < workLeft s)) := by
  have hanswer := step_decCodes_nil h.agenda h.phase ho
  have htakes := readBits_takes s.w.toNat s
  cases hread : readBits s.w.toNat s with
  | ok v u =>
    obtain ⟨t, hnext⟩ := engine_next h.inv
    have hstep : step s = .next t := (engine_step_nil h.agenda).trans hnext
    rw [hread] at htakes
    rcases htakes with htakes | ⟨_, hraised, -⟩
    · cases htakes with
      | ok _ _ ahead => exact ⟨t, hstep, .inr (h.runs_code ho hread ahead hstep)⟩
    · cases hraised
  | stall =>
    rw [hread] at htakes
    rcases htakes with htakes | ⟨_, hraised, -⟩
    · cases htakes with
      | stall ahead => exact absurd (h.ahead.symm.trans ahead) hc
    · cases hraised
  | raised s' =>
    have hstep := hanswer.trans (fetchCode_raised hread)
    refine ⟨s', hstep, ?_⟩
    rw [hread] at htakes
    rcases htakes with htakes | ⟨u, hraised, took, -, ahead⟩
    · cases htakes with
      | ioFail _ ahead => exact .inl (h.ahead ▸ endsBlock_ioFail ahead)
    · cases hraised
      exact .inr (h.runs_out ho took ahead hstep)

/-- A DECODE ends with the block it reads, since every step of it takes work off what is ahead (R187, R210, R242). -/
theorem ReadsBlock.ends (h : ReadsBlock s c) (hc : c ≠ .waiting) :
    ∃ k u, runSteps k s = .next u ∧ EndsBlock u c := by
  induction hwork : workLeft s using Nat.strong_induction_on generalizing s with
  | _ n ih =>
    obtain ⟨t, hstep, hend | ⟨hgoes, hless⟩⟩ := h.stage.elim (h.reads_code hc) (h.drains hc)
    · exact ⟨1, t, runSteps_one hstep, hend⟩
    · obtain ⟨k, u, hrun, hend⟩ := ih _ (hwork ▸ hless) hgoes rfl
      exact ⟨k + 1, u, (runSteps_succ k _ _ hstep).trans hrun, hend⟩

/-- Behind the command, a legal width byte starts the code loop on the block behind it (R183). -/
theorem startDecode_reads {v : Byte} {block : List Token} (hinv : Inv s) (hagenda : s.agenda = [])
    (hinq : s.inq = .byte v :: block) (h2 : 2 ≤ v.toNat) (h8 : v.toNat ≤ 8) :
    ∃ t, step (startDecode s) = .next t ∧ ReadsBlock t (arriving 0 block).2 := by
  have hagenda' : (startDecode s).agenda = [] := hagenda
  have hstep : step (startDecode s) = execWidthByte v { startDecode s with inq := block } := by
    have hinq' : (startDecode s).inq = .byte v :: block := hinq
    rw [step_decWidth (engineTurn_nil hagenda') rfl rfl, afterTurn_nil hagenda', fetchWidth_byte hinq']
  rw [execWidthByte, if_neg (by omega)] at hstep
  refine ⟨_, hstep, engine_step_inv (startDecode_inv hinv) hagenda' hstep, rfl, .inl rfl, hagenda, rfl, ?_⟩
  intro f i hf
  cases hf

end

/-- Settles O58: the width byte leaves a DECODE that reads the block, every step of it keeps that or ends the operation
behind the block, and the work left falls. -/
theorem decodeConsumesItsBlock : Obligations.DecodeConsumesItsBlock := by
  unfold Obligations.DecodeConsumesItsBlock
  intro s w v block rest p hinv hrun hagenda hinq h2 h8
  obtain ⟨t, hstep, hreads⟩ := startDecode_reads hinv hagenda hinq h2 h8
  have hends : ∀ c, arriving 0 block = (p, c) → c ≠ .waiting →
      ∃ k u, runSteps k (startDecode s) = .next u ∧ EndsBlock u c := by
    rintro c hc hne
    rw [hc] at hreads
    obtain ⟨k, u, hrun, hend⟩ := hreads.ends hne
    exact ⟨k + 1, u, (runSteps_succ k _ _ hstep).trans hrun, hend⟩
  exact ⟨_, exec_cmdDecode w hrun, fun h => hends _ (arriving_terminator.mpr h) (by simp),
    fun h => hends _ h (by simp)⟩

end Sys2Proof.Machine
end

section
/-! The family of the bit packer (41_bit_packer.md): codes written with their widths and framed are the codes read back with
the same widths, and a step runs the instruction that the word it takes decodes to. -/

namespace Sys2Proof.Machine

/-! ## Codes written and read back (R110, R111, R113, R116) -/

section
variable {s r : State} {cs : List (Nat × Nat)}

/-- The code-stream bits of codes with their widths. -/
def codeBits (cs : List (Nat × Nat)) : List Bool := cs.flatMap (fun c => bitsOf c.1 c.2)

theorem codeBits_cons (c : Nat × Nat) (cs : List (Nat × Nat)) : codeBits (c :: cs) = bitsOf c.1 c.2 ++ codeBits cs := rfl

/-- On a byte boundary, codes and `Flush()` put the codes' bits and fewer than 8 zero bits into the code stream, which then
ends on a byte boundary again (R110, R111). -/
theorem flush_writeCodes_gains (cs : List (Nat × Nat)) (hc : s.chunk.length < 255) (hw : s.wacc = []) (hcur : s.wcur = 0) :
    ∃ pad, pad < 8 ∧ StreamGains (codeBits cs ++ List.replicate pad false) s (flush (writeCodes cs s)) ∧
      (flush (writeCodes cs s)).wacc = [] := by
  have hroom : s.wacc.length < 8 := by simp [hw]
  have hcodes := writeCodes_wrote cs s
  have hroom' := hcodes.wacc hroom
  have hmod := hcodes.cursor_mod (by simp [hw, hcur]) hroom
  have hflush := flush_wrote (writeCodes cs s) hroom'
  exact ⟨_, Nat.mod_lt _ (by omega), (hcodes.trans hflush).gains hc hroom, flush_wacc _ hmod hroom'⟩

/-- A code's bits at the head of the payload are read as the code (R75, R113). -/
theorem readBits_code {v w : Nat} {bs : List Bool} (hv : v < 2 ^ w) (h : payloadAhead r = some (bitsOf v w ++ bs)) :
    ∃ t, readBits w r = .ok v t ∧ payloadAhead t = some bs := by
  obtain ⟨t, hread, hahead, -⟩ := (readBits_ahead (w := w) h).1 (by simp)
  rw [List.take_left' (bitsOf_length v w), ofBits_bitsOf, Nat.mod_eq_of_lt hv] at hread
  rw [List.drop_left' (bitsOf_length v w)] at hahead
  exact ⟨t, hread, hahead⟩

/-- Codes at the head of the payload are read one by one, each with its width (R113, R116). -/
theorem readCodes_codeBits {bs : List Bool} (hfit : ∀ c ∈ cs, c.1 < 2 ^ c.2)
    (h : payloadAhead r = some (codeBits cs ++ bs)) :
    ∃ t, readCodes (cs.map Prod.snd) r = .ok (cs.map Prod.fst) t ∧ payloadAhead t = some bs := by
  induction cs generalizing r with
  | nil => exact ⟨r, rfl, h⟩
  | cons c cs ih =>
    rw [codeBits_cons, List.append_assoc] at h
    obtain ⟨t, hread, hahead⟩ := readBits_code (hfit c List.mem_cons_self) h
    obtain ⟨u, hreads, hrest⟩ := ih (fun d hd => hfit d (List.mem_cons_of_mem c hd)) hahead
    exact ⟨u, by simp only [List.map_cons, readCodes, hread, hreads], hrest⟩

/-- A reader in front of `Frame(P)` has the bits of `P` ahead (R107). -/
theorem payloadAhead_frame {p : List Byte} {rest : List Token} (hpend : r.pend = false) (hrem : r.rem = 0)
    (hracc : r.racc = []) (hinq : r.inq = (frame p).map Token.byte ++ rest) : payloadAhead r = some (payloadBits p) := by
  have hdeframe : deframe r.rem.toNat r.inq = some (p, rest) := by
    rw [hrem, hinq]
    exact frameRoundTrip p rest
  rw [payloadAhead_of_deframe hpend hdeframe, hracc, List.nil_append]

end

/-- Settles O22: the payload that was framed is the codes' bits and the padding, and reading takes the codes' bits off it, code
by code. -/
theorem packerRoundTrip : Obligations.PackerRoundTrip := by
  unfold Obligations.PackerRoundTrip
  intro s r cs rest hchunk hwacc hwcur hfit
  obtain ⟨pad, hpad, hgains, hend⟩ := flush_writeCodes_gains cs (by simp [hchunk]) hwacc hwcur
  obtain ⟨p, hpayload, hout⟩ := hgains.framed hend
  have hempty : pendingBits s = [] := by simp [pendingBits_eq, hchunk, hwacc]
  rw [hempty, List.nil_append] at hpayload
  refine ⟨p, pad, hout, hpayload, hpad, fun hpend hrem hracc hinq => ?_⟩
  have hahead := payloadAhead_frame hpend hrem hracc hinq
  rw [hpayload] at hahead
  obtain ⟨r', hread, -⟩ := readCodes_codeBits hfit hahead
  exact ⟨r', hread⟩

/-! ## The instruction a step runs (R105, R140, R183, R184, R185, R192) -/

section
variable {s t : State} {q : List Token}

/-- A host's write of `CTRL` runs the command it decodes to (R31, R192). -/
theorem step_ctrl {v : HostWord} {rest : List Turn} (h : s.agenda = .host (.memWrite 0 4 v) :: rest) :
    step s = exec (decodeCommand v) s.afterTurn := by
  rw [host_step h, State.afterTurn, h]
  rfl

/-- A code that has been read is the instruction that runs (R140, R184). -/
theorem fetchCode_instr {c : Nat} {i : Instr} (hread : readBits s.w.toNat s = .ok c t)
    (hdec : decode t.codeContext (.code (BitVec.ofNat 12 c)) = .instr i) : (fetchCode s).answer = exec i t := by
  simp only [fetchCode, hread, hdec]
  rfl

/-- R105: the length byte 0 is the terminator. -/
theorem exec_decodeLength_zero (s : State) : exec (decodeLength 0) s = .next { s with pend := true } :=
  (lengthBytesExecute s 0).1

/-- R105: any other length byte is the length of a chunk. -/
theorem exec_decodeLength_pos {v : Byte} (hv : v ≠ 0) (s : State) :
    exec (decodeLength v) s = .next { s with rem := v } := by
  rw [decodeLength, if_neg hv]
  exact (lengthBytesExecute s v).2

theorem drainStep_eop (h : frameGet s = .ok none t) : drainStep s = endDrain t := by rw [drainStep, h]

theorem drainStep_byte {v : Byte} (h : frameGet s = .ok (some v) t) : drainStep s = t := by rw [drainStep, h]

/-- A drain's step that takes a length byte runs it, and then ends the drain or takes the chunk's first byte (R105, R185). -/
theorem drainStep_length {v : Byte} (hpend : s.pend = false) (hrem : s.rem = 0) (hinq : s.inq = .byte v :: q) :
    ∃ t, exec (decodeLength v) { s with inq := q } = .next t ∧ (v = 0 → drainStep s = endDrain t) ∧
      ∀ u q', v ≠ 0 → q = .byte u :: q' → drainStep s = { t with inq := q', rem := t.rem - 1 } := by
  by_cases hv : v = 0
  · subst hv
    exact ⟨_, exec_decodeLength_zero _, fun _ => drainStep_eop (frameGet_terminator hpend hrem hinq),
      fun _ _ hne => absurd rfl hne⟩
  · refine ⟨_, exec_decodeLength_pos hv _, fun h0 => absurd h0 hv, fun u q' _ hq => ?_⟩
    have hget := (frameGet_length hpend hrem hv hinq).trans (takeChunkByte_byte hq)
    exact drainStep_byte hget

end

/-- Settles O6: at each of the four places the step is what runs the word that was taken, and the decoder answers that
instruction. -/
theorem stepRunsDecodedInstruction : Obligations.StepRunsDecodedInstruction := by
  unfold Obligations.StepRunsDecodedInstruction
  refine ⟨fun s v rest i ha hdec => ?_, fun s v q i hturn hp ho hinq hdec => ?_, fun s s' c i hturn hp ho hread hdec => ?_,
    fun s s' hturn hp ho hread => ?_, fun s v q i hturn hp ho hpend hrem hinq hdec => ?_⟩
  · cases hdec
    exact step_ctrl ha
  · cases hdec
    rw [step_decWidth hturn hp ho, fetchWidth_byte (s := s.afterTurn) hinq]
    rfl
  · rw [step_decCodes hturn hp ho, fetchCode_instr (s := s.afterTurn) hread hdec]
  · rw [step_decCodes hturn hp ho, fetchCode_raised (s := s.afterTurn) hread]
  · cases hdec
    rw [engine_drain hturn hp ho]
    obtain ⟨t, hexec, hterm, hlen⟩ := drainStep_length (s := s.afterTurn) hpend hrem hinq
    exact ⟨t, hexec, fun hv => congrArg _ (hterm hv), fun u q' hv hq => congrArg _ (hlen u q' hv hq)⟩

end Sys2Proof.Machine
end

section
/-! The family of the dictionary (42_dictionary.md): no step of the invariant stops but a host step that breaks its
precondition, what an add, a literal and a learned code do, the encoder's lookup, the length of a sequence, and how `W`
changes. -/

namespace Sys2Proof.Machine

/-! ## Where a step stops (R125, R129, R151, R192) -/

section
variable {s : State}

theorem accessOk_iff {off size : Nat} : accessOk off size = true ↔ size = 4 ∧ off % 4 = 0 ∧ off ≤ 0xFC := by
  simp [accessOk, and_assoc]

/-- A command answers a next state in every phase (R191). -/
theorem command_next (effect : State → State) (s : State) : ∃ t, command effect s = .next t := by
  unfold command
  split <;> exact ⟨_, rfl⟩

theorem exec_decodeCommand_next (v : HostWord) (s : State) : ∃ t, exec (decodeCommand v) s = .next t := by
  unfold decodeCommand
  split
  all_goals exact command_next _ s

/-- A host step answers a next state exactly when its precondition holds (R56, R192, R230). -/
theorem fetchHost_next_iff (h : HostStep) (s : State) : (∃ t, (fetchHost h s).answer = .next t) ↔ h.admitted s := by
  cases h with
  | memWrite off size v =>
    rw [HostStep.admitted, ← accessOk_iff, fetchHost]
    cases hok : accessOk off size with
    | false => simp [Fetched.answer]
    | true =>
      by_cases h0 : off = 0
      · simpa [h0, decode, Fetched.ofDecoded, Fetched.answer] using exec_decodeCommand_next v s
      · simp [h0, Fetched.answer]
  | memRead off size =>
    rw [HostStep.admitted, ← accessOk_iff, fetchHost]
    cases accessOk off size <;> simp [Fetched.answer]
  | push tok => exact ⟨fun _ => trivial, fun _ => ⟨_, rfl⟩⟩
  | pop =>
    rw [HostStep.admitted, fetchHost]
    cases s.outq <;> simp [Fetched.answer]
  | discard =>
    rw [HostStep.admitted, fetchHost]
    by_cases hp : s.phase = .run <;> simp [hp, Fetched.answer]
  | powerOn => exact ⟨fun _ => trivial, fun _ => ⟨_, rfl⟩⟩

theorem admitted_agenda (h : HostStep) (s : State) (rest : List Turn) :
    h.admitted { s with agenda := rest } ↔ h.admitted s := by
  cases h <;> exact Iff.rfl

/-- The next turn is the engine's, or a step of the host. -/
theorem engineTurn_or_host (s : State) : s.engineTurn ∨ ∃ h rest, s.agenda = .host h :: rest := by
  by_cases hturn : s.engineTurn
  · exact .inl hturn
  · unfold State.engineTurn at hturn
    push Not at hturn
    exact .inr hturn

end

/-- Settles O52: the engine's turn never stops from the invariant, and a host step stops exactly where its precondition
fails. -/
theorem invariantNeverStops : Obligations.InvariantNeverStops := by
  unfold Obligations.InvariantNeverStops
  intro s hinv
  rcases engineTurn_or_host s with hturn | ⟨h, rest, ha⟩
  · have hnext : ∃ t, step s = .next t := by
      rw [engine_step hturn]
      exact engine_next (hinv.of_ports rfl)
    exact ⟨fun _ h rest ha => absurd ha (hturn h rest), fun _ => hnext⟩
  · have hstep : step s = (fetchHost h { s with agenda := rest }).answer := host_step ha
    rw [hstep, fetchHost_next_iff, admitted_agenda]
    refine ⟨fun hadm h' rest' ha' => ?_, fun hall => hall h rest ha⟩
    rw [ha] at ha'
    cases ha'
    exact hadm

/-! ## An add (R126) -/

/-- Settles O30: the slot written is that of the old `N`, which is a code of the RAM. -/
theorem addWritesOneSlot : Obligations.AddWritesOneSlot := by
  unfold Obligations.AddWritesOneSlot
  intro s p x f hn hwf
  exact ⟨n_succ hn, Memory.write_wf hwf hn, dictAdd_entry p x f s, fun c hc => Memory.read_write_other _ _ hc, rfl⟩

/-! ## The data codes (R144 to R146) -/

/-- Settles O25: the sequence of a literal is its index alone, and the rest is what `KnownEntry` does. -/
theorem literalExecutes : Obligations.LiteralExecutes := by
  unfold Obligations.LiteralExecutes
  intro s i x hd hlit hroom
  obtain ⟨hexec, -, hb, hx⟩ := literal_exec hlit s
  have hcode : (x.setWidth 12).toNat = x.toNat := (literal_toNat (Nat.le_refl 8) x).1
  have hlt : (x.setWidth 12).toNat < s.clearCode := hcode ▸ hx
  obtain ⟨f, q, t, hseq, -, hnext, hout, hadds, hprev, hjr, hsame⟩ :=
    knownEntry_runs hd (dataCode_literal hd.dict hlt) hroom
  rw [seqOf_literal hlt, hcode, BitVec.ofNat_toNat, BitVec.setWidth_eq] at hseq
  cases hseq
  exact ⟨t, hexec.trans hnext, hout, hadds, hprev, hjr, hsame⟩

/-- Settles O26: `LEARNED` is `KnownEntry` of a valid learned code. -/
theorem learnedExecutes : Obligations.LearnedExecutes := by
  unfold Obligations.LearnedExecutes
  intro s c hd hlo hhi hroom
  obtain ⟨f, q, t, hseq, -, hnext, hrest⟩ := knownEntry_runs hd (dataCode_learned hlo hhi) hroom
  exact ⟨f, q, t, hseq, hnext, hrest⟩

/-! ## The encoder's lookup (R130, R131, R162, R163) -/

section
variable {s : State} {p : Code} {x : Byte} {c : Nat}

/-- `DictFind` hits exactly the learned code whose slot holds the pair, which is at most one (R130, R131). -/
theorem EncoderOk.dictFind_iff (h : EncoderOk s) (hwf : s.mem.wf = true) : dictFind s p x = some c ↔
    s.firstLearned ≤ c ∧ c < s.n.toNat ∧ ∃ e, s.mem.read c = some e ∧ e.pfx = p ∧ e.sfx = x := by
  refine ⟨dictFind_some hwf, fun ⟨hlo, hhi, e, he, hpfx, hsfx⟩ => ?_⟩
  cases hfind : dictFind s p x with
  | none => exact absurd ⟨hpfx, hsfx⟩ (dictFind_none hfind hlo hhi he)
  | some d =>
    obtain ⟨hdlo, hdhi, e', he', hpfx', hsfx'⟩ := dictFind_some hwf hfind
    rw [h.unique d c e' e hdlo hdhi hlo hhi he' he (hpfx'.trans hpfx.symm) (hsfx'.trans hsfx.symm)]

/-- A learned code's slot holds the pair `(p, x)` exactly when `seq(c) = seq(p) ++ [x]` (R120, R131). -/
theorem EncoderOk.pair_iff_seq (h : EncoderOk s) (hp : s.dataCode p.toNat) (hlo : s.firstLearned ≤ c)
    (hhi : c < s.n.toNat) : (∃ e, s.mem.read c = some e ∧ e.pfx = p ∧ e.sfx = x) ↔
      ∃ q, seqOf s p.toNat = some q ∧ seqOf s c = some (q ++ [x]) := by
  obtain ⟨e, q, he, -, hpfx, hq, -, hc⟩ := seq_length_two h.dict hlo hhi
  constructor
  · rintro ⟨e', he', rfl, rfl⟩
    obtain rfl := Option.some.inj (he.symm.trans he')
    exact ⟨q, hq, hc⟩
  · rintro ⟨q', hq', hc'⟩
    obtain ⟨rfl, hlast⟩ := List.append_inj' (Option.some.inj (hc.symm.trans hc')) rfl
    exact ⟨e, he, BitVec.eq_of_toNat_eq (seq_inj h _ _ q hpfx hp hq hq'), List.singleton_inj.mp hlast⟩

/-- `EncodeIndex` where there is no candidate yet (R162). -/
theorem encodeIndex_first (hx : x.toNat < 2 ^ s.b.toNat) (hv : s.candV = false) :
    encodeIndex x s = .next { s with cand := x.setWidth 12, candV := true } := by
  unfold encodeIndex
  rw [if_neg (show ¬ s.clearCode ≤ x.toNat from Nat.not_le_of_lt hx), if_pos hv]

/-- `EncodeIndex` where the candidate and the index are an entry (R163). -/
theorem encodeIndex_hit (hx : x.toNat < 2 ^ s.b.toNat) (hv : s.candV = true) (hc : dictFind s s.cand x = some c) :
    encodeIndex x s = .next { s with cand := BitVec.ofNat 12 c } := by
  unfold encodeIndex
  rw [if_neg (show ¬ s.clearCode ≤ x.toNat from Nat.not_le_of_lt hx), if_neg (by simp [hv]), hc]

end

/-- Settles O48: a hit is the one slot that holds the pair, and the sequences of the encoder's dictionary tell its codes
apart. -/
theorem lookupIsExact : Obligations.LookupIsExact := by
  unfold Obligations.LookupIsExact
  intro s p x c hwf h hp
  refine ⟨h.dictFind_iff hwf, (h.dictFind_iff hwf).trans ?_⟩
  exact and_congr_right fun hlo => and_congr_right fun hhi => h.pair_iff_seq hp hlo hhi

/-- Settles O44: the step is `EncodeIndex`, by whether there is a candidate; the slot named is the one that the search
finds. -/
theorem candidateGrows : Obligations.CandidateGrows := by
  unfold Obligations.CandidateGrows
  intro s x q htake hx
  rw [engine_encIndex htake]
  refine ⟨fun hv => encodeIndex_first hx hv, fun c e hwf hv h hlo hhi he hpfx hsfx => ?_⟩
  exact encodeIndex_hit hx hv ((h.dictFind_iff hwf).mpr ⟨hlo, hhi, e, he, hpfx, hsfx⟩)

/-! ## The length of a sequence (R122) -/

/-- R122: by induction on the code, since the code that it extends is a literal or a smaller learned code. -/
theorem DictOk.seq_length_le {s : State} (hd : DictOk s) {c : Nat} {q : List Byte} (hlo : s.firstLearned ≤ c)
    (hhi : c < s.n.toNat) (hq : seqOf s c = some q) : q.length ≤ c - s.firstLearned + 2 := by
  induction c using Nat.strong_induction_on generalizing q with
  | _ c ih =>
    obtain ⟨e, q', -, hlt, hpfx, hq', -, hseq⟩ := seq_length_two hd hlo hhi
    cases hseq.symm.trans hq
    rw [List.length_append, List.length_singleton]
    rcases dataCode_cases hpfx with hlit | hlearned
    · cases (seqOf_literal hlit).symm.trans hq'
      exact Nat.le_add_left 2 _
    · have hle := ih _ hlt hlearned hpfx.1 hq'
      omega

/-- Settles O55: a literal's sequence is its index, a learned code's has one index more than that of the code it extends. -/
theorem sequenceLengths : Obligations.SequenceLengths := by
  unfold Obligations.SequenceLengths
  intro s c hd hc
  have hfirst := clearCode_lt_firstLearned s
  rcases dataCode_cases hc with hlit | hlearned
  · exact ⟨_, seqOf_literal hlit, Nat.le_add_left 1 4090, fun _ => rfl, fun hlo => by omega⟩
  · obtain ⟨e, q, he, -, -, hq, -, hseq⟩ := seq_length_two hd hlearned hc.1
    have hle := hd.seq_length_le hlearned hc.1 hseq
    have hbase : 6 ≤ s.firstLearned := Nat.add_le_add_right (two_pow_b_bounds hd.base).1 2
    have hn : c < 4096 := Nat.lt_of_lt_of_le hc.1 hd.size.2
    exact ⟨_, hseq, by omega, fun hlit => by omega, fun _ => ⟨hle, e, q, he, hq, List.length_append⟩⟩

/-! ## How the width changes (R127, R128, R135, R166) -/

section
variable {s t u : State}

/-- `W` may rise by one where `N` has reached `2^W`, or go back to `b + 1` with a fresh epoch; `B` stays (R135). -/
def WidthMoves (s t : State) : Prop :=
  t.b = s.b ∧
    (t.w = s.w ∨
      (t.w.toNat = s.w.toNat + 1 ∧ s.w.toNat < 12 ∧ 2 ^ s.w.toNat ≤ t.n.toNat ∧ s.n.toNat ≤ t.n.toNat) ∨
      (t.w.toNat = s.b.toNat + 1 ∧ t.n.toNat = s.firstLearned ∧ t.jr = true))

theorem WidthMoves.of_same (hb : t.b = s.b) (hw : t.w = s.w) : WidthMoves s t := ⟨hb, .inl hw⟩

/-- What comes before a move may leave `B`, `N` and `W` alone. -/
theorem WidthMoves.after (h : WidthMoves u t) (hb : u.b = s.b) (hn : u.n = s.n) (hw : u.w = s.w) : WidthMoves s t := by
  simpa only [WidthMoves, State.firstLearned, hb, hn, hw] using h

/-- What comes behind a move may leave `B`, `N`, `W` and `JR` alone. -/
theorem WidthMoves.before (h : WidthMoves s t) (hb : u.b = t.b) (hn : u.n = t.n) (hw : u.w = t.w) (hj : u.jr = t.jr) :
    WidthMoves s u := by
  simpa only [WidthMoves, hb, hn, hw, hj] using h

theorem raise_widthMoves (c : ErrCode) (i : BitVec 16) (s : State) : WidthMoves s (raise c i s) :=
  .of_same (by simp) (by simp)

/-- Taking operands leaves `B`, `N` and `W` alone. -/
theorem Took.widthMoves (h : Took s u) (ht : WidthMoves u t) : WidthMoves s t :=
  ht.after (by simp [h.fields]) (by simp [h.fields]) (by simp [h.fields])

theorem dictReset_widthMoves (h : 2 ≤ s.b.toNat ∧ s.b.toNat ≤ 8) : WidthMoves s (dictReset s) :=
  ⟨rfl, .inr (.inr ⟨dictReset_w_toNat h, dictReset_n_toNat h, rfl⟩)⟩

/-- A width test moves `W` by the law where what it tests is `2^W ≤ N` or more (R127, R128, R166). -/
theorem widthMoves_of_test {c : Prop} [Decidable c] (hb : t.b = s.b) (hn : s.n.toNat ≤ t.n.toNat)
    (hc : c → 2 ^ s.w.toNat ≤ t.n.toNat)
    (hw : t.w.toNat = if c ∧ s.w.toNat < 12 then s.w.toNat + 1 else s.w.toNat) : WidthMoves s t := by
  split at hw
  next h => exact ⟨hb, .inr (.inl ⟨hw, h.2, hc h.1, hn⟩)⟩
  next => exact .of_same hb (BitVec.eq_of_toNat_eq hw)

theorem encoderGrowth_dictAdd_widthMoves (p : Code) (x f : Byte) (hn : s.n.toNat < 4096) :
    WidthMoves s (encoderGrowth (dictAdd p x f s)) := by
  have hsize : (encoderGrowth (dictAdd p x f s)).n.toNat = s.n.toNat + 1 := by
    rw [encoderGrowth_n, dictAdd_n, n_succ hn]
  refine widthMoves_of_test (by simp) (by omega) (fun h => ?_) encoderGrowth_w
  rw [hsize, ← n_succ hn]
  exact h.le

theorem DecoderAdds.widthMoves {f : Byte} (h : DecoderAdds f s t) (hb : t.b = s.b) : WidthMoves s t := by
  unfold DecoderAdds at h
  split at h
  · exact .of_same hb h.2.1
  · obtain ⟨hn, hw, -⟩ := h
    exact widthMoves_of_test hb (by omega) (fun h => hn ▸ h) hw

theorem knownEntry_widthMoves {c : Code} (hd : DecoderOk s) (hc : s.dataCode c.toNat)
    (h : knownEntry c s = .next t) : WidthMoves s t := by
  by_cases hfull : s.tableFull ∧ s.cfg.fullTable = .fault
  · unfold knownEntry at h
    rw [if_pos ⟨hfull.1.1, hfull.1.2, hfull.2⟩] at h
    cases h
    exact raise_widthMoves _ _ s
  · obtain ⟨f, q, t', -, -, hnext, -, hadds, -, -, hsame⟩ := knownEntry_runs hd hc hfull
    cases hnext.symm.trans h
    exact hadds.widthMoves (by rw [hsame])

theorem exec_code_widthMoves {c : Code} {i : Instr} (hd : DecoderOk s) (hi : decodeCode s.b s.n s.jr c = .instr i)
    (h : exec i s = .next t) : WidthMoves s t := by
  obtain ⟨-, hclass⟩ := decodeCode_cases hi
  rcases hclass with ⟨-, hrow⟩ | ⟨-, hrow⟩ | ⟨hc, hrow⟩ | ⟨hlo, hc, rfl⟩ | ⟨-, hc, hj, rfl⟩ | ⟨-, -, -, rfl⟩ |
    ⟨-, -, rfl⟩
  · rw [exec_clearRow hrow] at h
    cases h
    exact dictReset_widthMoves hd.dict.base
  · rw [exec_eoiRow hrow] at h
    cases h
    exact .of_same rfl rfl
  · rw [exec_literalRow hrow hc] at h
    exact knownEntry_widthMoves hd (dataCode_literal hd.dict hc) h
  · exact knownEntry_widthMoves hd (dataCode_learned hlo hc) h
  · obtain ⟨f, q, t', -, hnext, -, hadds, -, -, -, -, hsame⟩ := notYetMaterialised_runs hd hj hc
    cases hnext.symm.trans h
    exact hadds.widthMoves (by rw [hsame])
  · cases h
    exact raise_widthMoves _ _ s
  · cases h
    exact raise_widthMoves _ _ s

theorem fetchCode_widthMoves (hd : DecoderOk s) (h : (fetchCode s).answer = .next t) : WidthMoves s t := by
  cases hread : readBits s.w.toNat s with
  | stall =>
    cases (fetchCode_stall hread).symm.trans h
    exact .of_same rfl rfl
  | raised u =>
    cases (fetchCode_raised hread).symm.trans h
    obtain ⟨v, htook, -, hraise⟩ := readBits_raised hread
    rcases hraise with rfl | ⟨-, rfl⟩
    all_goals exact htook.widthMoves (raise_widthMoves _ _ v)
  | ok c u =>
    obtain ⟨htook, -⟩ := readBits_ok hread
    obtain ⟨i, hdec, hexec⟩ := fetchCode_runs hread h
    have hdu : DecoderOk u := hd.same (by simp [htook.fields]) (by simp [htook.fields]) (by simp [htook.fields])
      (by simp [htook.fields]) (by simp [htook.fields]) (by simp [htook.fields])
    exact htook.widthMoves (exec_code_widthMoves hdu hdec hexec)

theorem endDrain_widthMoves (s : State) : WidthMoves s (endDrain s) := by
  unfold endDrain
  split
  · exact .of_same rfl rfl
  · exact .of_same (by simp) (by simp)

theorem drainStep_widthMoves (s : State) : WidthMoves s (drainStep s) := by
  unfold drainStep
  split
  case h_1 => exact .of_same rfl rfl
  case h_2 t hget =>
    obtain ⟨u, htook, -, -, rfl⟩ := frameGet_raised hget
    exact htook.widthMoves (raise_widthMoves _ _ u)
  case h_3 t hget => exact (frameGet_took hget).widthMoves (endDrain_widthMoves t)
  case h_4 v t hget => exact (frameGet_took hget).widthMoves (.of_same rfl rfl)

theorem encMiss_widthMoves {x : Byte} (hn : s.n.toNat < 4096) (h : encMiss x s = .next t) : WidthMoves s t := by
  unfold encMiss at h
  split at h
  case h_1 => cases h
  case h_2 f _ =>
    cases h
    have hadd := encoderGrowth_dictAdd_widthMoves (s := writeBits s.cand.toNat s.w.toNat s) s.cand x f
      (by simpa using hn)
    exact (hadd.after (by simp) (by simp) (by simp)).before rfl rfl rfl rfl

theorem encMissFull_widthMoves {x : Byte} (hb : 2 ≤ s.b.toNat ∧ s.b.toNat ≤ 8) (h : encMissFull x s = .next t) :
    WidthMoves s t := by
  cases h
  have hreset := dictReset_widthMoves (s := writeBits s.clearCode s.w.toNat (writeBits s.cand.toNat s.w.toNat s))
    (by simpa using hb)
  exact (hreset.after (by simp) (by simp) (by simp)).before rfl rfl rfl rfl

theorem encodeIndex_widthMoves {x : Byte} (hb : 2 ≤ s.b.toNat ∧ s.b.toNat ≤ 8) (h : encodeIndex x s = .next t) :
    WidthMoves s t := by
  unfold encodeIndex at h
  split at h
  · cases h
    exact raise_widthMoves _ _ s
  split at h
  · cases h
    exact .of_same rfl rfl
  split at h
  · cases h
    exact .of_same rfl rfl
  split at h
  next hn => exact encMiss_widthMoves hn h
  next => exact encMissFull_widthMoves hb h

theorem encIndexStep_widthMoves (hb : 2 ≤ s.b.toNat ∧ s.b.toNat ≤ 8) (h : encIndexStep s = .next t) :
    WidthMoves s t := by
  unfold encIndexStep at h
  split at h
  · cases h
    exact .of_same rfl rfl
  · cases h
    exact .of_same rfl rfl
  · rename_i x q _
    exact encodeIndex_widthMoves (s := { s with inq := q }) hb h

/-- The one width test of `EncodeFinish` is that of `EOI` (R166). -/
theorem encFinishStep_widthMoves (hb : BufferOk s) (h : encFinishStep s = .next t) : WidthMoves s t := by
  cases h
  have hsame := encodeFinish_same hb
  have hn : (encodeFinish s).n = s.n := by rw [hsame]
  have hw : (encodeFinish s).w.toNat = _ := (congrArg (fun u : State => u.w.toNat) hsame).trans (eoiWidth s)
  have hfinish : WidthMoves s (encodeFinish s) :=
    widthMoves_of_test (by rw [hsame]) (by rw [hn]) (fun h => by rw [hn, h]) hw
  exact hfinish.before (by simp) (by simp) (by simp) (by simp)

/-- By the stage of the operation, an engine step after the width byte moves `W` by the law. -/
theorem fetchEngine_widthMoves (hinv : Inv s) (hp : s.phase = .run) (hne : s.opk ≠ .decWidth)
    (h : (fetchEngine s).answer = .next t) : WidthMoves s t := by
  have hstage := hinv.stage hp
  unfold fetchEngine at h
  rw [hp] at h
  cases ho : s.opk with
  | encIndex =>
    rw [StageOk, ho] at hstage
    exact encIndexStep_widthMoves hstage.2.dict.base (by rwa [ho] at h)
  | encFinish => exact encFinishStep_widthMoves hinv.buffers (by rwa [ho] at h)
  | decWidth => exact absurd ho hne
  | decCodes =>
    rw [StageOk, ho] at hstage
    exact fetchCode_widthMoves hstage.2 (by rwa [ho] at h)
  | decDrain =>
    rw [ho] at h
    cases h
    exact drainStep_widthMoves s

theorem Inv.width_le (h : Inv s) : s.w.toNat ≤ 12 := by
  rcases h.dict with ⟨-, -, hw, -⟩ | hd
  · simp [hw]
  · exact hd.width.2

end

/-- Settles O56: the step moves `W` by the law of its stage, and the invariant that it keeps bounds `W`. -/
theorem widthLaws : Obligations.WidthLaws := by
  unfold Obligations.WidthLaws
  intro s t hinv hturn hp hne h
  have hle := (stepKeepsInvariant s t hinv h).width_le
  rw [step_eq_answer hturn] at h
  obtain ⟨hb, hmoves⟩ := fetchEngine_widthMoves (s := s.afterTurn) (hinv.of_ports rfl) hp hne h
  exact ⟨hb, hle, hmoves⟩

end Sys2Proof.Machine
end

section
/-! The family of the decode step (43_decode_step.md): the control codes, `KWKWK`, a known data code at a full table, the two
illegal classes, and what holds of the decoder between two codes. -/

namespace Sys2Proof.Machine

/-! ## The control codes (R142, R143) -/

/-- Settles O23: each row is the one of its base width, so it runs `DictReset`. -/
theorem clearResetsTheDictionary : Obligations.ClearResetsTheDictionary := by
  unfold Obligations.ClearResetsTheDictionary
  intro i k hmem s hk
  have hrow : clearRow k = some i := by
    simp only [List.mem_cons, Prod.mk.injEq, List.not_mem_nil, or_false] at hmem
    rcases hmem with ⟨rfl, rfl⟩ | ⟨rfl, rfl⟩ | ⟨rfl, rfl⟩ | ⟨rfl, rfl⟩ | ⟨rfl, rfl⟩ | ⟨rfl, rfl⟩ | ⟨rfl, rfl⟩ <;> rfl
  subst hk
  have hbase := clearRow_base hrow
  exact ⟨dictReset s, exec_clearRow hrow s, dictReset_n_toNat hbase, dictReset_w_toNat hbase, rfl, rfl⟩

/-- Settles O24: each row is the one of some base width, so it runs `ExecEoi`. -/
theorem eoiStartsTheDrain : Obligations.EoiStartsTheDrain := by
  unfold Obligations.EoiStartsTheDrain
  intro i hmem s
  have hrows : ∀ j ∈ [Instr.eoi2, Instr.eoi3, Instr.eoi4, Instr.eoi5, Instr.eoi6, Instr.eoi7, Instr.eoi8],
      ∃ k ∈ List.range 9, eoiRow k = some j := by decide
  obtain ⟨k, -, hrow⟩ := hrows i hmem
  exact exec_eoiRow hrow s

/-! ## The not-yet-materialised code (R148) -/

/-- Settles O27: `KWKWK` is `ExecKwKwK`. -/
theorem kwkwkExecutes : Obligations.KwkwkExecutes := by
  unfold Obligations.KwkwkExecutes
  exact fun s c hd hj hc => notYetMaterialised_runs hd hj hc

/-! ## Codes that fault (R147, R149, R150, R186) and a known data code at a full table (R144, R147) -/

section
variable {s : State} {c : Code} {i : Instr}

/-- `BAD_CODE` in the code loop is held for the drain (R186). -/
theorem badCode_held (hp : s.phase = .run) (ho : s.opk = .decCodes) :
    badCode c s = .next { s with pfault := some (.badCode, c.setWidth 16), opk := .decDrain } :=
  congrArg Host.Outcome.next (raise_held hp ho (.inl rfl))

/-- A literal or learned code of the state is a valid data code, and runs `KnownEntry` (R145, R146). -/
theorem knownCode_exec (hd : DictOk s) (hi : i.knownCode s c) :
    s.dataCode c.toNat ∧ exec i s = knownEntry c s := by
  rcases hi with ⟨x, hlit, rfl⟩ | ⟨rfl, hlo, hhi⟩
  · obtain ⟨hexec, -, -, hx⟩ := literal_exec hlit s
    have hcode : (x.setWidth 12).toNat = x.toNat := (literal_toNat (Nat.le_refl 8) x).1
    exact ⟨dataCode_literal hd (hcode ▸ hx), hexec⟩
  · exact ⟨dataCode_learned hlo hhi, rfl⟩

/-- `N = 4096` needs more than 11 bits (R151). -/
theorem DecoderOk.width_of_full (hd : DecoderOk s) (hn : s.n.toNat = 4096) : s.w.toNat = 12 := by
  rcases hd.fits with hlt | hw
  · have hle : 2 ^ s.w.toNat ≤ 2 ^ 12 := Nat.pow_le_pow_right (by omega) hd.dict.width.2
    omega
  · exact hw

/-- Under `FAULT` a full table turns a known data code away before any output (R147). -/
theorem knownEntry_full_fault (hfull : s.tableFull) (hpolicy : s.cfg.fullTable = .fault) :
    knownEntry c s = badCode c s := by
  unfold knownEntry
  rw [if_pos ⟨hfull.1, hfull.2, hpolicy⟩]

/-- Under `TOLERATE` a known data code at a full table is output and becomes `PREV`, and that is all (R147). -/
theorem knownEntry_full_tolerate {q : List Byte} {f : Byte} (hfull : s.tableFull)
    (hpolicy : s.cfg.fullTable = .tolerate) (hseq : seqOf s c.toNat = some q) (hfirst : firstOf s c.toNat = some f) :
    knownEntry c s = .next { s with outq := s.outq ++ q.map OutItem.byte, prev := c } := by
  obtain ⟨hj, hn⟩ := hfull
  have hruns : knownEntry c s = .next (endDataCode c (outPutAll q s)) := by
    unfold knownEntry
    rw [if_neg (by simp [hpolicy]), hseq, hfirst]
    exact if_neg (by omega)
  rw [hruns, endDataCode, ← hj]
  rfl

end

/-- Settles O28: at a full table `KnownEntry` is decided by the policy alone. -/
theorem fullTablePolicy : Obligations.FullTablePolicy := by
  unfold Obligations.FullTablePolicy
  intro s i c hd hfull hi
  obtain ⟨hdata, hexec⟩ := knownCode_exec hd.dict hi
  rw [hexec]
  refine ⟨hd.width_of_full hfull.2, fun htolerate => ?_, fun hfault hp ho => ?_⟩
  · obtain ⟨f, q, hfirst, hseq⟩ := hd.dict.seq_defined hdata
    exact ⟨f :: q, hseq, knownEntry_full_tolerate hfull htolerate hseq hfirst⟩
  · exact (knownEntry_full_fault hfull hfault).trans (badCode_held hp ho)

/-- Settles O29: both classes are `BAD_CODE` with the code. -/
theorem illegalCodesAreHeld : Obligations.IllegalCodesAreHeld := by
  unfold Obligations.IllegalCodesAreHeld
  exact fun s c hp ho => ⟨badCode_held hp ho, badCode_held hp ho⟩

/-! ## Between two codes (R151) -/

section
variable {s : State} {c : Nat}

/-- The decoder's invariant is that of the code loop. -/
theorem Inv.decoderOk (h : Inv s) (hp : s.phase = .run) (ho : s.opk = .decCodes) : DecoderOk s := by
  have hstage := h.stage hp
  rw [StageOk, ho] at hstage
  exact hstage.2

/-- A learned entry has a smaller data code as its prefix and the head of its sequence as its first index (R151). -/
theorem DictOk.entry_head (hd : DictOk s) (hlo : s.firstLearned ≤ c) (hhi : c < s.n.toNat) :
    ∃ e q, s.mem.read c = some e ∧ e.pfx.toNat < c ∧ s.dataCode e.pfx.toNat ∧ seqOf s c = some (e.fst :: q) := by
  obtain ⟨e, he, -, hfirst, hlt, hpfx, -⟩ := hd.entry hlo hhi
  obtain ⟨f, q, hf, hseq⟩ := hd.seq_defined (dataCode_learned hlo hhi)
  cases hfirst.symm.trans hf
  exact ⟨e, q, he, hlt, hpfx, hseq⟩

end

/-- Settles O54: the invariant holds `DecoderOk` in the code loop, and `seq` is defined for every data code. -/
theorem decoderInvariants : Obligations.DecoderInvariants := by
  unfold Obligations.DecoderInvariants
  intro s hinv hp ho
  have hd := hinv.decoderOk hp ho
  obtain ⟨hlow, hhigh⟩ := hd.dict.size
  obtain ⟨hwlow, hwhigh⟩ := hd.dict.width
  have hseq : ∀ c, s.dataCode c → ∃ q, seqOf s c = some q := by
    intro c hc
    obtain ⟨f, q, -, hq⟩ := hd.dict.seq_defined hc
    exact ⟨f :: q, hq⟩
  refine ⟨hlow, hhigh, hwlow, hwhigh, hd.fits, hd.prevValid, fun c hlo hhi => ?_, fun hj => hseq _ (hd.prevValid hj),
    fun c hc => ?_⟩
  · obtain ⟨e, q, he, hlt, ⟨-, hclear, heoi⟩, hq⟩ := hd.dict.entry_head hlo hhi
    exact ⟨e, q, he, hlt, hclear, heoi, hq⟩
  · rcases hc with hlit | ⟨hlo, hhi⟩
    · exact hseq c (dataCode_literal hd.dict hlit)
    · exact hseq c (dataCode_learned hlo hhi)

end Sys2Proof.Machine
end

section
/-! The family of the encode step (44_encode_step.md): an index out of range, and the two misses. -/

namespace Sys2Proof.Machine

section
variable {s : State} {x f : Byte} {q : List Token}

/-- The step that takes an index of `2^b` or more raises `RANGE_INDEX` (R161). -/
theorem encodeIndex_outOfRange (ho : s.opk = .encIndex) (hx : 2 ^ s.b.toNat ≤ x.toNat) : encodeIndex x s =
    .next { s with err := .rangeIndex, einfo := x.setWidth 16, pfault := none, phase := .fault } := by
  unfold encodeIndex
  rw [if_pos (show s.clearCode ≤ x.toNat from hx), raise_taken (by simp [ho])]

/-- `EncMiss` of a candidate whose first index is `f` (R164). -/
theorem encMiss_of_first (hf : firstOf s s.cand.toNat = some f) : encMiss x s =
    .next { encoderGrowth (dictAdd s.cand x f (writeBits s.cand.toNat s.w.toNat s)) with cand := x.setWidth 12 } := by
  unfold encMiss
  rw [hf]

/-- `EncoderGrowth` changes `W` alone (R127). -/
theorem encoderGrowth_same (s : State) : encoderGrowth s = { s with w := (encoderGrowth s).w } := by
  unfold encoderGrowth
  split <;> rfl

/-- `WriteBits` leaves the dictionary (R110). -/
theorem Wrote.dictionary {bits : List Bool} {u : State} (h : Wrote bits s u) :
    u.b = s.b ∧ u.n = s.n ∧ u.w = s.w ∧ u.mem = s.mem := by
  simp [h.fields]

/-- The width after an encoder's add, by the registers before it (R126, R127). -/
theorem encoderGrowth_dictAdd_w (p : Code) (x f : Byte) (hn : s.n.toNat < 4096) :
    (encoderGrowth (dictAdd p x f s)).w.toNat =
      if 2 ^ s.w.toNat < s.n.toNat + 1 ∧ s.w.toNat < 12 then s.w.toNat + 1 else s.w.toNat := by
  rw [encoderGrowth_w, dictAdd_n, dictAdd_w, n_succ hn]

/-- A full table needs the widest code (R78, R165). -/
theorem EncoderOk.width_of_full (h : EncoderOk s) (hn : s.n.toNat = 4096) : s.w.toNat = 12 := by
  rw [h.closedWidth, hn]
  decide

/-- The step that takes an index in `2^b` that extends the candidate to no entry (R164, R165). -/
theorem step_miss (htake : s.takesIndex x q) (hx : x.toNat < 2 ^ s.b.toNat) (hv : s.candV = true)
    (hmiss : dictFind s s.cand x = none) : step s = if s.n.toNat < 4096 then encMiss x { s.afterTurn with inq := q }
      else encMissFull x { s.afterTurn with inq := q } :=
  (engine_encIndex htake).trans (encodeIndex_miss (s := { s.afterTurn with inq := q }) hx hv hmiss)

end

/-- Settles O43: `EncodeIndex` tests the range first, and outside the code loop `raise` takes the fault at once. -/
theorem indexOutOfRange : Obligations.IndexOutOfRange := by
  unfold Obligations.IndexOutOfRange
  intro s x q htake hx
  rw [engine_encIndex htake]
  obtain ⟨-, -, ho, -⟩ := htake
  exact encodeIndex_outOfRange (s := { s.afterTurn with inq := q }) ho hx

/-- Settles O45: the step is `EncMiss`: `WriteBits` moves the code stream alone, `DictAdd` writes the slot of the old `N`, and
`EncoderGrowth` moves `W` alone. -/
theorem encoderMiss : Obligations.EncoderMiss := by
  unfold Obligations.EncoderMiss
  intro s x q htake hx hbuf h hv hmiss hn
  obtain ⟨f, -, hf, -⟩ := h.dict.seq_defined (h.candValid hv)
  have hstep : step s = .next { encoderGrowth (dictAdd s.cand x f
      (writeBits s.cand.toNat s.w.toNat { s.afterTurn with inq := q })) with cand := x.setWidth 12 } :=
    (step_miss htake hx hv hmiss).trans ((if_pos hn).trans (encMiss_of_first ((Extends.of_eq rfl rfl rfl).firstOf hf)))
  have hwrote := writeBits_wrote s.cand.toNat s.w.toNat { s.afterTurn with inq := q }
  generalize writeBits s.cand.toNat s.w.toNat { s.afterTurn with inq := q } = u at hwrote hstep
  have hdict := hwrote.dictionary
  obtain ⟨-, hsize, hwidth, hram⟩ : u.b = s.b ∧ u.n = s.n ∧ u.w = s.w ∧ u.mem = s.mem := hdict
  have hgrowth := encoderGrowth_dictAdd_w s.cand x f (s := u) (hsize ▸ hn)
  rw [hsize, hwidth] at hgrowth
  refine ⟨f, _, hf, hstep, ?_, ?_, ?_, fun c hc => ?_, hgrowth, rfl, ?_⟩
  · exact (hwrote.gains hbuf.chunk hbuf.wacc).same (by simp) (by simp) (by simp) (by simp)
  · rw [encoderGrowth_n, dictAdd_n, hsize, n_succ hn]
  · simp [hsize, Memory.read_write_same]
  · simp [hsize, hram, Memory.read_write_other _ _ hc]
  · rw [encoderGrowth_same, hwrote.same]
    rfl

/-- Settles O46: at a full table `W` is 12, so both codes go out at width 12 before `DictReset` lowers it. -/
theorem encoderMissFull : Obligations.EncoderMissFull := by
  unfold Obligations.EncoderMissFull
  intro s x q htake hx hbuf h hv hmiss hn
  have hstep : step s = .next { dictReset (writeBits s.clearCode s.w.toNat
      (writeBits s.cand.toNat s.w.toNat { s.afterTurn with inq := q })) with cand := x.setWidth 12 } :=
    (step_miss htake hx hv hmiss).trans (if_neg (by omega))
  have hwrote := (writeBits_wrote s.cand.toNat s.w.toNat { s.afterTurn with inq := q }).trans
    (writeBits_wrote s.clearCode s.w.toNat _)
  generalize writeBits s.clearCode s.w.toNat (writeBits s.cand.toNat s.w.toNat { s.afterTurn with inq := q }) = u
    at hwrote hstep
  have hdict := hwrote.dictionary
  obtain ⟨hbase, -⟩ : u.b = s.b ∧ u.n = s.n ∧ u.w = s.w ∧ u.mem = s.mem := hdict
  have hrange : 2 ≤ u.b.toNat ∧ u.b.toNat ≤ 8 := hbase ▸ h.dict.base
  rw [h.width_of_full hn] at hwrote
  refine ⟨_, hstep, ?_, ?_, ?_, rfl, rfl, ?_⟩
  · exact (hwrote.gains hbuf.chunk hbuf.wacc).same rfl rfl rfl rfl
  · exact (dictReset_n_toNat hrange).trans (firstLearned_of_b hbase)
  · exact (dictReset_w_toNat hrange).trans (by rw [hbase])
  · rw [hwrote.same]
    rfl

end Sys2Proof.Machine
end

section
/-! The family of the orchestrator (45_orchestrator.md): the commands and the fault entry, a drain to its end, the work that an
engine step uses up, and what ENCODE outputs read back by DECODE. -/

namespace Sys2Proof.Machine

/-! ## The engine outside RUN (R193, R219) -/

/-- Settles O7: `fetchEngine` has a candidate step in RUN only. -/
theorem engineIdleOutsideRun : Obligations.EngineIdleOutsideRun := by
  unfold Obligations.EngineIdleOutsideRun
  intro s hturn hp
  have hp' : s.afterTurn.phase ≠ .run := hp
  rw [step_eq_answer hturn, fetchEngine]
  cases hphase : s.afterTurn.phase with
  | idle | done | fault => rfl
  | run => exact absurd hphase hp'

/-! ## Commands (R189, R190, R191, R232) -/

section
variable {s t : State}

theorem command_running {effect : State → State} (h : s.phase = .run) : command effect s = .next s := if_pos h

/-- R191: whatever its `OP`, a command is ignored in RUN. -/
theorem exec_decodeCommand_running (v : HostWord) (h : s.phase = .run) : exec (decodeCommand v) s = .next s := by
  unfold decodeCommand
  split <;> exact command_running h

theorem writeRegister_operation (off : Nat) (v : HostWord) (s : State) :
    (writeRegister off v s).phase = s.phase ∧ (writeRegister off v s).opk = s.opk := by
  unfold writeRegister
  split <;> exact ⟨rfl, rfl⟩

/-- R191, R192: no host step but power-on reset touches a running operation. -/
theorem fetchHost_running {h : HostStep} (hp : s.phase = .run) (hne : h ≠ .powerOn)
    (hnext : (fetchHost h s).answer = .next t) : t.phase = .run ∧ t.opk = s.opk := by
  cases h with
  | memWrite off size v =>
    rw [fetchHost] at hnext
    split at hnext
    · cases hnext
    split at hnext
    · cases (exec_decodeCommand_running v hp).symm.trans hnext
      exact ⟨hp, rfl⟩
    · cases hnext
      obtain ⟨hphase, hopk⟩ := writeRegister_operation off v s
      exact ⟨hphase.trans hp, hopk⟩
  | memRead off size =>
    rw [fetchHost] at hnext
    split at hnext <;> cases hnext
    exact ⟨hp, rfl⟩
  | push tok =>
    cases hnext
    exact ⟨hp, rfl⟩
  | pop =>
    rw [fetchHost] at hnext
    split at hnext <;> cases hnext
    exact ⟨hp, rfl⟩
  | discard =>
    rw [fetchHost, if_pos hp] at hnext
    cases hnext
  | powerOn => exact absurd rfl hne

end

/-- Settles O9: all four commands share the test of `PHASE`, and of the host's other steps none writes `PHASE` or `OPK`. -/
theorem commandIgnoredWhileRunning : Obligations.CommandIgnoredWhileRunning := by
  unfold Obligations.CommandIgnoredWhileRunning
  refine ⟨fun s w hp => ?_, fun s t h rest hp ha hne hnext => ?_⟩
  · exact ⟨command_running hp, command_running hp, command_running hp, command_running hp⟩
  · have hanswer : (fetchHost h { s with agenda := rest }).answer = .next t := (host_step ha).symm.trans hnext
    exact fetchHost_running (s := { s with agenda := rest }) hp hne hanswer

/-- Settles O10: outside RUN the command is `Ack()`, by whether `PHASE` is IDLE. -/
theorem ackReturnsToIdle : Obligations.AckReturnsToIdle := by
  unfold Obligations.AckReturnsToIdle
  intro s w hp
  have hexec : exec (.cmdAck w) s = .next (acknowledge s) := if_neg hp
  rw [hexec, acknowledge]
  cases hphase : s.phase with
  | idle => simp
  | done | fault => simp
  | run => exact absurd hphase hp

/-- Settles O12: the command is `startDecode`, which writes each of these registers. -/
theorem decodeCommandStarts : Obligations.DecodeCommandStarts := by
  unfold Obligations.DecodeCommandStarts
  exact fun s w hp => ⟨startDecode s, exec_cmdDecode w hp, rfl⟩

/-- Settles O13: the command raises `ILLEGAL_CMD`, which is never held. -/
theorem reservedCommandFaults : Obligations.ReservedCommandFaults := by
  unfold Obligations.ReservedCommandFaults
  intro s w hp
  have hexec : exec (.cmdReserved w) s = .next (raise .illegalCmd 0 { s with lastOp := 3 }) := if_neg hp
  rw [hexec, raise_taken (by simp)]

/-! ## The fault entry (R186, R209) -/

/-- `FinishFault()` takes the held fault (R209). -/
theorem finishFault_held {s : State} {c : ErrCode} {i : BitVec 16} (h : s.pfault = some (c, i)) :
    finishFault s = { s with err := c, einfo := i, pfault := none, phase := .fault } := by
  rw [finishFault, h]

/-- Settles O31: the two cases of `raise`, and `FinishFault`. -/
theorem faultEntry : Obligations.FaultEntry := by
  unfold Obligations.FaultEntry
  exact fun s c i => ⟨raise_held, raise_taken, finishFault_held⟩

/-! ## The start of an ENCODE (R134, R167, R180, R204) -/

section
variable {s t : State} {b : Nat}

/-- Code-stream bits that cannot fill a chunk with what is pending stay in the packer (R101). -/
theorem Wrote.stays_pending {bits : List Bool} (h : Wrote bits s t)
    (hfew : (pendingBits s).length + bits.length < 8 * 255) :
    t.outq = s.outq ∧ pendingBits t = pendingBits s ++ bits := by
  obtain ⟨cs, hlen, hout, hbits⟩ := h.stream
  have hnone : cs = [] := by
    cases cs with
    | nil => rfl
    | cons c cs =>
      have hc : c.length = 255 := hlen c List.mem_cons_self
      have hcount := congrArg List.length hbits
      simp only [List.flatten_cons, payloadBits_append, List.length_append, payload_length] at hcount
      omega
  subst hnone
  exact ⟨by simpa [fullChunks] using hout, by simpa using hbits⟩

theorem baseRegister_toNat (h8 : b ≤ 8) : (BitVec.ofNat 4 b).toNat = b := by
  rw [BitVec.toNat_ofNat]
  omega

theorem firstWidth_toNat (h8 : b ≤ 8) : (BitVec.ofNat 4 b + 1).toNat = b + 1 := by
  rw [BitVec.toNat_add, baseRegister_toNat h8]
  exact Nat.mod_eq_of_lt (show b + 1 < 2 ^ 4 by omega)

/-- The bits of the leading Clear (R167). -/
def leadingBits (s : State) : List Bool := if s.cfg.leadingClear then bitsOf s.clearCode s.w.toNat else []

theorem leadingClear_wrote_bits (s : State) : Wrote (leadingBits s) s (leadingClear s) := by
  unfold leadingClear leadingBits
  split
  · exact writeBits_wrote _ _ s
  · exact .nil s

theorem leadingBits_length_le (s : State) : (leadingBits s).length ≤ s.w.toNat := by
  unfold leadingBits
  split <;> simp

/-- The code stream and the output of an ENCODE that has just started: the width byte is out, the leading Clear pending. -/
theorem startEncoding_stream (h8 : b ≤ 8) (s : State) :
    (startEncoding b (encodePrologue s)).outq = s.outq ++ [.byte (BitVec.ofNat 8 b)] ∧
      pendingBits (startEncoding b (encodePrologue s)) =
        (if s.cfg.leadingClear then bitsOf (2 ^ b) (b + 1) else []) ∧
      (startEncoding b (encodePrologue s)).wcur = (pendingBits (startEncoding b (encodePrologue s))).length := by
  have hwrote := leadingClear_wrote_bits
    (dictReset (outPut (BitVec.ofNat 8 b) { encodePrologue s with b := BitVec.ofNat 4 b }))
  generalize hs' : dictReset (outPut (BitVec.ofNat 8 b) { encodePrologue s with b := BitVec.ofNat 4 b }) = s' at hwrote
  have hempty : pendingBits s' = [] := by rw [← hs']; rfl
  have hcursor : s'.wcur = 0 := by rw [← hs']; rfl
  have hclear : s'.clearCode = 2 ^ b := by rw [← hs']; exact congrArg (2 ^ ·) (baseRegister_toNat h8)
  have hwidth : s'.w.toNat = b + 1 := by rw [← hs']; exact firstWidth_toNat h8
  have hcfg : s'.cfg = s.cfg := by rw [← hs']; rfl
  have hbits : leadingBits s' = if s.cfg.leadingClear then bitsOf (2 ^ b) (b + 1) else [] := by
    rw [leadingBits, hclear, hwidth, hcfg]
  have hfew : (pendingBits s').length + (leadingBits s').length < 8 * 255 := by
    have hlen := leadingBits_length_le s'
    rw [hempty, List.length_nil]
    omega
  obtain ⟨hout, hpending⟩ := hwrote.stays_pending hfew
  have hresult : startEncoding b (encodePrologue s) = { leadingClear s' with opk := .encIndex } := by
    rw [← hs']; rfl
  rw [hempty, List.nil_append] at hpending
  rw [hresult]
  refine ⟨hout.trans ?_, hpending.trans hbits, ?_⟩
  · rw [← hs']; rfl
  · have hbitsOut := hwrote.cursor
    rw [hcursor, Nat.zero_add, ← hpending] at hbitsOut
    exact hbitsOut

end

/-- Settles O11: with a base width the registers are what `startEncoding` leaves and the leading Clear is too short to fill a
chunk; without one the command is the fault entry of `RANGE_PALETTE`. -/
theorem encodeCommandStarts : Obligations.EncodeCommandStarts := by
  unfold Obligations.EncodeCommandStarts
  intro s w hp
  refine ⟨startEncode s, exec_cmdEncode w hp, ?_⟩
  cases hb : baseWidth s.palette.toNat with
  | none =>
    rw [startEncode_illegal hb]
    have hbad := baseWidth_none.mp hb
    exact ⟨rfl, rfl, rfl, rfl, rfl, rfl, rfl, rfl, rfl, rfl, rfl, rfl, rfl, rfl, rfl, fun h1 h256 => by omega,
      fun _ => ⟨rfl, rfl, rfl, rfl, rfl, rfl, rfl, rfl, rfl, rfl, rfl, rfl⟩⟩
  | some b =>
    obtain ⟨h2, h8, hholds, hleast⟩ := baseWidth_spec hb
    obtain ⟨hout, hpending, hcursor⟩ := startEncoding_stream h8 s
    obtain ⟨C, A, k, out, hlocal⟩ := startEncoding_local b s.cfg
    have hfields := hlocal s rfl
    rw [startEncode_legal hb]
    generalize startEncoding b (encodePrologue s) = t at hout hpending hcursor hfields
    subst hfields
    have hbase := baseRegister_toNat h8
    have hpow : 2 ^ b ≤ 2 ^ 8 := Nat.pow_le_pow_right (by omega) h8
    refine ⟨rfl, rfl, rfl, rfl, rfl, rfl, rfl, rfl, rfl, rfl, rfl, rfl, rfl, rfl, rfl, fun _ _ => ⟨b, h2, h8, hholds,
      hleast, rfl, rfl, rfl, rfl, hbase, ?_, firstWidth_toNat h8, rfl, hout, hpending, hcursor⟩, fun hbad => ?_⟩
    · rw [hbase, BitVec.toNat_ofNat]
      omega
    · rw [baseWidth_none.mpr hbad] at hb
      cases hb

/-! ## A drain to its end (R185, R186) -/

section
variable {s t : State} {p : List Byte} {rest : List Token}

/-- A drain takes one step for each payload byte and one more for the end of the payload, where it ends the operation. -/
theorem drain_runs (ha : s.agenda = []) (hp : s.phase = .run) (ho : s.opk = .decDrain)
    (hblock : (s.pend = true ∧ p = [] ∧ rest = s.inq) ∨
      (s.pend = false ∧ deframe s.rem.toNat s.inq = some (p, rest))) :
    ∃ t, runSteps (p.length + 1) s = .next (endDrain t) ∧ t = { s with inq := rest, rem := t.rem, pend := true } := by
  induction p generalizing s with
  | nil =>
    have hget : frameGet s = .ok none { s with inq := rest, pend := true } := by
      rcases hblock with ⟨hpend, -, rfl⟩ | ⟨hpend, hdeframe⟩
      · rw [frameGet_pend hpend, ← hpend]
      · exact (frameGet_deframe_nil hpend hdeframe).2
    have hstep := drain_step ha hp ho
    rw [drainStep_eop hget] at hstep
    exact ⟨_, runSteps_one hstep, rfl⟩
  | cons v p ih =>
    rcases hblock with ⟨-, hnil, -⟩ | ⟨hpend, hdeframe⟩
    · cases hnil
    obtain ⟨t, hget, hdeframe', hpend', ht⟩ := frameGet_deframe_cons hpend hdeframe
    have hstep := drain_step ha hp ho
    rw [drainStep_byte hget] at hstep
    obtain ⟨u, hrun, hu⟩ := ih (s := t) (by rw [ht]; exact ha) (by rw [ht]; exact hp) (by rw [ht]; exact ho)
      (.inr ⟨hpend', hdeframe'⟩)
    exact ⟨u, (runSteps_succ _ _ _ hstep).trans hrun, by rw [hu, ht]⟩

end

theorem endDrain_well {s : State} (h : s.pfault = none) : endDrain s = { outEnd s with phase := .done } := by
  rw [endDrain, h]

theorem endDrain_held {s : State} {c : ErrCode} {i : BitVec 16} (h : s.pfault = some (c, i)) :
    endDrain s = { s with err := c, einfo := i, pfault := none, phase := .fault } := by
  rw [endDrain, h]
  exact finishFault_held h

/-- Settles O32: behind the payload bytes the drain ends in DONE or in the held fault. -/
theorem drainConsumesThroughTerminator : Obligations.DrainConsumesThroughTerminator := by
  unfold Obligations.DrainConsumesThroughTerminator
  intro s p rest ha hp ho hblock
  obtain ⟨u, hrun, hu⟩ := drain_runs ha hp ho hblock
  have hheld : u.pfault = s.pfault := by rw [hu]
  refine ⟨_, hrun, ?_⟩
  cases hf : s.pfault with
  | none =>
    rw [endDrain_well (hheld.trans hf), hu]
    exact ⟨rfl, fun _ => ⟨rfl, rfl, rfl, rfl⟩, nofun, rfl, rfl, rfl, rfl, rfl⟩
  | some x =>
    rw [endDrain_held (hheld.trans hf), hu]
    refine ⟨rfl, nofun, fun c i h => ?_, rfl, rfl, rfl, rfl, rfl⟩
    cases h
    exact ⟨rfl, rfl, rfl, rfl, rfl⟩

/-! ## The work of an engine step (R181, R242) -/

section
variable {s t : State} {q : List Token}

/-- `t` is `s`, or has less work left. -/
def UsesWork (s t : State) : Prop := t = s ∨ workLeft t < workLeft s

/-- A running operation has work left, an ended one none. -/
theorem usesWork_of_fault (hp : s.phase = .run) (ht : t.phase = .fault) : UsesWork s t :=
  .inr (workLeft_fault ht ▸ workLeft_pos hp)

theorem usesWork_of_done (hp : s.phase = .run) (ht : t.phase = .done) : UsesWork s t :=
  .inr (workLeft_done ht ▸ workLeft_pos hp)

theorem raise_ioFail_usesWork (hp : s.phase = .run) (u : State) : UsesWork s (raise .ioFail 0 u) :=
  usesWork_of_fault hp (congrArg State.phase (raise_ioFail u))

theorem workLeft_encIndex (hp : s.phase = .run) (ho : s.opk = .encIndex) : workLeft s = s.inq.length + 2 := by
  rw [workLeft_run hp, ho]

theorem workLeft_encFinish (hp : s.phase = .run) (ho : s.opk = .encFinish) : workLeft s = 1 := by
  rw [workLeft_run hp, ho]

theorem workLeft_decWidth (hp : s.phase = .run) (ho : s.opk = .decWidth) : workLeft s = 8 * s.inq.length + 3 := by
  rw [workLeft_run hp, ho]

theorem workLeft_decCodes (hp : s.phase = .run) (ho : s.opk = .decCodes) :
    workLeft s = 8 * s.inq.length + s.racc.length + 2 := by
  rw [workLeft_run hp, ho]

theorem workLeft_decDrain (hp : s.phase = .run) (ho : s.opk = .decDrain) : workLeft s = 8 * s.inq.length + 1 := by
  rw [workLeft_run hp, ho]

/-- The step at `ENC_INDEX` takes a token, or finds none (R182). -/
theorem encIndexStep_usesWork (hp : s.phase = .run) (ho : s.opk = .encIndex) (h : encIndexStep s = .next t) :
    UsesWork s t := by
  unfold encIndexStep at h
  split at h
  case h_1 =>
    cases h
    exact .inl rfl
  case h_2 q hq =>
    cases h
    right
    rw [workLeft_encIndex hp ho, workLeft_encFinish (s := { s with inq := q, opk := .encFinish }) hp rfl]
    omega
  case h_3 i q hq =>
    obtain ⟨hinq, ⟨tphase, topk⟩ | hfault⟩ := encodeIndex_stage (s := { s with inq := q }) hp ho h
    · right
      rw [workLeft_encIndex hp ho, workLeft_encIndex tphase topk, hinq, hq, List.length_cons]
      dsimp only
      omega
    · exact usesWork_of_fault hp hfault

/-- The step at `DEC_WIDTH` takes a token, or finds none (R183). -/
theorem fetchWidth_usesWork (hp : s.phase = .run) (ho : s.opk = .decWidth) (hracc : s.racc = [])
    (h : (fetchWidth s).answer = .next t) : UsesWork s t := by
  cases hq : s.inq with
  | nil =>
    rw [fetchWidth_empty hq] at h
    cases h
    exact .inl rfl
  | cons tok q =>
    cases tok with
    | eof =>
      rw [fetchWidth_eof hq] at h
      cases h
      exact raise_ioFail_usesWork hp _
    | byte v =>
      rw [fetchWidth_byte hq, execWidthByte] at h
      split at h
      · cases h
        exact usesWork_of_fault hp (congrArg State.phase (raise_taken (by simp)))
      · cases h
        right
        rw [workLeft_decWidth hp ho, hq, workLeft_decCodes (by exact hp) rfl]
        simp only [dictReset_inq, dictReset_racc, hracc, List.length_nil, List.length_cons]
        omega

/-- The step at `DEC_CODES` consumes the bits of a code, or ends the code loop, or waits (R113, R184). -/
theorem fetchCode_usesWork (hp : s.phase = .run) (ho : s.opk = .decCodes) (hw : 1 ≤ s.w.toNat)
    (h : (fetchCode s).answer = .next t) : UsesWork s t := by
  cases hread : readBits s.w.toNat s with
  | stall =>
    rw [fetchCode_stall hread] at h
    cases h
    exact .inl rfl
  | raised s' =>
    rw [fetchCode_raised hread] at h
    cases h
    obtain ⟨u, took, -, rfl | ⟨-, rfl⟩⟩ := readBits_raised hread
    · exact raise_ioFail_usesWork hp u
    · have hphase : u.phase = .run := by simp [took.fields, hp]
      have hbits := took.bits
      right
      rw [raise_held hphase (by simp [took.fields, ho]) (.inr rfl), workLeft_decCodes hp ho,
        workLeft_decDrain (by exact hphase) rfl]
      dsimp only
      omega
  | ok c u =>
    obtain ⟨took, -, -, hbits, -⟩ := readBits_ok hread
    obtain ⟨i, hdec, hexec⟩ := fetchCode_runs hread h
    have hphase : u.phase = .run := by simp [took.fields, hp]
    have hopk : u.opk = .decCodes := by simp [took.fields, ho]
    obtain ⟨tphase, tinq, tracc, topk⟩ := exec_code_stage hphase hopk hdec hexec
    right
    rw [workLeft_decCodes hp ho]
    rcases topk with topk | topk
    · rw [workLeft_decCodes tphase topk, tinq, tracc]
      omega
    · rw [workLeft_decDrain tphase topk, tinq]
      omega

/-- The step of a drain takes a token, ends the drain, or waits (R185). -/
theorem drainStep_usesWork (hp : s.phase = .run) (ho : s.opk = .decDrain) : UsesWork s (drainStep s) := by
  cases hget : frameGet s with
  | stall => exact .inl (drainStep_stall hget)
  | raised s' =>
    obtain ⟨u, -, -, -, rfl⟩ := frameGet_raised hget
    rw [drainStep_raised hget]
    exact raise_ioFail_usesWork hp u
  | ok o t =>
    have took := frameGet_took hget
    cases o with
    | none =>
      rw [drainStep_eop hget]
      cases hf : t.pfault with
      | none => exact usesWork_of_done hp (by rw [endDrain_well hf])
      | some x => exact usesWork_of_fault hp (by rw [endDrain_held hf])
    | some v =>
      obtain ⟨-, -, -, -, -, -, hlen⟩ := frameGet_byte hget
      right
      rw [drainStep_byte hget, workLeft_decDrain hp ho,
        workLeft_decDrain (by simp [took.fields, hp]) (by simp [took.fields, ho])]
      omega

theorem fetchEngine_usesWork (hinv : Inv s) (hp : s.phase = .run) (h : (fetchEngine s).answer = .next t) :
    UsesWork s t := by
  have hstage := hinv.stage hp
  unfold fetchEngine at h
  rw [hp] at h
  cases ho : s.opk with
  | encIndex => exact encIndexStep_usesWork hp ho (by rwa [ho] at h)
  | encFinish =>
    rw [ho] at h
    cases h
    exact usesWork_of_done hp rfl
  | decWidth =>
    rw [StageOk, ho] at hstage
    obtain ⟨-, -, -, -, hracc⟩ := hstage
    exact fetchWidth_usesWork hp ho hracc (by rwa [ho] at h)
  | decCodes =>
    have hwidth := (hinv.decoderOk hp ho).dict.width
    exact fetchCode_usesWork hp ho (by omega) (by rwa [ho] at h)
  | decDrain =>
    rw [ho] at h
    cases h
    exact drainStep_usesWork hp ho

end

/-- Settles O57: by the stage of the operation; the measure does not look at the agenda. -/
theorem engineStepsTerminate : Obligations.EngineStepsTerminate := by
  unfold Obligations.EngineStepsTerminate
  intro s t hinv hturn hp h
  exact fetchEngine_usesWork (s := s.afterTurn) (hinv.of_ports rfl) hp ((step_eq_answer hturn).symm.trans h)

/-! ## A decoder that reads on in its block (R142, R143, R185) -/

section
variable {d d' d'' : State} {more more' : List Bool} {out out' : List Byte}

/-- `d'` is `d` some steps further in the same block, with `more` bits ahead; what it has output since is `out`. -/
structure ReadsTo (d d' : State) (more : List Bool) (out : List Byte) : Prop where
  run : ∃ k, runSteps k d = .next d'
  ahead : payloadAhead d' = some more
  rest : blockRest d' = blockRest d
  outq : d'.outq = d.outq ++ out.map OutItem.byte

theorem ReadsTo.refl (h : payloadAhead d = some more) : ReadsTo d d more [] := ⟨⟨0, rfl⟩, h, rfl, by simp⟩

theorem ReadsTo.trans (h : ReadsTo d d' more out) (h' : ReadsTo d' d'' more' out') :
    ReadsTo d d'' more' (out ++ out') := by
  obtain ⟨k, hk⟩ := h.run
  obtain ⟨k', hk'⟩ := h'.run
  exact ⟨⟨k + k', runSteps_add hk hk'⟩, h'.ahead, h'.rest.trans h.rest, by simp [h'.outq, h.outq]⟩

/-- A decoder at the start of an epoch, no turn listed. -/
structure FreshEpoch (d : State) : Prop where
  inv : Inv d
  run : DRun d
  jr : d.jr = true
  n : d.n.toNat = d.firstLearned

theorem DRun.decoderOk (hr : DRun d) (hinv : Inv d) : DecoderOk d := hinv.decoderOk hr.1 hr.2.1

/-- Clear and EOI fit every width of their base (R77). -/
theorem DictOk.control_lt (hd : DictOk d) : 2 ^ d.b.toNat + 1 < 2 ^ d.w.toNat := by
  have hb := two_pow_b_bounds hd.base
  have hle : 2 ^ (d.b.toNat + 1) ≤ 2 ^ d.w.toNat := Nat.pow_le_pow_right (by omega) hd.width.1
  rw [Nat.pow_succ] at hle
  omega

/-- The decoder reads Clear (R142). -/
theorem DRun.reads_clear (hr : DRun d) (hinv : Inv d)
    (h : payloadAhead d = some (bitsOf (2 ^ d.b.toNat) d.w.toNat ++ more)) :
    ∃ d', ReadsTo d d' more [] ∧ FreshEpoch d' ∧ d'.b = d.b := by
  have hd := (hr.decoderOk hinv).dict
  have hfit := hd.control_lt
  obtain ⟨u, hu, hahead, hrest, hrun⟩ := code_step hr h (by omega)
  obtain ⟨i, hdec, hexec⟩ := clear_decodes hd
  have hstep : step d = .next (dictReset u) := (hrun i hdec).trans (hexec u)
  have hub : u.b = d.b := by rw [hu]
  refine ⟨dictReset u, ⟨⟨1, runSteps_one hstep⟩, hahead, hrest, ?_⟩,
    ⟨engine_step_inv hinv hr.2.2 hstep, ?_, rfl, dictReset_n_toNat (hub ▸ hd.base)⟩, hub⟩
  · rw [hu]
    simp
  · rw [hu]
    exact hr

/-- The decoder reads EOI, and its drain begins (R143). -/
theorem DRun.reads_eoi (hr : DRun d) (hinv : Inv d)
    (h : payloadAhead d = some (bitsOf (2 ^ d.b.toNat + 1) d.w.toNat ++ more)) :
    ∃ d', ReadsTo d d' more [] ∧ d'.phase = .run ∧ d'.opk = .decDrain ∧ d'.agenda = [] ∧ d'.pfault = none := by
  have hd := (hr.decoderOk hinv).dict
  obtain ⟨u, hu, hahead, hrest, hrun⟩ := code_step hr h hd.control_lt
  obtain ⟨i, hdec, hexec⟩ := eoi_decodes hd
  have hstep : step d = .next { u with opk := .decDrain } := (hrun i hdec).trans (hexec u)
  have hheld : d.pfault = none := held_none hinv (by simp [hr.2.1])
  refine ⟨_, ⟨⟨1, runSteps_one hstep⟩, hahead, hrest, ?_⟩, ?_, rfl, ?_, ?_⟩
  · rw [hu]
    simp
  · rw [hu]
    exact hr.1
  · rw [hu]
    exact hr.2.2
  · rw [hu]
    exact hheld

/-- A drain with no fault held ends the operation well behind its block. -/
theorem drain_ends_well {rest : List Token} (hp : d.phase = .run) (ho : d.opk = .decDrain) (ha : d.agenda = [])
    (hf : d.pfault = none) (hrest : blockRest d = some rest) :
    ∃ k v, runSteps k d = .next v ∧ v.phase = .done ∧ v.inq = rest ∧ v.outq = d.outq ++ [.endMark] := by
  obtain ⟨p, hblock⟩ : ∃ p, (d.pend = true ∧ p = [] ∧ rest = d.inq) ∨
      (d.pend = false ∧ deframe d.rem.toNat d.inq = some (p, rest)) := by
    unfold blockRest at hrest
    split at hrest
    · rename_i hpend
      exact ⟨[], .inl ⟨hpend, rfl, (Option.some.inj hrest).symm⟩⟩
    · rename_i hpend
      obtain ⟨⟨p, rest'⟩, hdeframe, rfl⟩ := Option.map_eq_some_iff.mp hrest
      exact ⟨p, .inr ⟨by simpa using hpend, hdeframe⟩⟩
  obtain ⟨v, hrun, hinq, hwell, -⟩ := drainConsumesThroughTerminator d p rest ha hp ho hblock
  obtain ⟨hdone, hout, -⟩ := hwell hf
  exact ⟨_, v, hrun, hdone, hinq, hout⟩

end

/-! ## The decoder in step with the encoder (R133, R152, R195) -/

section
variable {e t u d d' : State} {x : Byte} {p out out' : List Byte} {q : List Token} {bits bits' more : List Bool}

/-- The indices that the encoder's candidate stands for: none where there is no candidate. -/
def HoldsCandidate (e : State) (p : List Byte) : Prop :=
  (e.candV = false ∧ p = []) ∨ (e.candV = true ∧ seqOf e e.cand.toNat = some p)

theorem ReadCandidate.readsTo (h : ReadCandidate e d d' p more) : ReadsTo d d' more p :=
  ⟨⟨1, runSteps_one h.step⟩, h.ahead, h.rest, h.outq⟩

/-- The code-stream bits `bits` take every decoder in step with `e` to one in step with `t`, which outputs `out` on the way. -/
def Tracks (bits : List Bool) (out : List Byte) (e t : State) : Prop :=
  ∀ d more, Sim e d → payloadAhead d = some (bits ++ more) → ∃ d', ReadsTo d d' more out ∧ Sim t d'

/-- What the encoder has written from `e` to `t` is code-stream bits that a decoder in step reads as `out`. -/
def Encodes (e t : State) (out : List Byte) : Prop := ∃ bits, StreamGains bits e t ∧ Tracks bits out e t

theorem Encodes.refl (h : BufferOk e) : Encodes e e [] :=
  ⟨[], (Wrote.nil e).gains h.chunk h.wacc, fun d _ hsim hahead => ⟨d, .refl hahead, hsim⟩⟩

theorem Encodes.trans (h : Encodes e t out) (h' : Encodes t u out') : Encodes e u (out ++ out') := by
  obtain ⟨bits, hgains, htracks⟩ := h
  obtain ⟨bits', hgains', htracks'⟩ := h'
  refine ⟨bits ++ bits', hgains.trans hgains', fun d more hsim hahead => ?_⟩
  obtain ⟨d₁, hread, hsim₁⟩ := htracks d (bits' ++ more) hsim (by rw [hahead, List.append_assoc])
  obtain ⟨d₂, hread', hsim₂⟩ := htracks' d₁ more hsim₁ hread.ahead
  exact ⟨d₂, hread.trans hread', hsim₂⟩

theorem AwaitsIndex.next (h : AwaitsIndex e (.byte x :: q)) (hx : x.toNat < 2 ^ e.b.toNat) (hstep : step e = .next t) :
    AwaitsIndex t q ∧ t.b = e.b := by
  obtain ⟨t', hstep', hawaits, hb, -⟩ := h.takes_index hx
  cases hstep.symm.trans hstep'
  exact ⟨hawaits, hb⟩

theorem AwaitsIndex.takesIndex (h : AwaitsIndex e (.byte x :: q)) : e.takesIndex x q :=
  ⟨engineTurn_nil h.agenda, h.phase, h.opk, h.inq⟩

/-- An index that is a literal's code stands for itself (R120, R121). -/
theorem literal_candidate (hx : x.toNat < 2 ^ t.b.toNat) (hc : t.cand = x.setWidth 12) :
    seqOf t t.cand.toNat = some [x] ∧ firstOf t t.cand.toNat = some x := by
  have hcode : t.cand.toNat = x.toNat := by rw [hc, (literal_toNat (Nat.le_refl 8) x).1]
  have hlit : t.cand.toNat < t.clearCode := hcode ▸ hx
  have hbyte : BitVec.ofNat 8 t.cand.toNat = x := by rw [hcode]; simp
  rw [seqOf_literal hlit, firstOf_literal hlit, hbyte]
  exact ⟨rfl, rfl⟩

/-- A new candidate of an unchanged dictionary leaves the decoder in step, as long as it begins with the index that the old one
began with. -/
theorem Sim.of_candidate (h : Sim e d) (ht : AwaitsIndex t q)
    (hsame : t = { e with inq := t.inq, cand := t.cand, candV := t.candV })
    (hcand : e.candV = true → t.candV = true ∧ firstOf t t.cand.toNat = firstOf e e.cand.toNat) : Sim t d := by
  have hb : t.b = e.b := by rw [hsame]
  have hn : t.n = e.n := by rw [hsame]
  have hm : t.mem = e.mem := by rw [hsame]
  refine ⟨ht.inv, ht.phase, ht.opk, h.id, h.run, h.b.trans hb.symm, fun c hlo hhi => ?_, ?_⟩
  · rw [firstLearned_of_b hb] at hlo
    rw [hm]
    exact h.mem c hlo hhi
  · rw [hn, hm]
    rcases h.lag with hfresh | ⟨hj, hv, hsize, y, g, hentry, hfirst⟩
    · exact .inl hfresh
    · obtain ⟨hv', hfirst'⟩ := hcand hv
      exact .inr ⟨hj, hv', hsize, y, g, hentry, hfirst'.trans hfirst⟩

/-- Where the encoder writes nothing and its dictionary stays, a decoder in step stays as it is. -/
theorem encodes_nothing (hbuf : BufferOk e) (ht : AwaitsIndex t q)
    (hsame : t = { e with inq := t.inq, cand := t.cand, candV := t.candV })
    (hcand : e.candV = true → t.candV = true ∧ firstOf t t.cand.toNat = firstOf e e.cand.toNat) : Encodes e t [] :=
  ⟨[], ((Wrote.nil e).gains hbuf.chunk hbuf.wacc).same (by rw [hsame]) (by rw [hsame]) (by rw [hsame]) (by rw [hsame]),
    fun d _ hsim hahead => ⟨d, .refl hahead, hsim.of_candidate ht hsame hcand⟩⟩

/-- The first index becomes the candidate (R162). -/
theorem AwaitsIndex.encodes_first (h : AwaitsIndex e (.byte x :: q)) (hx : x.toNat < 2 ^ e.b.toNat)
    (hv : e.candV = false) :
    ∃ t, step e = .next t ∧ AwaitsIndex t q ∧ t.b = e.b ∧ Encodes e t [] ∧ HoldsCandidate t [x] := by
  have hstep := h.step_index.trans (encodeIndex_first (s := { e with inq := q }) hx hv)
  obtain ⟨ht, hb⟩ := h.next hx hstep
  refine ⟨_, hstep, ht, hb, ?_, .inr ⟨rfl, (literal_candidate (by exact hx) rfl).1⟩⟩
  exact encodes_nothing h.inv.buffers ht rfl (by simp [hv])

/-- The entry that `DictFind` hits stands for the code's indices and the new one, so it begins as they do (R120, R130). -/
theorem EncoderOk.hit_extends {c : Nat} {k : Code} (h : EncoderOk e) (hwf : e.mem.wf = true)
    (hseq : seqOf e k.toNat = some p) (hfind : dictFind e k x = some c) :
    seqOf e (BitVec.ofNat 12 c).toNat = some (p ++ [x]) ∧
      firstOf e (BitVec.ofNat 12 c).toNat = firstOf e k.toNat := by
  obtain ⟨hlo, hhi, entry, hread, rfl, rfl⟩ := dictFind_some hwf hfind
  obtain ⟨entry', hread', hslot, hfirst, hlt, -, hfirst'⟩ := h.dict.entry hlo hhi
  cases hread.symm.trans hread'
  have hcode : (BitVec.ofNat 12 c).toNat = c := by
    have hmax := h.dict.size.2
    rw [BitVec.toNat_ofNat]
    omega
  rw [hcode]
  exact ⟨seqOf_learned hslot hlt hseq, hfirst.trans hfirst'.symm⟩

/-- An index that extends the candidate to an entry makes that entry the candidate (R163). -/
theorem AwaitsIndex.encodes_hit {c : Nat} (h : AwaitsIndex e (.byte x :: q)) (hx : x.toNat < 2 ^ e.b.toNat)
    (hv : e.candV = true) (hseq : seqOf e e.cand.toNat = some p) (hfind : dictFind e e.cand x = some c) :
    ∃ t, step e = .next t ∧ AwaitsIndex t q ∧ t.b = e.b ∧ Encodes e t [] ∧ HoldsCandidate t (p ++ [x]) := by
  have hstep := h.step_index.trans (encodeIndex_hit (s := { e with inq := q }) hx hv hfind)
  obtain ⟨ht, hb⟩ := h.next hx hstep
  obtain ⟨hseq', hfirst⟩ := h.encoderOk.hit_extends h.inv.ram hseq hfind
  have hext : Extends e { e with inq := q, cand := BitVec.ofNat 12 c } := .of_eq rfl rfl rfl
  obtain ⟨f, -, hf, -⟩ := h.encoderOk.dict.seq_defined (h.encoderOk.candValid hv)
  refine ⟨_, hstep, ht, hb, ?_, .inr ⟨hv, hext.seqOf hseq'⟩⟩
  exact encodes_nothing h.inv.buffers ht rfl
    fun _ => ⟨hv, (hext.firstOf (hfirst.trans hf)).trans hf.symm⟩

/-- An index that extends the candidate to no entry: the decoder reads the candidate's code, and is then one entry behind
again (R164). -/
theorem AwaitsIndex.encodes_miss (h : AwaitsIndex e (.byte x :: q)) (hx : x.toNat < 2 ^ e.b.toNat)
    (hv : e.candV = true) (hseq : seqOf e e.cand.toNat = some p) (hmiss : dictFind e e.cand x = none)
    (hn : e.n.toNat < 4096) :
    ∃ t, step e = .next t ∧ AwaitsIndex t q ∧ t.b = e.b ∧ Encodes e t p ∧ HoldsCandidate t [x] := by
  obtain ⟨f, t, -, hstep, hgains, hsize, hslot, hslots, -, hcand, hsame⟩ :=
    encoderMiss e x q h.takesIndex hx h.inv.buffers h.encoderOk hv hmiss hn
  obtain ⟨ht, hb⟩ := h.next hx hstep
  have hv' : t.candV = true := by rw [hsame]; exact hv
  obtain ⟨hseq', hfirst'⟩ := literal_candidate (hb ▸ hx) hcand
  refine ⟨t, hstep, ht, hb, ⟨_, hgains, fun d more hsim hahead => ?_⟩, .inr ⟨hv', hseq'⟩⟩
  obtain ⟨d', hread⟩ := hsim.read hv hseq hahead
  refine ⟨d', hread.readsTo, ht.inv, ht.phase, ht.opk, hread.id, hread.run, hread.b.trans hb.symm, fun c hlo hhi => ?_,
    .inr ⟨hread.jr, hv', by rw [hsize, hread.n], x, f, ?_, hfirst'⟩⟩
  · rw [firstLearned_of_b hb] at hlo
    rw [hread.n] at hhi
    rw [hread.mem c hlo hhi, hslots c (Nat.ne_of_lt hhi)]
  · rw [hread.n, hread.prev, hslot]

/-- A decoder at the start of an epoch is in step with an encoder that has learned nothing yet. -/
theorem FreshEpoch.sim (hd : FreshEpoch d) (ht : AwaitsIndex t q) (hb : d.b = t.b) (hn : t.n.toNat = t.firstLearned) :
    Sim t d := by
  have hsize : d.n.toNat = t.firstLearned := hd.n.trans (firstLearned_of_b hb)
  refine ⟨ht.inv, ht.phase, ht.opk, hd.inv, hd.run, hb, fun c hlo hhi => ?_,
    .inl ⟨hd.jr, BitVec.eq_of_toNat_eq (hn.trans hsize.symm)⟩⟩
  omega

/-- An index that extends the candidate to no entry of a full table: the decoder's table is full behind the candidate's code,
and Clear starts an epoch for both (R165). -/
theorem AwaitsIndex.encodes_missFull (h : AwaitsIndex e (.byte x :: q)) (hx : x.toNat < 2 ^ e.b.toNat)
    (hv : e.candV = true) (hseq : seqOf e e.cand.toNat = some p) (hmiss : dictFind e e.cand x = none)
    (hn : e.n.toNat = 4096) :
    ∃ t, step e = .next t ∧ AwaitsIndex t q ∧ t.b = e.b ∧ Encodes e t p ∧ HoldsCandidate t [x] := by
  obtain ⟨t, hstep, hgains, hsize, -, -, hcand, hsame⟩ :=
    encoderMissFull e x q h.takesIndex hx h.inv.buffers h.encoderOk hv hmiss hn
  obtain ⟨ht, hb⟩ := h.next hx hstep
  have hv' : t.candV = true := by rw [hsame]; exact hv
  refine ⟨t, hstep, ht, hb, ⟨_, hgains, fun d more hsim hahead => ?_⟩,
    .inr ⟨hv', (literal_candidate (hb ▸ hx) hcand).1⟩⟩
  have hw := h.encoderOk.width_of_full hn
  obtain ⟨d', hread⟩ := hsim.read (more := bitsOf (2 ^ e.b.toNat) 12 ++ more) hv hseq
    (by rw [hw, hahead, List.append_assoc])
  have hw' := (hread.run.decoderOk hread.id).width_of_full (hread.n.trans hn)
  obtain ⟨d'', hclear, hfresh, hb'⟩ := hread.run.reads_clear hread.id (by rw [hw', hread.b, hread.ahead])
  refine ⟨d'', List.append_nil p ▸ hread.readsTo.trans hclear, hfresh.sim ht ?_ ?_⟩
  · rw [hb', hread.b, hb]
  · rw [hsize, State.firstLearned, hb]

/-- An index below `2^b`: what the candidate stands for and the index are what the decoder outputs for the codes written, if
any, and what the new candidate stands for (R162 to R165). -/
theorem AwaitsIndex.encodes_index (h : AwaitsIndex e (.byte x :: q)) (hx : x.toNat < 2 ^ e.b.toNat)
    (hc : HoldsCandidate e p) : ∃ t out p', step e = .next t ∧ AwaitsIndex t q ∧ t.b = e.b ∧ Encodes e t out ∧
      HoldsCandidate t p' ∧ out ++ p' = p ++ [x] := by
  rcases hc with ⟨hv, rfl⟩ | ⟨hv, hseq⟩
  · obtain ⟨t, hstep, ht, hb, henc, hcand⟩ := h.encodes_first hx hv
    exact ⟨t, [], [x], hstep, ht, hb, henc, hcand, rfl⟩
  cases hfind : dictFind e e.cand x with
  | some c =>
    obtain ⟨t, hstep, ht, hb, henc, hcand⟩ := h.encodes_hit hx hv hseq hfind
    exact ⟨t, [], p ++ [x], hstep, ht, hb, henc, hcand, rfl⟩
  | none =>
    have hmax := h.encoderOk.dict.size.2
    obtain ⟨t, hstep, ht, hb, henc, hcand⟩ := if hn : e.n.toNat < 4096 then h.encodes_miss hx hv hseq hfind hn
      else h.encodes_missFull hx hv hseq hfind (by omega)
    exact ⟨t, p, [x], hstep, ht, hb, henc, hcand, rfl⟩

theorem AwaitsIndex.encodes_indices {xs : List Byte} (h : AwaitsIndex e (xs.map Token.byte ++ q))
    (hxs : ∀ x ∈ xs, x.toNat < 2 ^ e.b.toNat) (hc : HoldsCandidate e p) :
    ∃ t out p', runSteps xs.length e = .next t ∧ AwaitsIndex t q ∧ Encodes e t out ∧ HoldsCandidate t p' ∧
      out ++ p' = p ++ xs := by
  induction xs generalizing e p with
  | nil => exact ⟨e, [], p, rfl, h, .refl h.inv.buffers, hc, by simp⟩
  | cons x xs ih =>
    obtain ⟨t, out, p', hstep, ht, hb, henc, hcand, hout⟩ := h.encodes_index (hxs x (by simp)) hc
    obtain ⟨u, out', p'', hrun, hu, henc', hcand', hout'⟩ := ih ht (fun y hy => hb ▸ hxs y (by simp [hy])) hcand
    refine ⟨u, out ++ out', p'', (runSteps_succ _ _ _ hstep).trans hrun, hu, henc.trans henc', hcand', ?_⟩
    rw [List.append_assoc, hout', ← List.append_assoc, hout, List.append_assoc, List.singleton_append]

/-! ### The end of the code stream (R166, C4) -/

/-- The remaining candidate's code, where there is a candidate, brings the decoder's dictionary to the encoder's size. -/
theorem Sim.reads_last (h : Sim e d) (hc : HoldsCandidate e p)
    (ha : payloadAhead d = some ((if e.candV then bitsOf e.cand.toNat e.w.toNat else []) ++ more)) :
    ∃ d', ReadsTo d d' more p ∧ Inv d' ∧ DRun d' ∧ d'.b = e.b ∧ d'.n.toNat = e.n.toNat := by
  rcases hc with ⟨hv, rfl⟩ | ⟨hv, hseq⟩
  · simp only [hv] at ha
    rcases h.lag with ⟨-, hn⟩ | ⟨-, hv', -⟩
    · exact ⟨d, .refl ha, h.id, h.run, h.b, by rw [hn]⟩
    · rw [hv] at hv'
      cases hv'
  · rw [if_pos hv] at ha
    obtain ⟨d', hread⟩ := h.read hv hseq ha
    exact ⟨d', hread.readsTo, hread.id, hread.run, hread.b, hread.n⟩

/-- EOI is written with the width that a decoder at the encoder's size reads it with (R166, C4). -/
theorem eoi_width_agrees (he : EncoderOk e) (hd : DecoderOk d) (hn : d.n.toNat = e.n.toNat) :
    (if e.n.toNat = 2 ^ e.w.toNat ∧ e.w.toNat < 12 then e.w.toNat + 1 else e.w.toNat) = d.w.toNat := by
  have hlow : 6 ≤ e.n.toNat :=
    Nat.le_trans (Nat.add_le_add_right (two_pow_b_bounds he.dict.base).1 2) he.dict.size.1
  rw [final_width he.closedWidth (by omega) he.dict.size.2, hd.closedWidth, hn]

/-- `End` and the finishing step: the decoder in step reads the last candidate and EOI, and drains the padding. -/
theorem AwaitsIndex.encodes_end (h : AwaitsIndex e (.eof :: q)) (hc : HoldsCandidate e p) :
    ∃ u payload bits, runSteps 2 e = .next u ∧ u.phase = .done ∧ u.inq = q ∧
      u.outq = e.outq ++ (frame payload).map OutItem.byte ++ [.endMark] ∧ payloadBits payload = pendingBits e ++ bits ∧
      ∀ d rest, Sim e d → payloadAhead d = some bits → blockRest d = some rest →
        ∃ k v, runSteps k d = .next v ∧ v.phase = .done ∧ v.inq = rest ∧
          v.outq = d.outq ++ p.map OutItem.byte ++ [.endMark] := by
  have hend : step e = .next { e with inq := q, opk := .encFinish } := by rw [h.step_eq, encIndexStep, h.inq]
  obtain ⟨u, payload, pad, hfinish, hdone, hwidth, hpayload, -, hout, -, -, hsame⟩ :=
    encoderFinish { e with inq := q, opk := .encFinish } (engineTurn_nil h.agenda) h.phase rfl
      (h.inv.buffers.same rfl rfl rfl rfl rfl rfl)
  simp only [List.append_assoc] at hpayload
  refine ⟨u, payload, _, (runSteps_succ 1 _ _ hend).trans (runSteps_one hfinish), hdone, by rw [hsame]; rfl, hout,
    hpayload, fun d rest hsim hahead hrest => ?_⟩
  obtain ⟨d', hlast, hinv', hrun', hb', hn'⟩ := hsim.reads_last hc hahead
  have hahead' := hlast.ahead
  rw [hwidth, eoi_width_agrees hsim.eok (hrun'.decoderOk hinv') hn', ← hb'] at hahead'
  obtain ⟨d'', heoi, hphase, hopk, hagenda, hheld⟩ := hrun'.reads_eoi hinv' hahead'
  have hreads := hlast.trans heoi
  obtain ⟨k, hk⟩ := hreads.run
  obtain ⟨k', v, hk', hv, hinq, hout'⟩ := drain_ends_well hphase hopk hagenda hheld (hreads.rest.trans hrest)
  exact ⟨k + k', v, runSteps_add hk hk', hv, hinq, by rw [hout', hreads.outq, List.append_nil]⟩

/-! ### The start of both operations (R180, R183) -/

/-- A state with the ports, the RAM and the parameters of `s` and no operation's registers. -/
def atRest (s : State) : State := { s with
  phase := .idle, b := 0, n := 0, w := 0, jr := false, chunk := [], wacc := [], wcur := 0, rem := 0, pend := false
  racc := [], err := .none, einfo := 0, pfault := none }

theorem atRest_inv {s : State} (h : s.mem.wf = true) : Inv (atRest s) := by
  have hbuffers : BufferOk (atRest s) := ⟨by simp [atRest], by simp [atRest], rfl, by simp [atRest], fun _ => rfl⟩
  have hlatch : LatchOk (atRest s) := ⟨by simp [atRest], fun _ => rfl, nofun⟩
  exact ⟨h, .inl ⟨rfl, rfl, rfl, rfl⟩, nofun, hbuffers, hlatch⟩

/-- An operation forgets the registers of the one before (R232). -/
theorem startEncode_atRest (s : State) : startEncode (atRest s) = startEncode s := rfl

theorem startDecode_atRest (s : State) : startDecode (atRest s) = startDecode s := rfl

/-- Code-stream bits gained and a framed payload behind them are one framed payload (R100). -/
theorem StreamGains.framed_with {payload : List Byte} (h : StreamGains bits e t)
    (hp : payloadBits payload = pendingBits t ++ bits') :
    ∃ whole, payloadBits whole = pendingBits e ++ (bits ++ bits') ∧
      e.outq ++ (frame whole).map OutItem.byte = t.outq ++ (frame payload).map OutItem.byte := by
  obtain ⟨cs, hlen, hout, hbits, -⟩ := h
  refine ⟨cs.flatten ++ payload, ?_, ?_⟩
  · rw [payloadBits_append, hp, ← List.append_assoc, hbits, List.append_assoc]
  · rw [hout, frame_prefix cs hlen, List.map_append, List.append_assoc]
    rfl

/-- ENCODE starts with no candidate and nothing learned. -/
theorem startEncode_fresh {s : State} {b : Nat} (hb : baseWidth s.palette.toNat = some b) :
    (startEncode s).candV = false ∧ (startEncode s).n.toNat = (startEncode s).firstLearned := by
  obtain ⟨-, h8, -⟩ := baseWidth_range hb
  obtain ⟨C, A, k, out, hlocal⟩ := startEncoding_local b s.cfg
  rw [startEncode_legal hb, hlocal s rfl]
  have hpow : 2 ^ b ≤ 2 ^ 8 := Nat.pow_le_pow_right (by omega) h8
  refine ⟨rfl, ?_⟩
  rw [State.firstLearned, baseRegister_toNat h8, BitVec.toNat_ofNat, Nat.mod_eq_of_lt (by omega)]

/-- The width byte of a block leaves the decoder at the start of an epoch, the whole payload ahead (R183). -/
theorem startDecode_epoch {r : State} {v : Byte} {payload : List Byte} {rest : List Token} (hwf : r.mem.wf = true)
    (ha : r.agenda = []) (h2 : 2 ≤ v.toNat) (h8 : v.toNat ≤ 8)
    (hinq : r.inq = .byte v :: ((frame payload).map Token.byte ++ rest)) :
    ∃ d, step (startDecode r) = .next d ∧ FreshEpoch d ∧ d.b = v.setWidth 4 ∧
      payloadAhead d = some (payloadBits payload) ∧ blockRest d = some rest ∧ d.outq = r.outq := by
  have ha' : (startDecode r).agenda = [] := ha
  have hinq' : (startDecode r).inq = .byte v :: ((frame payload).map Token.byte ++ rest) := hinq
  have hinv : Inv (startDecode r) := startDecode_atRest r ▸ startDecode_inv (atRest_inv hwf)
  have hstep := step_decWidth (engineTurn_nil ha') rfl rfl
  rw [afterTurn_nil ha', fetchWidth_byte hinq', execWidthByte, if_neg (by omega)] at hstep
  have hbase : 2 ≤ (v.setWidth 4).toNat ∧ (v.setWidth 4).toNat ≤ 8 := by
    rw [BitVec.toNat_setWidth]
    omega
  refine ⟨_, hstep, ⟨engine_step_inv hinv ha' hstep, ⟨rfl, rfl, ha⟩, rfl, firstLearned_toNat hbase⟩, rfl,
    payloadAhead_frame rfl rfl rfl rfl, ?_, rfl⟩
  have hdeframe := frameRoundTrip payload rest
  exact congrArg (Option.map Prod.snd) hdeframe

/-- A fresh epoch reads codes of `b + 1` bits (R124). -/
theorem FreshEpoch.width (h : FreshEpoch d) : d.w.toNat = d.b.toNat + 1 := by
  have hd := h.run.decoderOk h.inv
  have hb := hd.dict.base
  rw [hd.closedWidth, h.n, (bitlen_firstLearned hb).1]
  omega

/-- The leading Clear, where there is one, starts the epoch again (R167). -/
theorem FreshEpoch.reads_leading (h : FreshEpoch d) (c : Bool)
    (ha : payloadAhead d = some ((if c then bitsOf (2 ^ d.b.toNat) (d.b.toNat + 1) else []) ++ more)) :
    ∃ d', ReadsTo d d' more [] ∧ FreshEpoch d' ∧ d'.b = d.b := by
  cases c with
  | false => exact ⟨d, .refl ha, h, rfl⟩
  | true =>
    rw [if_pos rfl, ← h.width] at ha
    exact h.run.reads_clear h.inv ha

/-- A whole ENCODE: its output is the width byte and one framed payload, which a decoder at the start of an epoch of its base
width reads as the indices. -/
theorem startEncode_encodes {s : State} {b : Nat} {xs : List Byte} {left : List Token} (hwf : s.mem.wf = true)
    (hagenda : s.agenda = []) (hb : baseWidth s.palette.toNat = some b)
    (hinq : s.inq = xs.map Token.byte ++ .eof :: left) (hxs : ∀ x ∈ xs, x.toNat < 2 ^ (startEncode s).b.toNat) :
    ∃ k u payload, runSteps k (startEncode s) = .next u ∧ u.phase = .done ∧ u.inq = left ∧
      u.outq = s.outq ++ (BitVec.ofNat 8 b :: frame payload).map OutItem.byte ++ [.endMark] ∧
      ∀ d rest, FreshEpoch d → d.b = BitVec.ofNat 4 b → payloadAhead d = some (payloadBits payload) →
        blockRest d = some rest → ∃ k v, runSteps k d = .next v ∧ v.phase = .done ∧ v.inq = rest ∧
          v.outq = d.outq ++ xs.map OutItem.byte ++ [.endMark] := by
  obtain ⟨h2, h8, -⟩ := baseWidth_range hb
  obtain ⟨hv, hn⟩ := startEncode_fresh hb
  obtain ⟨hawaits, hbase, -⟩ := startEncode_awaits (s := atRest s) (atRest_inv hwf) hagenda hb
  rw [startEncode_atRest] at hawaits hbase
  obtain ⟨houtq, hpending, -⟩ := startEncoding_stream h8 s
  rw [← startEncode_legal hb] at houtq hpending
  generalize startEncode s = e at hxs hv hn hawaits hbase houtq hpending ⊢
  have hawaits' : AwaitsIndex e (xs.map Token.byte ++ .eof :: left) := hinq ▸ hawaits
  obtain ⟨t, out, p, hrun, ht, ⟨bits, hgains, htracks⟩, hcand, hout⟩ := hawaits'.encodes_indices hxs (.inl ⟨hv, rfl⟩)
  obtain ⟨u, payload, bits', hrun', hdone, hleft, houtq', hpayload, hdecodes⟩ := ht.encodes_end hcand
  obtain ⟨whole, hwhole, hframed⟩ := hgains.framed_with hpayload
  refine ⟨_, u, whole, runSteps_add hrun hrun', hdone, hleft, ?_, fun d rest hfresh hdb hahead hrest => ?_⟩
  · rw [houtq', ← hframed, houtq]
    simp
  have hdb' : d.b.toNat = b := by rw [hdb, baseRegister_toNat h8]
  rw [hwhole, hpending, ← hdb'] at hahead
  obtain ⟨d₁, hread₁, hfresh₁, hb₁⟩ := hfresh.reads_leading _ hahead
  have hsim₁ := hfresh₁.sim hawaits' (hb₁.trans (hdb.trans hbase.symm)) hn
  obtain ⟨d₂, hread₂, hsim⟩ := htracks d₁ bits' hsim₁ hread₁.ahead
  have hread := hread₁.trans hread₂
  obtain ⟨k, hk⟩ := hread.run
  obtain ⟨k', v, hk', hvdone, hvinq, hvout⟩ := hdecodes d₂ rest hsim hread.ahead (hread.rest.trans hrest)
  refine ⟨k + k', v, runSteps_add hk hk', hvdone, hvinq, ?_⟩
  rw [hvout, hread.outq, List.nil_append, List.append_assoc d.outq, ← List.map_append, hout, List.nil_append]

end

/-- Settles O60: an encoder and a decoder at the start of an epoch are in step, the codes written for each index keep them so,
and what the decoder has output and what the candidate stands for are the indices taken; EOI and the drain end both. -/
theorem portRoundTrip : Obligations.PortRoundTrip := by
  unfold Obligations.PortRoundTrip
  intro s w xs left hp hagenda hwf h1 h256 hinq
  obtain ⟨b, hb⟩ : ∃ b, baseWidth s.palette.toNat = some b := ⟨_, if_neg (by omega)⟩
  obtain ⟨h2, h8, -⟩ := baseWidth_range hb
  refine ⟨_, exec_cmdEncode w hp, fun hxs => ?_⟩
  obtain ⟨k, u, payload, hrun, hdone, hleft, hout, hdecodes⟩ := startEncode_encodes hwf hagenda hb hinq hxs
  refine ⟨k, u, BitVec.ofNat 8 b :: frame payload, hrun, hdone, hleft, hout, fun r w' rest hrp hra hrwf hrinq => ?_⟩
  have hbyte : (BitVec.ofNat 8 b).toNat = b := by
    rw [BitVec.toNat_ofNat]
    omega
  obtain ⟨d, hstep, hfresh, hdb, hahead, hrest, hdout⟩ :=
    startDecode_epoch hrwf hra (hbyte.symm ▸ h2) (hbyte.symm ▸ h8) hrinq
  rw [BitVec.setWidth_ofNat_of_le (by omega)] at hdb
  obtain ⟨k', v, hk', hv, hvinq, hvout⟩ := hdecodes d rest hfresh hdb hahead hrest
  have hrun' : runSteps (k' + 1) (startDecode r) = .next v := (runSteps_succ _ _ _ hstep).trans hk'
  exact ⟨_, k' + 1, v, exec_cmdDecode w' hrp, hrun', hv, hvinq, hdout ▸ hvout⟩

end Sys2Proof.Machine
end

section
/-! The family of the exceptions (60_exceptions.md): a width byte outside 2 to 8. -/

namespace Sys2Proof.Machine

/-! ## A width byte out of range (R186, R201) -/

/-- `BAD_WIDTH` is never held: only `BAD_CODE` and `OUT_OF_DATA` are (R186). -/
theorem raise_badWidth (info : BitVec 16) (s : State) :
    raise .badWidth info s = { s with err := .badWidth, einfo := info, pfault := none, phase := .fault } :=
  raise_taken (by simp)

/-- A width byte out of range is a fault taken at once, whatever the state (R201). -/
theorem execWidthByte_rejected {v : Byte} (s : State) (h : v.toNat < 2 ∨ 8 < v.toNat) :
    execWidthByte v s =
      .next { s with err := .badWidth, einfo := v.setWidth 16, pfault := none, phase := .fault } := by
  rw [execWidthByte, if_pos h, raise_badWidth]

/-- Settles O16: the step takes the byte and executes it, and out of range it only enters the fault. -/
theorem widthByteRejected : Obligations.WidthByteRejected := by
  unfold Obligations.WidthByteRejected
  intro s v q hturn hp ho hinq hrange
  rw [step_decWidth hturn hp ho, fetchWidth_byte (s := s.afterTurn) hinq, execWidthByte_rejected _ hrange]

end Sys2Proof.Machine
end
